-- ==== Sys2Proof/Word.lean ====
section
/-! DEFINITION. The widths of the block: bytes and 16-bit values (00_scope.md section 5.1). All are unsigned. -/

namespace Sys2Proof

/-- A byte: 8 bits, unsigned (00_scope.md section 5.1). -/
abbrev Byte := BitVec 8

/-- A 16-bit value: `LEN`, `DET`, `OUTLEN` and a CRC (10_state.md R10, R13, R14). -/
abbrev Half := BitVec 16

end Sys2Proof
end

