-- ==== Sys2Proof/Config.lean ====
section
/-! DEFINITION. What is fixed for the machine, and its free values. -/

namespace Sys2Proof

/-- `FB_SIZE`: the frame buffer has 1029 bytes, addresses 0 to 1028 (10_state.md R7). -/
def Config.fbSize : Nat := 1029

/-- The number of registers: numbers 0 to 6 (10_state.md R6). -/
def Config.regCount : Nat := 7

/-- FREE VALUE. What the `n`-th read of an FB byte that nothing has written gives (20_memory.md R30: "draws the byte
freshly at each read under no law"). It has no body: no proof can see a value of it. Log entry 1; safe. -/
opaque Config.freeByte : Nat → Byte

end Sys2Proof
end

