-- ==== Sys2Proof/Syntax.lean ====
section
/-! DEFINITION. The syntax: one constructor of `Instr` per row of spec/opcode_table.json, and the types its encodings
use. -/

namespace Sys2Proof

/-- Detection mode: bit `MODE` of a command, 0 checksum and 1 CRC (30_encoding.md R42). -/
inductive Mode where
  | checksum
  | crc
  deriving DecidableEq, Repr

/-- Block size: bit `SIZE` of a command, 0 the 128-byte block and 1 the 1024-byte block (30_encoding.md R42). -/
inductive BlockSize where
  | b128
  | b1k
  deriving DecidableEq, Repr

/-- The closed enumeration of control bytes, with every other byte (30_encoding.md R33). -/
inductive Ctl where
  | soh
  | stx
  | eot
  | ack
  | nak
  | can
  | crcreq
  | other (b : Byte)
  deriving DecidableEq, Repr

/-- Where a word stands. A control byte "is recognised only by its position, never by its value alone"
(30_encoding.md R32): the same byte is a command when written to `CMD` and a control byte on the wire. -/
inductive Space where
  | command
  | wire
  deriving DecidableEq, Repr

/-- The rows of the opcode table, in the table's order: ten commands (R43), six rows of reserved commands (R44) whose
operands are their don't-care bits, four frame formats (R35) whose operands are their fields as they stand on the wire,
seven control bytes (R32) and the pad byte (R39). -/
inductive Instr where
  | detCs
  | detCrc
  | enc128Cs
  | enc128Crc
  | enc1kCs
  | enc1kCrc
  | dec128Cs
  | dec128Crc
  | dec1kCs
  | dec1kCrc
  | illegalDet (m : BitVec 1)
  | illegalOp3 (sm : BitVec 2)
  | illegalBit4 (low : BitVec 4)
  | illegalBit5 (low : BitVec 5)
  | illegalBit6 (low : BitVec 6)
  | illegalBit7 (low : BitVec 7)
  | f128Cs (seq cmpl : Byte) (payload : List Byte) (detection : Byte)
  | f128Crc (seq cmpl : Byte) (payload : List Byte) (detection : Half)
  | f1kCs (seq cmpl : Byte) (payload : List Byte) (detection : Byte)
  | f1kCrc (seq cmpl : Byte) (payload : List Byte) (detection : Half)
  | soh
  | stx
  | eot
  | ack
  | nak
  | can
  | crcreq
  | pad
  deriving DecidableEq, Repr

/-- The space a row belongs to: its "format" in the table (CMD, or one of FRAME, CONTROL_BYTE, CONSTANT_BYTE). -/
def Instr.space : Instr → Space
  | .detCs => .command
  | .detCrc => .command
  | .enc128Cs => .command
  | .enc128Crc => .command
  | .enc1kCs => .command
  | .enc1kCrc => .command
  | .dec128Cs => .command
  | .dec128Crc => .command
  | .dec1kCs => .command
  | .dec1kCrc => .command
  | .illegalDet _ => .command
  | .illegalOp3 _ => .command
  | .illegalBit4 _ => .command
  | .illegalBit5 _ => .command
  | .illegalBit6 _ => .command
  | .illegalBit7 _ => .command
  | .f128Cs _ _ _ _ => .wire
  | .f128Crc _ _ _ _ => .wire
  | .f1kCs _ _ _ _ => .wire
  | .f1kCrc _ _ _ _ => .wire
  | .soh => .wire
  | .stx => .wire
  | .eot => .wire
  | .ack => .wire
  | .nak => .wire
  | .can => .wire
  | .crcreq => .wire
  | .pad => .wire

/-- The detection code of a Block: "byte (checksum mode) or 16-bit value (CRC mode)" (10_state.md R18). -/
inductive DetectionCode where
  | checksum (b : Byte)
  | crc (c : Half)
  deriving DecidableEq, Repr

/-- The Block record of 10_state.md R18. `startMarker` holds the size its marker stands for (SOH 128, STX 1024); the
mode is that of the detection code. -/
structure Block where
  startMarker : BlockSize
  sequence : Byte
  complement : Byte
  payload : List Byte
  detectionCode : DetectionCode
  deriving DecidableEq, Repr

end Sys2Proof
end

