-- ==== Sys2Proof/WellFormed.lean ====
section
/-! DEFINITION. Well-formedness of an instruction: a frame's payload has exactly its format's length (10_state.md R18,
30_encoding.md R35). Every other operand is a bit field of exactly its width and needs no check. -/

namespace Sys2Proof

/-- "payload length is exactly the negotiated block size" (10_state.md R18). The complement and the detection code
are NOT checked here: a frame with a wrong one is a word of its format that `DEC.*` judges (30_encoding.md R45). -/
def Instr.wf : Instr → Bool
  | .f128Cs _ _ p _ => p.length == 128
  | .f128Crc _ _ p _ => p.length == 128
  | .f1kCs _ _ p _ => p.length == 1024
  | .f1kCrc _ _ p _ => p.length == 1024
  | .detCs => true
  | .detCrc => true
  | .enc128Cs => true
  | .enc128Crc => true
  | .enc1kCs => true
  | .enc1kCrc => true
  | .dec128Cs => true
  | .dec128Crc => true
  | .dec1kCs => true
  | .dec1kCrc => true
  | .illegalDet _ => true
  | .illegalOp3 _ => true
  | .illegalBit4 _ => true
  | .illegalBit5 _ => true
  | .illegalBit6 _ => true
  | .illegalBit7 _ => true
  | .soh => true
  | .stx => true
  | .eot => true
  | .ack => true
  | .nak => true
  | .can => true
  | .crcreq => true
  | .pad => true

end Sys2Proof
end

