-- ==== Sys2Proof/Decode.lean ====
section
/-! DEFINITION. The encodings of 30_encoding.md: control bytes, frame formats, the command byte; the decoder, total on
any bytes and rejecting by name; the encoder. -/

namespace Sys2Proof

/-! ### Constants and shared functions (00_scope.md section 5.4) -/

/-- SOH (30_encoding.md R32). -/
def byteSoh : Byte := 0x01#8
/-- STX (30_encoding.md R32). -/
def byteStx : Byte := 0x02#8
/-- EOT (30_encoding.md R32). -/
def byteEot : Byte := 0x04#8
/-- ACK (30_encoding.md R32). -/
def byteAck : Byte := 0x06#8
/-- NAK (30_encoding.md R32). -/
def byteNak : Byte := 0x15#8
/-- CAN (30_encoding.md R32). -/
def byteCan : Byte := 0x18#8
/-- The CRC request 'C' (30_encoding.md R32). -/
def byteCrcreq : Byte := 0x43#8
/-- The pad byte, Ctrl-Z (30_encoding.md R39). -/
def bytePad : Byte := 0x1A#8

/-- `ctl(b)`: the classification of a lone control byte (30_encoding.md R33). -/
def ctl (b : Byte) : Ctl :=
  if b = byteSoh then .soh
  else if b = byteStx then .stx
  else if b = byteEot then .eot
  else if b = byteAck then .ack
  else if b = byteNak then .nak
  else if b = byteCan then .can
  else if b = byteCrcreq then .crcreq
  else .other b

/-- `bs(size)` (30_encoding.md R42). -/
def bs : BlockSize → Nat
  | .b128 => 128
  | .b1k => 1024

/-- `marker(size)` (30_encoding.md R36). -/
def marker : BlockSize → Byte
  | .b128 => byteSoh
  | .b1k => byteStx

/-- `tl(mode)`: the trailer's length (30_encoding.md R40). -/
def tl : Mode → Nat
  | .checksum => 1
  | .crc => 2

/-- `flen(size, mode) = 3 + bs(size) + tl(mode)` (30_encoding.md R35). -/
def flen (z : BlockSize) (m : Mode) : Nat := 3 + bs z + tl m

/-- The block size a start marker stands for, read by the receiver: "SOH⇒128, STX⇒1024" (30_encoding.md R36). -/
def sizeOfMarker (b : Byte) : BlockSize := if b = byteStx then .b1k else .b128

/-- `PAYLOAD_BASE = 3` (20_memory.md R20). -/
def payloadBase : Nat := 3

/-- The high byte of a 16-bit value, `c[15:8]`. -/
def hiByte (c : Half) : Byte := c.extractLsb' 8 8

/-- The low byte of a 16-bit value, `c[7:0]`. -/
def loByte (c : Half) : Byte := c.extractLsb' 0 8

/-- `{hi, lo}`: two bytes as a 16-bit value, high byte first (30_encoding.md R40). -/
def half (hi lo : Byte) : Half := hi ++ lo

/-! ### The command byte -/

/-- Bit `SIZE` (30_encoding.md R42). -/
def BlockSize.bit : BlockSize → BitVec 1
  | .b128 => 0#1
  | .b1k => 1#1

/-- Bit `MODE` (30_encoding.md R42). -/
def Mode.bit : Mode → BitVec 1
  | .checksum => 0#1
  | .crc => 1#1

/-- The layout `0000 OP SIZE MODE` (30_encoding.md R42). -/
def cmdByte (op : BitVec 2) (z : BlockSize) (m : Mode) : Byte := 0#4 ++ op ++ z.bit ++ m.bit

/-- `OP = 0`, the error detector alone. -/
def opDet : BitVec 2 := 0#2
/-- `OP = 1`, encode. -/
def opEnc : BitVec 2 := 1#2
/-- `OP = 2`, decode. -/
def opDec : BitVec 2 := 2#2

/-- The decoder of command bytes, row by row from the opcode table's match and mask (30_encoding.md R43, R44). It is
total: the 246 reserved values are the six `ILLEGAL` rows. -/
def decodeCmd (v : Byte) : Instr :=
  if v = 0x00#8 then .detCs
  else if v = 0x01#8 then .detCrc
  else if v = 0x04#8 then .enc128Cs
  else if v = 0x05#8 then .enc128Crc
  else if v = 0x06#8 then .enc1kCs
  else if v = 0x07#8 then .enc1kCrc
  else if v = 0x08#8 then .dec128Cs
  else if v = 0x09#8 then .dec128Crc
  else if v = 0x0A#8 then .dec1kCs
  else if v = 0x0B#8 then .dec1kCrc
  else if v &&& 0xFE#8 = 0x02#8 then .illegalDet (v.extractLsb' 0 1)
  else if v &&& 0xFC#8 = 0x0C#8 then .illegalOp3 (v.extractLsb' 0 2)
  else if v &&& 0xF0#8 = 0x10#8 then .illegalBit4 (v.extractLsb' 0 4)
  else if v &&& 0xE0#8 = 0x20#8 then .illegalBit5 (v.extractLsb' 0 5)
  else if v &&& 0xC0#8 = 0x40#8 then .illegalBit6 (v.extractLsb' 0 6)
  else .illegalBit7 (v.extractLsb' 0 7)

/-! ### The wire -/

/-- Why bytes are no row of the table. -/
inductive DecodeError where
  /-- No byte at all. -/
  | empty
  /-- A lone byte that is neither a control byte nor the pad byte (`Other(b)` of 30_encoding.md R33). -/
  | otherByte (b : Byte)
  /-- A frame's length with a first byte that is not that format's marker (30_encoding.md R45). -/
  | badMarker (b : Byte)
  /-- A length that no format has (30_encoding.md R45). -/
  | badLength (n : Nat)
  /-- A `CMD` write is exactly one byte (10_state.md R8). -/
  | notOneByte (n : Nat)
  deriving DecidableEq, Repr

/-- A lone byte on the wire (30_encoding.md R32, R33, R39). -/
def decodeLone (b : Byte) : Except DecodeError Instr :=
  match ctl b with
  | .soh => .ok .soh
  | .stx => .ok .stx
  | .eot => .ok .eot
  | .ack => .ok .ack
  | .nak => .ok .nak
  | .can => .ok .can
  | .crcreq => .ok .crcreq
  | .other b => if b = bytePad then .ok .pad else .error (.otherByte b)

/-- A whole frame: its length names the format (30_encoding.md R35, R45: the four lengths differ), its first byte must
be the format's marker (R36), the fields stand at the format's offsets (R34), the CRC high byte first (R40). -/
def decodeFrame (b q c : Byte) (rest : List Byte) : Except DecodeError Instr :=
  if rest.length = 129 then
    if b = byteSoh then .ok (.f128Cs q c (rest.take 128) (rest.getD 128 0#8)) else .error (.badMarker b)
  else if rest.length = 130 then
    if b = byteSoh then .ok (.f128Crc q c (rest.take 128) (half (rest.getD 128 0#8) (rest.getD 129 0#8)))
    else .error (.badMarker b)
  else if rest.length = 1025 then
    if b = byteStx then .ok (.f1kCs q c (rest.take 1024) (rest.getD 1024 0#8)) else .error (.badMarker b)
  else if rest.length = 1026 then
    if b = byteStx then .ok (.f1kCrc q c (rest.take 1024) (half (rest.getD 1024 0#8) (rest.getD 1025 0#8)))
    else .error (.badMarker b)
  else .error (.badLength (3 + rest.length))

/-- The bytes one delivery of the wire holds, when it starts at a control position: a lone byte or a whole frame. -/
def decodeWire : List Byte → Except DecodeError Instr
  | [] => .error .empty
  | [b] => decodeLone b
  | b :: q :: c :: rest => decodeFrame b q c rest
  | [_, _] => .error (.badLength 2)

/-- The decoder, by position (30_encoding.md R32). -/
def decode : Space → List Byte → Except DecodeError Instr
  | .command, [v] => .ok (decodeCmd v)
  | .command, l => .error (.notOneByte l.length)
  | .wire, l => decodeWire l

/-! ### The encoder, from the same tables -/

/-- The bytes of an instruction, the first on the wire first. A command is its one byte (30_encoding.md R43, R44); a
frame is `marker | seq | cmpl | payload | detection` (R34, R40). -/
def encode : Instr → List Byte
  | .detCs => [cmdByte opDet .b128 .checksum]
  | .detCrc => [cmdByte opDet .b128 .crc]
  | .enc128Cs => [cmdByte opEnc .b128 .checksum]
  | .enc128Crc => [cmdByte opEnc .b128 .crc]
  | .enc1kCs => [cmdByte opEnc .b1k .checksum]
  | .enc1kCrc => [cmdByte opEnc .b1k .crc]
  | .dec128Cs => [cmdByte opDec .b128 .checksum]
  | .dec128Crc => [cmdByte opDec .b128 .crc]
  | .dec1kCs => [cmdByte opDec .b1k .checksum]
  | .dec1kCrc => [cmdByte opDec .b1k .crc]
  | .illegalDet m => [0b0000001#7 ++ m]
  | .illegalOp3 sm => [0b000011#6 ++ sm]
  | .illegalBit4 low => [0b0001#4 ++ low]
  | .illegalBit5 low => [0b001#3 ++ low]
  | .illegalBit6 low => [0b01#2 ++ low]
  | .illegalBit7 low => [0b1#1 ++ low]
  | .f128Cs q c p d => marker .b128 :: q :: c :: (p ++ [d])
  | .f128Crc q c p d => marker .b128 :: q :: c :: (p ++ [hiByte d, loByte d])
  | .f1kCs q c p d => marker .b1k :: q :: c :: (p ++ [d])
  | .f1kCrc q c p d => marker .b1k :: q :: c :: (p ++ [hiByte d, loByte d])
  | .soh => [byteSoh]
  | .stx => [byteStx]
  | .eot => [byteEot]
  | .ack => [byteAck]
  | .nak => [byteNak]
  | .can => [byteCan]
  | .crcreq => [byteCrcreq]
  | .pad => [bytePad]

/-! ### The table's words -/

/-- The first `n` bytes of a word, bits 7:0 first. -/
def wordBytes : Nat → Nat → List Byte
  | 0, _ => []
  | n + 1, w => BitVec.ofNat 8 w :: wordBytes n (w / 256)

/-- The row the decoder reads from a word of `nbits` bits. A word of 8 bits is read as a byte written to `CMD`: eight
rows of the table (the control bytes and the pad byte) have words that are commands in that position (30_encoding.md
R32; log entry 7). A longer word is a frame. -/
def decodeTableWord (nbits w : Nat) : Option Instr :=
  if nbits = 8 then some (decodeCmd (BitVec.ofNat 8 w))
  else (decodeWire (wordBytes (nbits / 8) w)).toOption

end Sys2Proof
end

