-- ==== Sys2Proof/Machine/State.lean ====
section
/-! DEFINITION. The state: the block's own record, its frame buffer and seven registers (10_state.md R6); around it the
host's session (43_session_environment.md R89), and the model's own fields that bring the outside world in. -/

namespace Sys2Proof.Machine

/-- The frame buffer as the bytes that have been written since reset: addresses strictly rising, each below 1029
(`Memory.wf` of Machine/Ops.lean). A byte that is not listed has no value (10_state.md R7, 20_memory.md R30). -/
abbrev Memory := List Host.Cell

/-- The errors a command can end in (60_exceptions.md R90), apart from `OK`. -/
inductive Err where
  | invalidPayload
  | frameError
  | checksumError
  | crcError
  | illegalCommand
  deriving DecidableEq, Repr

/-- What a bus read returns: a register or FB byte at its own width (20_memory.md R21, R22). -/
inductive BusValue where
  | byte (b : Byte)
  | half (h : Half)
  deriving DecidableEq, Repr

/-- `WRREG r, v` with `v` of the register's width (20_memory.md R22). `reserved n` is register number `7 + n`, which
does not exist (R26). -/
inductive RegWrite where
  | cmd (v : Byte)
  | seq (v : Byte)
  | len (v : Half)
  | status (v : Byte)
  | rseq (v : Byte)
  | det (v : Half)
  | outlen (v : Half)
  | reserved (n : Nat) (v : Half)
  deriving DecidableEq, Repr

/-- The written shorthands of 30_encoding.md R47: `LOAD a, P`, `ENCODE.E.M s, P`, `DECODE.E.M R`, `DETECT.M P`,
`SENDFRAME`. -/
inductive Shorthand where
  | load (a : Nat) (p : List Byte)
  | encode (z : BlockSize) (m : Mode) (s : Byte) (p : List Byte)
  | decode (z : BlockSize) (m : Mode) (r : List Byte)
  | detect (m : Mode) (p : List Byte)
  | sendframe
  deriving DecidableEq, Repr

/-! ### The session (43_session_environment.md) -/

/-- The session's role (R89). -/
inductive Role where
  | sender
  | receiver
  deriving DecidableEq, Repr

/-- The open parameters of a session: XFS gives no value for any of them (93_implementation_defined.md U3, U9, U12;
91_not_in_source.md N11, N14, N15). -/
structure Params where
  /-- `retry_limit` (R76, R89): the budget of the handshake, of each block and of the EOT, each with its own count. -/
  retryLimit : Nat
  /-- `timeout` (R76, R89), a duration: the model has no time, so no rule reads it. -/
  timeout : Nat
  /-- The fixed interval between handshake bytes (R81), a duration: no rule reads it. -/
  handshakeInterval : Nat
  /-- How many 'C' bytes go unanswered before the receiver falls back to NAK (R81). -/
  crcFallback : Nat
  /-- Whether an empty source is sent as one all-padding block (true) or as no block (false): R78, U12. -/
  emptyAsBlock : Bool
  /-- Whether a first byte that is no SOH, STX, EOT or CAN is answered with NAK (true) or ignored: R82, N14. -/
  strayNaks : Bool
  /-- Whether a reply to EOT other than ACK, NAK and CAN makes the sender retransmit EOT (true) or is ignored: R80. -/
  eotStrayResends : Bool
  /-- Whether the receiver sends NAK when a read times out (true) or only counts the attempt: R76, R82. -/
  timeoutNaks : Bool
  /-- The external declared file size of a length-aware receiver (R83, R86, U3); none: whole blocks are delivered. -/
  declaredSize : Option Nat
  deriving DecidableEq, Repr

/-- Why an attempt to receive a block failed (R83, R98: the "error kind attached"). -/
inductive FailKind where
  | block (e : Err)
  | sequence (got : Byte)
  | stray (b : Byte)
  | timeout
  deriving DecidableEq, Repr

/-- How a session ended (60_exceptions.md R99; `Done`, `Cancelled` and `Failed` of 43 section 4 and 5). The block
sequence and the error kind are attached to a terminal result (R98): the session keeps its `sequence` when it ends. -/
inductive SessionEnd where
  | done
  | peerCancelled
  | externallyCancelled
  | noHandshake
  | noSender
  | retriesExhausted (sequence : Byte) (lastSeen : Option Byte)
  | tooManyErrors (sequence : Byte) (kind : FailKind)
  | eotNotAcked
  deriving DecidableEq, Repr

/-- The states of the two state machines in which the host waits on a transport read (R88: "Suspension occurs only at
transport-read boundaries"). `SendBlock` and `SendEOT` read nothing and are passed within a step (log entry 12). -/
inductive Phase where
  | awaitHandshake
  | awaitAck
  | awaitEotAck
  | init
  | awaitBlock
  | ended (e : SessionEnd)
  deriving DecidableEq, Repr

/-- A session (R89). -/
structure Session where
  role : Role
  params : Params
  /-- `mode`; before the handshake has set it nothing reads it (log entry 13). -/
  mode : Mode
  /-- `block_size`; of a receiver whose `sizeFixed` is false nothing reads it (log entry 13). -/
  blockSize : BlockSize
  /-- Whether `block_size` is set: a receiver's may be set by the first block's marker (R82, D31). -/
  sizeFixed : Bool
  /-- `current_sequence` of a sender, `expected_sequence` of a receiver (R89, R87). -/
  sequence : Byte
  /-- `bytes_transferred`: payload bytes acknowledged (sender) or appended to the sink (receiver). -/
  bytesTransferred : Nat
  phase : Phase
  /-- The Retry Controller's count for the exchange in hand (R76); in `init`, the handshake bytes sent (R81). -/
  attempts : Nat
  /-- The source bytes not yet acknowledged, in order (R74). -/
  source : List Byte
  /-- The bytes appended to the sink, in order (R74). -/
  sink : List Byte
  /-- The bytes read so far of the block being read (R82). -/
  partialBlock : List Byte
  /-- The last response byte seen in the exchange in hand (R76). -/
  lastResponse : Option Byte
  /-- An external cancellation that waits for the end of the block in hand (R88). -/
  cancelPending : Bool
  deriving DecidableEq, Repr

/-! ### Inputs -/

/-- What the outside world can do: the host's bus accesses (20_memory.md R21, R22), the shorthands (30_encoding.md
R47), reset (70_reset_and_hazards.md R105), and the events of the environment (43). -/
inductive Input where
  | rdfb (a : Nat)
  | wrfb (a : Nat) (b : Byte)
  | rdreg (r : Nat)
  | wrreg (w : RegWrite)
  | shorthand (m : Shorthand)
  | reset
  /-- A sender's session is opened with its parameters, its block size and its byte source. -/
  | openSender (p : Params) (z : BlockSize) (source : List Byte)
  /-- A receiver's session is opened; its block size may be configured beforehand (D31). -/
  | openReceiver (p : Params) (z : Option BlockSize)
  /-- The transport delivers bytes, in order (R73). -/
  | wire (bytes : List Byte)
  /-- The read in hand times out, or the handshake interval ends (R73, R76, R81). -/
  | timeout
  /-- The caller cancels (R88). -/
  | cancel
  deriving DecidableEq, Repr

/-- The complete state of the block: "one memory and seven registers", and nothing else (10_state.md R6). -/
structure Xfc where
  /-- The frame buffer (10_state.md R7). -/
  fb : Memory
  /-- Register 0 (R8). -/
  cmd : Byte
  /-- Register 1 (R9). -/
  seq : Byte
  /-- Register 2 (R10). -/
  len : Half
  /-- Register 3 (R11). -/
  status : Byte
  /-- Register 4 (R12). -/
  rseq : Byte
  /-- Register 5 (R13). -/
  det : Half
  /-- Register 6 (R14). -/
  outlen : Half
  deriving DecidableEq, Repr

/-- The state of the machine: the block, and outside it its environment. R6 has the host's action and the contents of FB
after reset as parameters of a step; a step of the host's interface takes a state alone, so they come from `inputs` and
`draws` (log entries 1, 2, 11). `Xfc.access` of Machine/Fetch.lean is the block's step with both as parameters. -/
structure State extends Xfc where
  /-- The host's session, if one has been opened (43 R89). -/
  session : Option Session
  /-- The bytes the host has written to its transport, oldest first (43 R73). -/
  wireOut : List Byte
  /-- MODEL'S OWN: the inputs to come, oldest first (10_state.md R6). -/
  inputs : List Input
  /-- MODEL'S OWN: what the last `RDFB` or `RDREG` returned. -/
  returned : Option BusValue
  /-- MODEL'S OWN: the last error the host reported itself (30_encoding.md R47). -/
  reported : Option Err
  /-- MODEL'S OWN: the index of the next free value (`Config.freeByte`). -/
  draws : Nat
  deriving DecidableEq, Repr

/-- A host's access to the block: the four primitives (20_memory.md R21, R22), and the reset from outside
(70_reset_and_hazards.md R105). It is the parameter of the block's step (10_state.md R6). -/
inductive Access where
  | rdfb (a : Nat)
  | wrfb (a : Nat) (b : Byte)
  | rdreg (r : Nat)
  | wrreg (w : RegWrite)
  | reset
  deriving DecidableEq, Repr

/-- The input an access is. -/
def Access.input : Access → Input
  | .rdfb a => .rdfb a
  | .wrfb a b => .wrfb a b
  | .rdreg r => .rdreg r
  | .wrreg w => .wrreg w
  | .reset => .reset

/-- Why the machine stops. -/
inductive Fault where
  /-- Raised by `RDFB`, `WRFB` and `LOAD` at an address of 1029 and above, which does not exist (20_memory.md R26).
  Safe: the hardware may go on. -/
  | reservedFbAddress (a : Nat)
  /-- Raised by `RDREG` and `WRREG` of a register number of 7 and above, which does not exist (20_memory.md R26).
  Safe: the hardware may go on. -/
  | reservedRegister (r : Nat)
  deriving DecidableEq, Repr

/-- Why the machine refuses. -/
inductive Refusal where
  /-- Raised by an arm of `exec` for an instruction with no meaning yet; no arm raises it. Safe. -/
  | notModelled (mnemonic : String)
  /-- Raised by opening a session while one is active: one owner uses the block at a time (00_scope.md R5). Safe. -/
  | sessionActive
  deriving DecidableEq, Repr

/-- The block after reset (70_reset_and_hazards.md R105): every register zero, no FB byte with a value, no command
executed. -/
def Xfc.reset : Xfc where
  fb := []
  cmd := 0x00#8
  seq := 0x00#8
  len := 0x0000#16
  status := 0x00#8
  rseq := 0x00#8
  det := 0x0000#16
  outlen := 0x0000#16

/-- The machine after reset: the block after reset; no session, nothing pending: DESIGN CHOICE (log entry 3). -/
def State.reset : State where
  toXfc := Xfc.reset
  session := none
  wireOut := []
  inputs := []
  returned := none
  reported := none
  draws := 0

end Sys2Proof.Machine
end

