-- ==== Sys2Proof/Machine/Flags.lean ====
section
/-! DEFINITION. The block's only flags: the two fields of `STATUS` (10_state.md R11), and the error codes
(60_exceptions.md R90). -/

namespace Sys2Proof.Machine

/-- `STATUS.DONE`, bit 7 (10_state.md R11). -/
def statusDone (v : Byte) : Bool := v.getLsbD 7

/-- `STATUS.ERR`, bits 2:0 (10_state.md R11). -/
def statusErr (v : Byte) : BitVec 3 := v.extractLsb' 0 3

/-- The code of an error; 0 is `OK`, 6 and 7 are never produced (60_exceptions.md R90). -/
def errCode : Err → BitVec 3
  | .invalidPayload => 1#3
  | .frameError => 2#3
  | .checksumError => 3#3
  | .crcError => 4#3
  | .illegalCommand => 5#3

/-- `STATUS` with `DONE = 1`, bits 6:3 zero and the given `ERR` (10_state.md R11). -/
def statusWord (err : BitVec 3) : Byte := 1#1 ++ 0#4 ++ err

/-- The error of a detection mismatch, named by the mode (60_exceptions.md R93). -/
def detectionErr : Mode → Err
  | .checksum => .checksumError
  | .crc => .crcError

end Sys2Proof.Machine
end

