-- ==== Sys2Proof/Machine/Ops.lean ====
section
/-! DEFINITION. The named operations over memory and registers, and the completion of a command: normally, or by taking
an error. -/

namespace Sys2Proof.Machine

/-! ### Memory -/

/-- The canonical form: addresses strictly rising, none outside FB. -/
abbrev Memory.wf (m : Memory) : Prop :=
  m.Pairwise (fun x y => x.1 < y.1) ∧ ∀ c ∈ m, c.1 < Config.fbSize

/-- What is written at an address; `none` where nothing has been written since reset (10_state.md R7). -/
def Memory.byteAt? : Memory → Nat → Option Byte
  | [], _ => none
  | (k, b) :: t, a => if k = a then some b else Memory.byteAt? t a

/-- `FB[a]` read as the `d`-th draw: a byte nothing has written gives a fresh free value (20_memory.md R30; log
entry 1). -/
def Memory.read (m : Memory) (d a : Nat) : Byte := (m.byteAt? a).getD (Config.freeByte d)

/-- `FB[a +: n]`, lowest address first (00_scope.md section 5.3), the reads numbered from `d`. -/
def Memory.readRange (m : Memory) (d a : Nat) : Nat → List Byte
  | 0 => []
  | n + 1 => m.read d a :: Memory.readRange m (d + 1) (a + 1) n

/-- The bytes of a sequence at rising addresses. -/
def cells : Nat → List Byte → Memory
  | _, [] => []
  | a, b :: t => (a, b) :: cells (a + 1) t

/-- `MemWrite`: the bytes of a sequence to `FB[a], FB[a+1], ...` (00_scope.md section 5.3). -/
def Memory.writeRange (m : Memory) (a : Nat) (l : List Byte) : Memory :=
  m.filter (fun c => decide (c.1 < a)) ++ cells a l ++ m.filter (fun c => decide (a + l.length ≤ c.1))

/-- Every byte of `FB[a +: n]` has been written since reset: what the host owes a command (70_reset_and_hazards.md
R108). -/
def Memory.written (m : Memory) (a n : Nat) : Prop := ∀ k, a ≤ k → k < a + n → (m.byteAt? k).isSome = true

/-! ### Completion of a command (60_exceptions.md R96) -/

/-- `done(RSEQ = r, DET = d, OUTLEN = o)`: normal completion. -/
def Xfc.complete (r : Byte) (d o : Half) (b : Xfc) : Xfc :=
  { b with status := statusWord 0#3, rseq := r, det := d, outlen := o }

/-- `raise E`: taking an error. It writes the four result registers; nothing is saved and control goes nowhere. There
is no return from an error (60_exceptions.md R97): the next access simply follows. -/
def Xfc.raise (e : Err) (b : Xfc) : Xfc :=
  { b with status := statusWord (errCode e), rseq := 0x00#8, det := 0x0000#16, outlen := 0x0000#16 }

/-! ### The block in its environment -/

/-- The block runs in its environment: `f`, given the index of the next free value, gives the block afterwards and the
index then. Nothing outside the block changes. -/
def onBlock (f : Nat → Xfc → Xfc × Nat) (s : State) : State :=
  { s with toXfc := (f s.draws s.toXfc).1, draws := (f s.draws s.toXfc).2 }

/-- Normal completion of a command of the machine's block. -/
def complete (r : Byte) (d o : Half) (s : State) : State := { s with toXfc := s.toXfc.complete r d o }

/-- An error of a command of the machine's block. -/
def raise (e : Err) (s : State) : State := { s with toXfc := s.toXfc.raise e }

/-! ### The host's writes (20_memory.md R21, 30_encoding.md R47) -/

/-- `LOAD a, P`: the bytes of `P` to `FB[a], FB[a+1], ...`. -/
def load (a : Nat) (p : List Byte) (s : State) : State := { s with fb := s.fb.writeRange a p }

/-- The host writes bytes to its transport (43_session_environment.md R73). -/
def transmit (l : List Byte) (s : State) : State := { s with wireOut := s.wireOut ++ l }

/-- `SENDFRAME`: `FB[0], ..., FB[OUTLEN-1]` to the transport, in that order (30_encoding.md R47, 20_memory.md R31). -/
def sendFrame (s : State) : State :=
  transmit (s.fb.readRange s.draws 0 s.outlen.toNat) { s with draws := s.draws + s.outlen.toNat }

/-- Reset: every register to its reset value, no FB byte keeps a value, no command is executed; nothing of a session
is lost (70_reset_and_hazards.md R105). The counter of free values goes on, so that two resets need not leave the
same contents (10_state.md R7). -/
def resetBlock (s : State) : State := { s with toXfc := Xfc.reset }

end Sys2Proof.Machine
end

