-- ==== Sys2Proof/Machine/Illegal.lean ====
section
/-! DEFINITION. The reserved commands (30_encoding.md R44, 60_exceptions.md R94): each reads no operand, touches no FB
byte and ends in `IllegalCommand`. The don't-care bits of the value change nothing. -/

namespace Sys2Proof.Machine

/-- `ILLEGAL`, values 0x02 and 0x03: `OP = DET` with `SIZE = 1` (30_encoding.md R44). -/
def execIllegalDet (_ : BitVec 1) (s : State) : Host.Outcome State Fault Refusal := .next (raise .illegalCommand s)

/-- `ILLEGAL`, values 0x0C to 0x0F: `OP = 3` (30_encoding.md R44). -/
def execIllegalOp3 (_ : BitVec 2) (s : State) : Host.Outcome State Fault Refusal := .next (raise .illegalCommand s)

/-- `ILLEGAL`, values 0x10 to 0x1F (30_encoding.md R44). -/
def execIllegalBit4 (_ : BitVec 4) (s : State) : Host.Outcome State Fault Refusal := .next (raise .illegalCommand s)

/-- `ILLEGAL`, values 0x20 to 0x3F (30_encoding.md R44). -/
def execIllegalBit5 (_ : BitVec 5) (s : State) : Host.Outcome State Fault Refusal := .next (raise .illegalCommand s)

/-- `ILLEGAL`, values 0x40 to 0x7F (30_encoding.md R44). -/
def execIllegalBit6 (_ : BitVec 6) (s : State) : Host.Outcome State Fault Refusal := .next (raise .illegalCommand s)

/-- `ILLEGAL`, values 0x80 to 0xFF (30_encoding.md R44). -/
def execIllegalBit7 (_ : BitVec 7) (s : State) : Host.Outcome State Fault Refusal := .next (raise .illegalCommand s)

end Sys2Proof.Machine
end

