-- ==== Sys2Proof/Machine/Operands.lean ====
section
/-! DEFINITION. The operand forms: registers by number (20_memory.md R22), FB bytes by address (R21). A command's
operands are `LEN`, `SEQ` and a range of FB bytes, read by `Memory.readRange`. -/

namespace Sys2Proof.Machine

/-- `RDREG r`: the whole register at its own width; `none` for a number that does not exist (20_memory.md R22, R26). -/
def Xfc.readReg (b : Xfc) (r : Nat) : Option BusValue :=
  match r with
  | 0 => some (.byte b.cmd)
  | 1 => some (.byte b.seq)
  | 2 => some (.half b.len)
  | 3 => some (.byte b.status)
  | 4 => some (.byte b.rseq)
  | 5 => some (.half b.det)
  | 6 => some (.half b.outlen)
  | _ => none

/-- The number of the register a write names (10_state.md R6). -/
def RegWrite.number : RegWrite → Nat
  | .cmd _ => 0
  | .seq _ => 1
  | .len _ => 2
  | .status _ => 3
  | .rseq _ => 4
  | .det _ => 5
  | .outlen _ => 6
  | .reserved n _ => 7 + n

/-- `RDREG r` as a host access: it returns the register and changes nothing else (20_memory.md R22, R25). -/
def accessRdreg (r : Nat) (s : State) : Host.Outcome State Fault Refusal :=
  match s.toXfc.readReg r with
  | some v => .next { s with returned := some v }
  | none => .fault (.reservedRegister r)

/-- `RDFB a`: it returns `FB[a]` and changes nothing else (20_memory.md R21). The counter of free values advances, as
every read is a draw (R30). -/
def accessRdfb (a : Nat) (s : State) : Host.Outcome State Fault Refusal :=
  if a < Config.fbSize then
    .next { s with returned := some (.byte (s.fb.read s.draws a)), draws := s.draws + 1 }
  else .fault (.reservedFbAddress a)

/-- `WRFB a, b` (20_memory.md R21). -/
def accessWrfb (a : Nat) (b : Byte) (s : State) : Host.Outcome State Fault Refusal :=
  if a < Config.fbSize then .next (load a [b] s) else .fault (.reservedFbAddress a)

/-- `LOAD a, P` as one action (30_encoding.md R47): it writes nothing outside FB. An access past the end stops at the
first address that does not exist. -/
def accessLoad (a : Nat) (p : List Byte) (s : State) : Host.Outcome State Fault Refusal :=
  if p = [] then .next s
  else if a + p.length ≤ Config.fbSize then .next (load a p s)
  else .fault (.reservedFbAddress (max a Config.fbSize))

end Sys2Proof.Machine
end

