-- ==== Sys2Proof/Machine/Detector.lean ====
section
/-! DEFINITION. The Error Detector (42_error_detector.md): the functions `csum8`, `crc16`, `det`, and the two commands
that run it alone. -/

namespace Sys2Proof.Machine

/-! ### The functions -/

/-- The running sum of 42_error_detector.md R63 from a value `c`: `c = (c + b) mod 256` for each byte in order. -/
def csumFrom (c : Byte) : List Byte → Byte
  | [] => c
  | b :: t => csumFrom (c + b) t

/-- `csum8(P)` (42_error_detector.md R63). -/
def csum8 (p : List Byte) : Byte := csumFrom 0x00#8 p

/-- The generator polynomial, the x^16 term implied (42_error_detector.md R64). -/
def crcPoly : Half := 0x1021#16

/-- `n` shifts of the CRC register, each "if c[15] = 1: c = ((c << 1) and 0xFFFF) xor 0x1021 else: c = (c << 1) and
0xFFFF" (42_error_detector.md R65), and then what follows. -/
def crcShifts (next : Half → Half) : Nat → Half → Half
  | 0, c => next c
  | n + 1, c => if c.msb then crcShifts next n ((c <<< 1) ^^^ crcPoly) else crcShifts next n (c <<< 1)

/-- The register after the bytes of a sequence, from a value `c`: each byte into its high byte, then eight shifts
(42_error_detector.md R65). -/
def crcFrom (c : Half) : List Byte → Half
  | [] => c
  | b :: t => crcShifts (fun c => crcFrom c t) 8 (c ^^^ (b ++ 0x00#8))

/-- `crc16(P)`: initial value 0x0000, no reflection, no final XOR (42_error_detector.md R64, R65; the final XOR is
PRESUMED by the spec itself, 92 D25: log entry 10). -/
def crc16 (p : List Byte) : Half := crcFrom 0x0000#16 p

/-- `det(mode, P)`, the checksum zero-extended into 16 bits (42_error_detector.md R66, 10_state.md R13). -/
def det (m : Mode) (p : List Byte) : Half :=
  match m with
  | .checksum => 0x00#8 ++ csum8 p
  | .crc => crc16 p

/-- The detection code of a payload as a Block holds it (10_state.md R18, 42_error_detector.md R66). -/
def detectionCode (m : Mode) (p : List Byte) : DetectionCode :=
  match m with
  | .checksum => .checksum (csum8 p)
  | .crc => .crc (crc16 p)

/-- The trailer of a detection code: one checksum byte, or the CRC high byte first (30_encoding.md R40). -/
def trailerBytes (m : Mode) (code : Half) : List Byte :=
  match m with
  | .checksum => [loByte code]
  | .crc => [hiByte code, loByte code]

/-- The detection code a trailer holds (30_encoding.md R40). -/
def trailerValue (m : Mode) (t : List Byte) : Half :=
  match m with
  | .checksum => 0x00#8 ++ t.getD 0 0x00#8
  | .crc => half (t.getD 0 0x00#8) (t.getD 1 0x00#8)

/-! ### The commands -/

/-- `DET` in mode `m` on the block, its reads numbered from `n` (42_error_detector.md R67, R68). -/
def Xfc.detect (m : Mode) (n : Nat) (b : Xfc) : Xfc × Nat :=
  if 1024 < b.len.toNat then (b.raise .invalidPayload, n)
  else
    (b.complete 0x00#8 (Machine.det m (b.fb.readRange n payloadBase b.len.toNat)) 0x0000#16, n + b.len.toNat)

/-- `DET` in mode `m` on the machine's block. -/
def detect (m : Mode) (s : State) : State := onBlock (Xfc.detect m) s

/-- `DET.CS` (42_error_detector.md R67). -/
def execDetCs (s : State) : Host.Outcome State Fault Refusal := .next (detect .checksum s)

/-- `DET.CRC` (42_error_detector.md R68). -/
def execDetCrc (s : State) : Host.Outcome State Fault Refusal := .next (detect .crc s)

end Sys2Proof.Machine
end

