-- ==== Sys2Proof/Machine/Encoder.lean ====
section
/-! DEFINITION. The frame encoder (40_frame_encode.md): the function `encode` and the four `ENC` commands. -/

namespace Sys2Proof.Machine

/-- The padded payload `P ++ rep(0x1A, B - len(P))` (30_encoding.md R39). -/
def padded (z : BlockSize) (p : List Byte) : List Byte := p ++ List.replicate (bs z - p.length) bytePad

/-- `encode(seq, P, mode, size)`: the frame, or `InvalidPayload` (40_frame_encode.md R48). -/
def encodeBlock (q : Byte) (p : List Byte) (m : Mode) (z : BlockSize) : Except Err (List Byte) :=
  if bs z < p.length then .error .invalidPayload
  else .ok ([marker z, q, 255#8 - q] ++ padded z p ++ trailerBytes m (det m (padded z p)))

/-- The bytes of a detection code on the wire: the checksum byte, or the CRC high byte first (30_encoding.md R40). -/
def codeBytes : DetectionCode → List Byte
  | .checksum b => [b]
  | .crc c => [hiByte c, loByte c]

/-- The bytes of a Block on the wire (30_encoding.md R34). -/
def blockBytes (b : Block) : List Byte :=
  [marker b.startMarker, b.sequence, b.complement] ++ b.payload ++ codeBytes b.detectionCode

/-- A structurally valid Block: "payload length is exactly the negotiated block size; sequence and its complement must
sum to 255" (10_state.md R18). -/
def blockValid (b : Block) : Prop :=
  b.payload.length = bs b.startMarker ∧ b.sequence.toNat + b.complement.toNat = 255

/-- FB after the header and the padding of an `ENC`, before its trailer (40_frame_encode.md R49). -/
def filledFb (z : BlockSize) (b : Xfc) : Memory :=
  (b.fb.writeRange 0 [marker z, b.seq, 255#8 - b.seq]).writeRange (payloadBase + b.len.toNat)
    (List.replicate (bs z - b.len.toNat) bytePad)

/-- `ENC` with bits `SIZE = z`, `MODE = m` on the block, its reads numbered from `n` (40_frame_encode.md R49): the
length is judged before any FB access; then the header, the padding, the code over the payload as it then stands, and
the trailer. -/
def Xfc.encode (z : BlockSize) (m : Mode) (n : Nat) (b : Xfc) : Xfc × Nat :=
  if bs z < b.len.toNat then (b.raise .invalidPayload, n)
  else
    let code := Machine.det m ((filledFb z b).readRange n payloadBase (bs z))
    (Xfc.complete 0x00#8 code (BitVec.ofNat 16 (flen z m))
      { b with fb := (filledFb z b).writeRange (payloadBase + bs z) (trailerBytes m code) }, n + bs z)

/-- `ENC` on the machine's block. -/
def encodeCommand (z : BlockSize) (m : Mode) (s : State) : State := onBlock (Xfc.encode z m) s

/-- `ENC.128.CS` (40_frame_encode.md R50). -/
def execEnc128Cs (s : State) : Host.Outcome State Fault Refusal := .next (encodeCommand .b128 .checksum s)

/-- `ENC.128.CRC` (40_frame_encode.md R51). -/
def execEnc128Crc (s : State) : Host.Outcome State Fault Refusal := .next (encodeCommand .b128 .crc s)

/-- `ENC.1K.CS` (40_frame_encode.md R52). -/
def execEnc1kCs (s : State) : Host.Outcome State Fault Refusal := .next (encodeCommand .b1k .checksum s)

/-- `ENC.1K.CRC` (40_frame_encode.md R53). -/
def execEnc1kCrc (s : State) : Host.Outcome State Fault Refusal := .next (encodeCommand .b1k .crc s)

end Sys2Proof.Machine
end

