-- ==== Sys2Proof/Machine/Decoder.lean ====
section
/-! DEFINITION. The frame decoder (41_frame_decode.md): the function `decode` and the four `DEC` commands. -/

namespace Sys2Proof.Machine

/-- `decode(raw, mode, size)`: the sequence and the payload, or the first error in the order length, marker,
complement, detection code (41_frame_decode.md R54, 60_exceptions.md R95). -/
def decodeBlock (raw : List Byte) (m : Mode) (z : BlockSize) : Except Err (Byte × List Byte) :=
  if raw.length ≠ flen z m then .error .frameError
  else if raw.getD 0 0x00#8 ≠ marker z then .error .frameError
  else if (raw.getD 1 0x00#8).toNat + (raw.getD 2 0x00#8).toNat ≠ 255 then .error .frameError
  else if det m ((raw.drop payloadBase).take (bs z)) ≠ trailerValue m (raw.drop (payloadBase + bs z)) then
    .error (detectionErr m)
  else .ok (raw.getD 1 0x00#8, (raw.drop payloadBase).take (bs z))

/-- `DEC` with bits `SIZE = z`, `MODE = m` on the block, its reads numbered from `n` (41_frame_decode.md R55). FB is
never written. The reads, in the order of the rule's pseudocode, are the frame's bytes and then `FB[1]` once more for
`RSEQ`. -/
def Xfc.decode (z : BlockSize) (m : Mode) (n : Nat) (b : Xfc) : Xfc × Nat :=
  if b.len.toNat ≠ flen z m then (b.raise .frameError, n)
  else if b.fb.read n 0 ≠ marker z then (b.raise .frameError, n + flen z m + 1)
  else if (b.fb.read (n + 1) 1).toNat + (b.fb.read (n + 2) 2).toNat ≠ 255 then
    (b.raise .frameError, n + flen z m + 1)
  else
    let code := Machine.det m (b.fb.readRange (n + payloadBase) payloadBase (bs z))
    if code ≠ trailerValue m (b.fb.readRange (n + payloadBase + bs z) (payloadBase + bs z) (tl m)) then
      (b.raise (detectionErr m), n + flen z m + 1)
    else (b.complete (b.fb.read (n + flen z m) 1) code (BitVec.ofNat 16 (bs z)), n + flen z m + 1)

/-- `DEC` on the machine's block. -/
def decodeCommand (z : BlockSize) (m : Mode) (s : State) : State := onBlock (Xfc.decode z m) s

/-- `DEC.128.CS` (41_frame_decode.md R56). -/
def execDec128Cs (s : State) : Host.Outcome State Fault Refusal := .next (decodeCommand .b128 .checksum s)

/-- `DEC.128.CRC` (41_frame_decode.md R57). -/
def execDec128Crc (s : State) : Host.Outcome State Fault Refusal := .next (decodeCommand .b128 .crc s)

/-- `DEC.1K.CS` (41_frame_decode.md R58). -/
def execDec1kCs (s : State) : Host.Outcome State Fault Refusal := .next (decodeCommand .b1k .checksum s)

/-- `DEC.1K.CRC` (41_frame_decode.md R59). -/
def execDec1kCrc (s : State) : Host.Outcome State Fault Refusal := .next (decodeCommand .b1k .crc s)

end Sys2Proof.Machine
end

