-- ==== Sys2Proof/Machine/Session.lean ====
section
/-! DEFINITION. The host around the block: the shorthands it writes (30_encoding.md R47), and the session's Retry
Controller, Sender State Machine and Receiver State Machine (43_session_environment.md). Nothing here is in the block;
the block is reached only by loading FB, writing registers and commands. -/

namespace Sys2Proof.Machine

/-! ### The shorthands -/

/-- `ENCODE.E.M s, P`: `LOAD 3, P`; `WRREG SEQ, s`; `WRREG LEN, len(P)`; `ENC.E.M`. A `P` longer than 1026 bytes cannot
be presented to the block and the host reports `InvalidPayload` itself (30_encoding.md R47). -/
def hostEncode (z : BlockSize) (m : Mode) (q : Byte) (p : List Byte) (s : State) : State :=
  if 1026 < p.length then { s with reported := some .invalidPayload }
  else
    encodeCommand z m
      { load payloadBase p s with seq := q, len := BitVec.ofNat 16 p.length, cmd := cmdByte opEnc z m }

/-- `DECODE.E.M R`: `LOAD 0, R`; `WRREG LEN, len(R)`; `DEC.E.M`. An `R` longer than 1029 bytes is a `FrameError` the
host reports itself (30_encoding.md R47). -/
def hostDecode (z : BlockSize) (m : Mode) (r : List Byte) (s : State) : State :=
  if Config.fbSize < r.length then { s with reported := some .frameError }
  else decodeCommand z m { load 0 r s with len := BitVec.ofNat 16 r.length, cmd := cmdByte opDec z m }

/-- `DETECT.M P`: `LOAD 3, P`; `WRREG LEN, len(P)`; `DET.M` (30_encoding.md R47). It requires `len(P) <= 1024`: with
1025 or 1026 bytes the command itself ends in `InvalidPayload`, beyond that the `LOAD` leaves FB. -/
def hostDetect (m : Mode) (p : List Byte) (s : State) : Host.Outcome State Fault Refusal :=
  if payloadBase + p.length ≤ Config.fbSize then
    .next (detect m
      { load payloadBase p s with len := BitVec.ofNat 16 p.length, cmd := cmdByte opDet .b128 m })
  else .fault (.reservedFbAddress Config.fbSize)

/-- A shorthand as one action of the host (30_encoding.md R47). -/
def accessShorthand (h : Shorthand) (s : State) : Host.Outcome State Fault Refusal :=
  match h with
  | .load a p => accessLoad a p s
  | .encode z m q p => .next (hostEncode z m q p s)
  | .decode z m r => .next (hostDecode z m r s)
  | .detect m p => hostDetect m p s
  | .sendframe => .next (sendFrame s)

/-- `LOAD a, P` written out: `WRFB a+i, P[i]`, ascending (30_encoding.md R47). -/
def loadAccesses : Nat → List Byte → List Input
  | _, [] => []
  | a, b :: t => .wrfb a b :: loadAccesses (a + 1) t

/-- The expansion of a shorthand into the accesses of 30_encoding.md R46, as R47 writes it out. `SENDFRAME` passes
bytes to the transport and has no expansion into accesses of the block alone. -/
def expandShorthand : Shorthand → List Input
  | .load a p => loadAccesses a p
  | .encode z m q p =>
    loadAccesses payloadBase p ++
      [.wrreg (.seq q), .wrreg (.len (BitVec.ofNat 16 p.length)), .wrreg (.cmd (cmdByte opEnc z m))]
  | .decode z m r =>
    loadAccesses 0 r ++ [.wrreg (.len (BitVec.ofNat 16 r.length)), .wrreg (.cmd (cmdByte opDec z m))]
  | .detect m p =>
    loadAccesses payloadBase p ++
      [.wrreg (.len (BitVec.ofNat 16 p.length)), .wrreg (.cmd (cmdByte opDet .b128 m))]
  | .sendframe => [.shorthand .sendframe]

/-! ### The session -/

/-- The session is in state `c`. -/
def setSession (c : Session) (s : State) : State := { s with session := some c }

/-- The session ends (60_exceptions.md R99); an unfinished block is dropped. -/
def finish (c : Session) (e : SessionEnd) (s : State) : State :=
  setSession { c with phase := .ended e, partialBlock := [], cancelPending := false } s

/-- Whether a session is active: opened and not ended. -/
def sessionActive (s : State) : Bool :=
  match s.session with
  | some c => match c.phase with
    | .ended _ => false
    | .awaitHandshake => true
    | .awaitAck => true
    | .awaitEotAck => true
    | .init => true
    | .awaitBlock => true
  | none => false

/-! ### Sender (43_session_environment.md section 4) -/

/-- `SendEOT`: transmit EOT and go to `AwaitEotAck`, under a budget of its own (R80). -/
def sendEot (c : Session) (s : State) : State :=
  if c.params.retryLimit = 0 then finish c .eotNotAcked s
  else transmit [byteEot] (setSession { c with phase := .awaitEotAck, attempts := 0, lastResponse := none } s)

/-- `SendBlock`: pull the next chunk, encode it in the session's size and mode, transmit the frame, go to `AwaitAck`
(R78). -/
def sendBlock (c : Session) (s : State) : State :=
  if c.params.retryLimit = 0 then finish c (.retriesExhausted c.sequence none) s
  else
    sendFrame (hostEncode c.blockSize c.mode c.sequence (c.source.take (bs c.blockSize))
      (setSession { c with phase := .awaitAck, attempts := 0, lastResponse := none } s))

/-- Between blocks: an external cancellation is honoured (R88); else the next block, or EOT when the source is
exhausted (R79). -/
def nextBlock (c : Session) (s : State) : State :=
  if c.cancelPending then finish c .externallyCancelled s
  else if c.source = [] then sendEot c s
  else sendBlock c s

/-- The handshake byte arrives: the mode is chosen and `current_sequence = 1` (R77, R75). An empty source is sent as
one block or as none (R78, U12). -/
def onHandshake (m : Mode) (c : Session) (s : State) : State :=
  let c' : Session := { c with mode := m, sequence := 0x01#8 }
  if c.source = [] ∧ c.params.emptyAsBlock = true then sendBlock c' s else nextBlock c' s

/-- ACK in `AwaitAck`: increment `current_sequence` modulo 256 and advance the source cursor (R79). -/
def onAck (c : Session) (s : State) : State :=
  nextBlock
    { c with
      sequence := c.sequence + 1#8
      source := c.source.drop (bs c.blockSize)
      bytesTransferred := c.bytesTransferred + (c.source.take (bs c.blockSize)).length } s

/-- NAK, any other byte or a timeout in `AwaitAck`: one attempt is spent; the same frame, still in FB, is sent again, or
the budget is exhausted (R79, R76). -/
def onNoAck (response : Option Byte) (c : Session) (s : State) : State :=
  let seen := response.or c.lastResponse
  if c.params.retryLimit ≤ c.attempts + 1 then finish c (.retriesExhausted c.sequence seen) s
  else sendFrame (setSession { c with attempts := c.attempts + 1, lastResponse := seen } s)

/-- NAK or a timeout in `AwaitEotAck`: EOT again, or the budget is exhausted, a soft failure (R80). -/
def onNoEotAck (c : Session) (s : State) : State :=
  if c.params.retryLimit ≤ c.attempts + 1 then finish c .eotNotAcked s
  else transmit [byteEot] (setSession { c with attempts := c.attempts + 1 } s)

/-- A timeout in `AwaitHandshake`: the wait is retried under the budget (R77). -/
def onNoHandshake (c : Session) (s : State) : State :=
  if c.params.retryLimit ≤ c.attempts + 1 then finish c .noHandshake s
  else setSession { c with attempts := c.attempts + 1 } s

/-- A byte in `AwaitHandshake` (R77, R85). -/
def handshakeByte (b : Byte) (c : Session) (s : State) : State :=
  match ctl b with
  | .nak => onHandshake .checksum c s
  | .crcreq => onHandshake .crc c s
  | .can => finish c .peerCancelled s
  | .soh => s
  | .stx => s
  | .eot => s
  | .ack => s
  | .other _ => s

/-- A byte in `AwaitAck` (R79, R85): ACK, CAN, and "Any other byte ⇒ treated as NAK". -/
def ackByte (b : Byte) (c : Session) (s : State) : State :=
  match ctl b with
  | .ack => onAck c s
  | .can => finish c .peerCancelled s
  | .nak => onNoAck (some b) c s
  | .soh => onNoAck (some b) c s
  | .stx => onNoAck (some b) c s
  | .eot => onNoAck (some b) c s
  | .crcreq => onNoAck (some b) c s
  | .other _ => onNoAck (some b) c s

/-- A reply to EOT for which XFS names no action: the session's parameter says which (R80; log entry 16). -/
def strayEotReply (c : Session) (s : State) : State :=
  if c.params.eotStrayResends then onNoEotAck c s else s

/-- A byte in `AwaitEotAck` (R80, R85). -/
def eotAckByte (b : Byte) (c : Session) (s : State) : State :=
  match ctl b with
  | .ack => finish c .done s
  | .can => finish c .peerCancelled s
  | .nak => onNoEotAck c s
  | .soh => strayEotReply c s
  | .stx => strayEotReply c s
  | .eot => strayEotReply c s
  | .crcreq => strayEotReply c s
  | .other _ => strayEotReply c s

/-! ### Receiver (43_session_environment.md section 5) -/

/-- The handshake: send 'C', or NAK after the fallback threshold, until the budget is exhausted (R81). The mode of the
session is that of the byte last sent (R75). -/
def sendHandshake (c : Session) (s : State) : State :=
  if c.params.retryLimit ≤ c.attempts then finish c .noSender s
  else if c.attempts < c.params.crcFallback then
    transmit [byteCrcreq] (setSession { c with mode := .crc, attempts := c.attempts + 1 } s)
  else
    transmit [byteNak] (setSession { c with mode := .checksum, attempts := c.attempts + 1 } s)

/-- Between blocks an external cancellation is honoured (R88). -/
def afterBlock (c : Session) (s : State) : State :=
  if c.cancelPending then finish c .externallyCancelled s else setSession c s

/-- A failed attempt in `AwaitBlock`: one attempt of the per-block budget is spent, and exhausting it aborts (R83). With a
`retry_limit` of 1 the first failure exhausts the budget, and R83's "exhausting it aborts" wins over 60_exceptions.md
R92's "never fatal on first occurrence": DESIGN CHOICE (log entry 19). -/
def failAttempt (kind : FailKind) (c : Session) (s : State) : State :=
  if c.params.retryLimit ≤ c.attempts + 1 then finish c (.tooManyErrors c.sequence kind) s
  else afterBlock { c with attempts := c.attempts + 1 } s

/-- The block is refused: send NAK and spend an attempt (R83). -/
def refuseBlock (kind : FailKind) (c : Session) (s : State) : State := failAttempt kind c (transmit [byteNak] s)

/-- The payload as delivered: whole blocks, unless the receiver is length-aware and this is the final block (R83,
R86). -/
def delivered (c : Session) (payload : List Byte) : List Byte :=
  match c.params.declaredSize with
  | none => payload
  | some n => payload.take (n - c.bytesTransferred)

/-- The block is accepted: append the payload, send ACK, increment `expected_sequence` (R83). -/
def acceptBlock (payload : List Byte) (c : Session) (s : State) : State :=
  afterBlock
    { c with
      sink := c.sink ++ delivered c payload
      bytesTransferred := c.bytesTransferred + (delivered c payload).length
      sequence := c.sequence + 1#8
      attempts := 0 }
    (transmit [byteAck] s)

/-- The error a status reports (60_exceptions.md R90), of the three a `DEC` can end in. -/
def decodeErrOf (status : Byte) : Err :=
  if status = statusWord (errCode .checksumError) then .checksumError
  else if status = statusWord (errCode .crcError) then .crcError
  else .frameError

/-- Judging a decoded block by `STATUS`, `RSEQ` and `OUTLEN` (R83): accept, acknowledge a duplicate without appending,
or refuse. -/
def judgeBlock (c : Session) (s : State) : State :=
  if s.status = statusWord 0#3 then
    if s.rseq = c.sequence then
      acceptBlock (s.fb.readRange s.draws payloadBase s.outlen.toNat) c
        { s with draws := s.draws + s.outlen.toNat }
    else if s.rseq = c.sequence - 1#8 then afterBlock c (transmit [byteAck] s)
    else refuseBlock (.sequence s.rseq) c s
  else refuseBlock (.block (decodeErrOf s.status)) c s

/-- A whole block has been read: store it at `FB[0 ..]`, set `LEN`, issue the `DEC` of the session's size and mode,
and judge (R82, R83). The first block's marker sets the size where none is set (D31). Bytes that do not fit FB are a
`FrameError` the host reports itself (30_encoding.md R47). -/
def blockRead (bytes : List Byte) (c : Session) (s : State) : State :=
  let z := if c.sizeFixed then c.blockSize else sizeOfMarker (bytes.getD 0 0x00#8)
  let c' : Session := { c with partialBlock := [], blockSize := z, sizeFixed := true }
  if Config.fbSize < bytes.length then refuseBlock (.block .frameError) c' (hostDecode z c.mode bytes s)
  else judgeBlock c' (hostDecode z c.mode bytes s)

/-- A further byte of a block: "flen(size_of(b), mode) - 1 further bytes" (R82). Whatever its value it is data (R32). -/
def blockByte (b : Byte) (c : Session) (s : State) : State :=
  let bytes := c.partialBlock ++ [b]
  if bytes.length < flen (sizeOfMarker (bytes.getD 0 0x00#8)) c.mode then
    setSession { c with partialBlock := bytes } s
  else blockRead bytes c s

/-- The first byte in `AwaitBlock` (R82, R84, R85). -/
def firstByte (b : Byte) (c : Session) (s : State) : State :=
  match ctl b with
  | .soh => setSession { c with partialBlock := [b] } s
  | .stx => setSession { c with partialBlock := [b] } s
  | .eot => finish c .done (transmit [byteAck] s)
  | .can => finish c .peerCancelled s
  | .ack => if c.params.strayNaks then refuseBlock (.stray b) c s else s
  | .nak => if c.params.strayNaks then refuseBlock (.stray b) c s else s
  | .crcreq => if c.params.strayNaks then refuseBlock (.stray b) c s else s
  | .other _ => if c.params.strayNaks then refuseBlock (.stray b) c s else s

/-- A byte in `Init`: the first byte of a block ends the handshake (R81), EOT and CAN are as in `AwaitBlock` (R82), and
any other byte leaves the handshake going. -/
def initByte (b : Byte) (c : Session) (s : State) : State :=
  match ctl b with
  | .soh => setSession { c with phase := .awaitBlock, attempts := 0, partialBlock := [b] } s
  | .stx => setSession { c with phase := .awaitBlock, attempts := 0, partialBlock := [b] } s
  | .eot => finish c .done (transmit [byteAck] s)
  | .can => finish c .peerCancelled s
  | .ack => s
  | .nak => s
  | .crcreq => s
  | .other _ => s

/-- A read times out in `AwaitBlock`, part way or not: the bytes read are dropped and an attempt is spent (R82, R76). -/
def blockTimeout (c : Session) (s : State) : State :=
  let c' : Session := { c with partialBlock := [] }
  if c.params.timeoutNaks then refuseBlock .timeout c' s else failAttempt .timeout c' s

/-! ### Events -/

/-- One byte is read from the transport. With no session nobody reads, and an ended session reads nothing more (R85:
"zero further reads/writes"). -/
def receiveByte (b : Byte) (s : State) : State :=
  match s.session with
  | none => s
  | some c =>
    match c.phase with
    | .awaitHandshake => handshakeByte b c s
    | .awaitAck => ackByte b c s
    | .awaitEotAck => eotAckByte b c s
    | .init => initByte b c s
    | .awaitBlock => if c.partialBlock = [] then firstByte b c s else blockByte b c s
    | .ended _ => s

/-- Whether a sender waits for the handshake. -/
def awaitsHandshake (s : State) : Bool :=
  match s.session with
  | some c => c.phase == .awaitHandshake
  | none => false

/-- Whether a byte is a handshake byte, NAK or 'C' (R75). -/
def isHandshake (b : Byte) : Bool := ctl b == .nak || ctl b == .crcreq

/-- The bytes of one delivery are read one after another (R73: "must not silently coalesce distinct control bytes").
"Repeated handshake bytes before any block is sent are tolerated" (R77): the bytes of a delivery have all arrived before
the host acts on the first, so of several handshake bytes in one delivery that finds a sender waiting for the handshake
the last one counts, which is the byte the receiver last sent and so its mode (R75; DESIGN CHOICE, log entry 27). -/
def receive : List Byte → State → State
  | [], s => s
  | b :: t, s =>
    if awaitsHandshake s && isHandshake b && t.any isHandshake then receive t s else receive t (receiveByte b s)

/-- The read in hand times out, or the handshake interval ends (R76, R77, R79 to R82). -/
def onTimeout (s : State) : State :=
  match s.session with
  | none => s
  | some c =>
    match c.phase with
    | .awaitHandshake => onNoHandshake c s
    | .awaitAck => onNoAck none c s
    | .awaitEotAck => onNoEotAck c s
    | .init => sendHandshake c s
    | .awaitBlock => blockTimeout c s
    | .ended _ => s

/-- External cancellation, "checked between blocks, not mid-block" (R88): at once where no block is in hand, else when
the block in hand is done. -/
def onCancel (s : State) : State :=
  match s.session with
  | none => s
  | some c =>
    match c.phase with
    | .awaitHandshake => finish c .externallyCancelled s
    | .awaitAck => setSession { c with cancelPending := true } s
    | .awaitEotAck => finish c .externallyCancelled s
    | .init => finish c .externallyCancelled s
    | .awaitBlock =>
      if c.partialBlock = [] then finish c .externallyCancelled s
      else setSession { c with cancelPending := true } s
    | .ended _ => s

/-- A session as it is created (R89): `current_sequence` and `expected_sequence` are 1 (R87). -/
def newSession (r : Role) (p : Params) (z : BlockSize) (fixed : Bool) (source : List Byte) (ph : Phase) : Session where
  role := r
  params := p
  mode := .checksum
  blockSize := z
  sizeFixed := fixed
  sequence := 0x01#8
  bytesTransferred := 0
  phase := ph
  attempts := 0
  source := source
  sink := []
  partialBlock := []
  lastResponse := none
  cancelPending := false

/-- A sender's session is opened: it waits for the handshake (R77). -/
def openSender (p : Params) (z : BlockSize) (source : List Byte) (s : State) :
    Host.Outcome State Fault Refusal :=
  if sessionActive s then .refused .sessionActive
  else if p.retryLimit = 0 then
    .next (finish (newSession .sender p z true source .awaitHandshake) .noHandshake s)
  else .next (setSession (newSession .sender p z true source .awaitHandshake) s)

/-- A receiver's session is opened: it sends its first handshake byte (R81). -/
def openReceiver (p : Params) (z : Option BlockSize) (s : State) : Host.Outcome State Fault Refusal :=
  if sessionActive s then .refused .sessionActive
  else .next (sendHandshake (newSession .receiver p (z.getD .b128) z.isSome [] .init) s)

end Sys2Proof.Machine
end

