-- ==== Sys2Proof/Machine/Wire.lean ====
section
/-! DEFINITION. The rows of the table that stand on the wire: the four frame formats (30_encoding.md R35), the seven
control bytes (R32) and the pad byte (R39). -/

namespace Sys2Proof.Machine

/-- A whole frame arrives. Without a session the host presents it to the block by `DECODE.E.M` of its own format
(30_encoding.md R47, 20_memory.md R31; log entry 8); in a session its bytes are read by the session (43 R82). -/
def frameArrives (z : BlockSize) (m : Mode) (bytes : List Byte) (s : State) : State :=
  match s.session with
  | none => hostDecode z m bytes s
  | some _ => receive bytes s

/-- `F128CS` (30_encoding.md R35). -/
def execF128Cs (q c : Byte) (p : List Byte) (d : Byte) (s : State) : Host.Outcome State Fault Refusal :=
  .next (frameArrives .b128 .checksum (encode (.f128Cs q c p d)) s)

/-- `F128CRC` (30_encoding.md R35). -/
def execF128Crc (q c : Byte) (p : List Byte) (d : Half) (s : State) : Host.Outcome State Fault Refusal :=
  .next (frameArrives .b128 .crc (encode (.f128Crc q c p d)) s)

/-- `F1KCS` (30_encoding.md R35). -/
def execF1kCs (q c : Byte) (p : List Byte) (d : Byte) (s : State) : Host.Outcome State Fault Refusal :=
  .next (frameArrives .b1k .checksum (encode (.f1kCs q c p d)) s)

/-- `F1KCRC` (30_encoding.md R35). -/
def execF1kCrc (q c : Byte) (p : List Byte) (d : Half) (s : State) : Host.Outcome State Fault Refusal :=
  .next (frameArrives .b1k .crc (encode (.f1kCrc q c p d)) s)

/-- `SOH` arrives: the first byte of a 128-byte block (30_encoding.md R32, 43_session_environment.md R82). -/
def execSoh (s : State) : Host.Outcome State Fault Refusal := .next (receiveByte byteSoh s)

/-- `STX` arrives: the first byte of a 1024-byte block (30_encoding.md R32, 43_session_environment.md R82). -/
def execStx (s : State) : Host.Outcome State Fault Refusal := .next (receiveByte byteStx s)

/-- `EOT` arrives (30_encoding.md R32, 43_session_environment.md R84). -/
def execEot (s : State) : Host.Outcome State Fault Refusal := .next (receiveByte byteEot s)

/-- `ACK` arrives (30_encoding.md R32, 43_session_environment.md R79, R80). -/
def execAck (s : State) : Host.Outcome State Fault Refusal := .next (receiveByte byteAck s)

/-- `NAK` arrives (30_encoding.md R32, 43_session_environment.md R77, R79, R80). -/
def execNak (s : State) : Host.Outcome State Fault Refusal := .next (receiveByte byteNak s)

/-- `CAN` arrives (30_encoding.md R32, 43_session_environment.md R85). -/
def execCan (s : State) : Host.Outcome State Fault Refusal := .next (receiveByte byteCan s)

/-- `CRCREQ`, 'C', arrives (30_encoding.md R32, 43_session_environment.md R77). -/
def execCrcreq (s : State) : Host.Outcome State Fault Refusal := .next (receiveByte byteCrcreq s)

/-- The pad byte arrives alone: "never recognised on receipt", it is `Other(0x1A)` (30_encoding.md R33, R39). -/
def execPad (s : State) : Host.Outcome State Fault Refusal := .next (receiveByte bytePad s)

end Sys2Proof.Machine
end

