-- ==== Sys2Proof/Machine/Dispatch.lean ====
section
/-! DEFINITION. One arm per constructor of Instr. -/

namespace Sys2Proof.Machine

/-- The meaning of each row of the opcode table. -/
def exec (i : Instr) (s : State) : Host.Outcome State Fault Refusal :=
  match i with
  | .detCs => Sys2Proof.Machine.execDetCs s
  | .detCrc => Sys2Proof.Machine.execDetCrc s
  | .enc128Cs => Sys2Proof.Machine.execEnc128Cs s
  | .enc128Crc => Sys2Proof.Machine.execEnc128Crc s
  | .enc1kCs => Sys2Proof.Machine.execEnc1kCs s
  | .enc1kCrc => Sys2Proof.Machine.execEnc1kCrc s
  | .dec128Cs => Sys2Proof.Machine.execDec128Cs s
  | .dec128Crc => Sys2Proof.Machine.execDec128Crc s
  | .dec1kCs => Sys2Proof.Machine.execDec1kCs s
  | .dec1kCrc => Sys2Proof.Machine.execDec1kCrc s
  | .illegalDet m => Sys2Proof.Machine.execIllegalDet m s
  | .illegalOp3 sm => Sys2Proof.Machine.execIllegalOp3 sm s
  | .illegalBit4 low => Sys2Proof.Machine.execIllegalBit4 low s
  | .illegalBit5 low => Sys2Proof.Machine.execIllegalBit5 low s
  | .illegalBit6 low => Sys2Proof.Machine.execIllegalBit6 low s
  | .illegalBit7 low => Sys2Proof.Machine.execIllegalBit7 low s
  | .f128Cs q c p d => Sys2Proof.Machine.execF128Cs q c p d s
  | .f128Crc q c p d => Sys2Proof.Machine.execF128Crc q c p d s
  | .f1kCs q c p d => Sys2Proof.Machine.execF1kCs q c p d s
  | .f1kCrc q c p d => Sys2Proof.Machine.execF1kCrc q c p d s
  | .soh => Sys2Proof.Machine.execSoh s
  | .stx => Sys2Proof.Machine.execStx s
  | .eot => Sys2Proof.Machine.execEot s
  | .ack => Sys2Proof.Machine.execAck s
  | .nak => Sys2Proof.Machine.execNak s
  | .can => Sys2Proof.Machine.execCan s
  | .crcreq => Sys2Proof.Machine.execCrcreq s
  | .pad => Sys2Proof.Machine.execPad s

end Sys2Proof.Machine
end

