-- ==== Sys2Proof/Machine/Fetch.lean ====
section
/-! DEFINITION. What one input does: the bodies `step` calls. -/

namespace Sys2Proof.Machine

/-- `WRREG r, v` (20_memory.md R22): `SEQ` and `LEN` take the value; `CMD` takes it and the command it selects is
executed to completion; a write to a result register is ignored; a number that does not exist faults. -/
def accessWrreg (w : RegWrite) (s : State) : Host.Outcome State Fault Refusal :=
  match w with
  | .cmd v => exec (decodeCmd v) { s with cmd := v }
  | .seq v => .next { s with seq := v }
  | .len v => .next { s with len := v }
  | .status _ => .next s
  | .rseq _ => .next s
  | .det _ => .next s
  | .outlen _ => .next s
  | .reserved n _ => .fault (.reservedRegister (7 + n))

/-- The command a `CMD` write selects, run on the block alone, its reads numbered from `n` (10_state.md R8,
30_encoding.md R43, R44). What is none of the ten legal commands is reserved. -/
def Xfc.command (v : Byte) (n : Nat) (b : Xfc) : Xfc × Nat :=
  match decodeCmd v with
  | .detCs => b.detect .checksum n
  | .detCrc => b.detect .crc n
  | .enc128Cs => b.encode .b128 .checksum n
  | .enc128Crc => b.encode .b128 .crc n
  | .enc1kCs => b.encode .b1k .checksum n
  | .enc1kCrc => b.encode .b1k .crc n
  | .dec128Cs => b.decode .b128 .checksum n
  | .dec128Crc => b.decode .b128 .crc n
  | .dec1kCs => b.decode .b1k .checksum n
  | .dec1kCrc => b.decode .b1k .crc n
  | _ => (b.raise .illegalCommand, n)

/-- The step of the block alone (10_state.md R6): its state is exactly the record `Xfc`, and the parameters are the
host's access and the index `n` from which free values are drawn for FB bytes nothing has written. It gives the block
afterwards, the next index, and what a read returned. -/
def Xfc.access (a : Access) (n : Nat) (b : Xfc) : Except Fault (Xfc × Nat × Option BusValue) :=
  match a with
  | .rdfb a => if a < Config.fbSize then .ok (b, n + 1, some (.byte (b.fb.read n a))) else .error (.reservedFbAddress a)
  | .wrfb a v =>
    if a < Config.fbSize then .ok ({ b with fb := b.fb.writeRange a [v] }, n, none) else .error (.reservedFbAddress a)
  | .rdreg r =>
    match b.readReg r with
    | some v => .ok (b, n, some v)
    | none => .error (.reservedRegister r)
  | .wrreg (.cmd v) => .ok ((Xfc.command v n { b with cmd := v }).1, (Xfc.command v n { b with cmd := v }).2, none)
  | .wrreg (.seq v) => .ok ({ b with seq := v }, n, none)
  | .wrreg (.len v) => .ok ({ b with len := v }, n, none)
  | .wrreg (.status _) => .ok (b, n, none)
  | .wrreg (.rseq _) => .ok (b, n, none)
  | .wrreg (.det _) => .ok (b, n, none)
  | .wrreg (.outlen _) => .ok (b, n, none)
  | .wrreg (.reserved k _) => .error (.reservedRegister (7 + k))
  | .reset => .ok (Xfc.reset, n, none)

/-- Bytes arrive on the wire. Bytes that are a row of the table (a control byte, the pad byte, a whole frame) are that
instruction; any others are read byte by byte (43_session_environment.md R73). -/
def wireArrives (bytes : List Byte) (s : State) : Host.Outcome State Fault Refusal :=
  match decodeWire bytes with
  | .ok i => exec i s
  | .error _ => .next (receive bytes s)

/-- One input (10_state.md R6: the host's action is a parameter of a step). -/
def act (i : Input) (s : State) : Host.Outcome State Fault Refusal :=
  match i with
  | .rdfb a => accessRdfb a s
  | .wrfb a b => accessWrfb a b s
  | .rdreg r => accessRdreg r s
  | .wrreg w => accessWrreg w s
  | .shorthand h => accessShorthand h s
  | .reset => .next (resetBlock s)
  | .openSender p z source => openSender p z source s
  | .openReceiver p z => openReceiver p z s
  | .wire bytes => wireArrives bytes s
  | .timeout => .next (onTimeout s)
  | .cancel => .next (onCancel s)

/-- The input that brings a table word in: a write of the byte to `CMD`, or the delivery of a frame's bytes. -/
def fetchInput (nbits w : Nat) : Input :=
  if nbits = 8 then .wrreg (.cmd (BitVec.ofNat 8 w)) else .wire (wordBytes (nbits / 8) w)

end Sys2Proof.Machine
end

