-- ==== Sys2Proof/Machine/Step.lean ====
section
/-! DEFINITION. The step: the oldest input takes full effect before the next begins (20_memory.md R27). -/

namespace Sys2Proof.Machine

/-- One step: the oldest input. With none pending nothing happens: the block "steps only when its host writes `CMD`"
(60_exceptions.md R104). -/
def step (s : State) : Host.Outcome State Fault Refusal :=
  match s.inputs with
  | [] => .next s
  | i :: rest => act i { s with inputs := rest }

/-- The state in which the very next step runs the instruction of a table word (log entry 2). -/
def State.withFetchWord (s : State) (nbits w : Nat) : State :=
  { s with inputs := fetchInput nbits w :: s.inputs }

end Sys2Proof.Machine
end

