-- ==== Sys2Proof/Safety.lean ====
section
/-! DEFINITION. The invariants claims are stated with. -/

namespace Sys2Proof.Machine

/-- The values a host can read in `STATUS`: 0x00 after reset, 0x80 to 0x85 after a command (10_state.md R11). -/
def statusLegal (v : Byte) : Prop := v = 0x00#8 ∨ ∃ e : BitVec 3, e.toNat ≤ 5 ∧ v = statusWord e

/-- The lengths `OUTLEN` can hold (10_state.md R14). -/
def outlenLegal (v : Half) : Prop := v.toNat ∈ [0, 128, 132, 133, 1024, 1028, 1029]

/-- The result registers agree with one another: unless the last command succeeded, `RSEQ`, `DET` and `OUTLEN` are zero
(60_exceptions.md R96, 70_reset_and_hazards.md R105). -/
def resultsConsistent (s : State) : Prop :=
  s.status ≠ statusWord 0#3 → s.rseq = 0x00#8 ∧ s.det = 0x0000#16 ∧ s.outlen = 0x0000#16

/-- The block's invariant: FB in canonical form, legal result registers. -/
def blockInv (s : State) : Prop :=
  s.fb.wf ∧ statusLegal s.status ∧ outlenLegal s.outlen ∧ resultsConsistent s

/-- A phase belongs to the role whose machine has it (43 sections 4 and 5). -/
def phaseOfRole (r : Role) : Phase → Prop
  | .awaitHandshake => r = .sender
  | .awaitAck => r = .sender
  | .awaitEotAck => r = .sender
  | .init => r = .receiver
  | .awaitBlock => r = .receiver
  | .ended _ => True

/-- The Retry Controller's budget is never overspent: an exchange in hand has an attempt left (43 R76, R81). That each
handshake byte sent in `Init` is an attempt is log entry 19. -/
def budgetKept (c : Session) : Prop :=
  match c.phase with
  | .awaitHandshake => c.attempts < c.params.retryLimit
  | .awaitAck => c.attempts < c.params.retryLimit
  | .awaitEotAck => c.attempts < c.params.retryLimit
  | .awaitBlock => c.attempts < c.params.retryLimit
  | .init => 0 < c.attempts ∧ c.attempts ≤ c.params.retryLimit
  | .ended _ => True

/-- A block being read is in `AwaitBlock`, starts with a marker and is not yet whole (43 R82). -/
def readingKept (c : Session) : Prop :=
  c.partialBlock ≠ [] →
    c.phase = .awaitBlock ∧
    (c.partialBlock.head? = some byteSoh ∨ c.partialBlock.head? = some byteStx) ∧
    c.partialBlock.length < flen (sizeOfMarker (c.partialBlock.getD 0 0x00#8)) c.mode

/-- What the receiver has appended is what it has counted (43 R89, R83; what is counted is log entry 22). -/
def countKept (c : Session) : Prop := c.role = .receiver → c.sink.length = c.bytesTransferred

/-- The session's invariant. -/
def sessionInv (s : State) : Prop :=
  ∀ c, s.session = some c → phaseOfRole c.role c.phase ∧ budgetKept c ∧ readingKept c ∧ countKept c

/-- The invariant of the whole machine. -/
def Inv (s : State) : Prop := blockInv s ∧ sessionInv s

/-! ### Words for statements -/

/-- The `ENC` command of a size and a mode (30_encoding.md R43). -/
def encInstr : BlockSize → Mode → Instr
  | .b128, .checksum => .enc128Cs
  | .b128, .crc => .enc128Crc
  | .b1k, .checksum => .enc1kCs
  | .b1k, .crc => .enc1kCrc

/-- The `DEC` command of a size and a mode (30_encoding.md R43). -/
def decInstr : BlockSize → Mode → Instr
  | .b128, .checksum => .dec128Cs
  | .b128, .crc => .dec128Crc
  | .b1k, .checksum => .dec1kCs
  | .b1k, .crc => .dec1kCrc

/-- The `DET` command of a mode (30_encoding.md R43). -/
def detInstr : Mode → Instr
  | .checksum => .detCs
  | .crc => .detCrc

/-- The frame of a size and a mode with the given fields (30_encoding.md R35). A checksum frame's detection byte is the
low byte of `d`. -/
def frameInstr : BlockSize → Mode → Byte → Byte → List Byte → Half → Instr
  | .b128, .checksum, q, c, p, d => .f128Cs q c p (loByte d)
  | .b128, .crc, q, c, p, d => .f128Crc q c p d
  | .b1k, .checksum, q, c, p, d => .f1kCs q c p (loByte d)
  | .b1k, .crc, q, c, p, d => .f1kCrc q c p d

/-- The ten legal command values (30_encoding.md R43). -/
def legalCommands : List Byte := [0x00#8, 0x01#8, 0x04#8, 0x05#8, 0x06#8, 0x07#8, 0x08#8, 0x09#8, 0x0A#8, 0x0B#8]

/-- The FB bytes a command reads, as a first address and a count, given `LEN` (30_encoding.md R43). -/
def operandRange (i : Instr) (len : Nat) : Nat × Nat :=
  match i with
  | .detCs => (3, if len ≤ 1024 then len else 0)
  | .detCrc => (3, if len ≤ 1024 then len else 0)
  | .enc128Cs => (3, if len ≤ 128 then len else 0)
  | .enc128Crc => (3, if len ≤ 128 then len else 0)
  | .enc1kCs => (3, if len ≤ 1024 then len else 0)
  | .enc1kCrc => (3, if len ≤ 1024 then len else 0)
  | .dec128Cs => (0, if len = 132 then len else 0)
  | .dec128Crc => (0, if len = 133 then len else 0)
  | .dec1kCs => (0, if len = 1028 then len else 0)
  | .dec1kCrc => (0, if len = 1029 then len else 0)
  | .illegalDet _ => (0, 0)
  | .illegalOp3 _ => (0, 0)
  | .illegalBit4 _ => (0, 0)
  | .illegalBit5 _ => (0, 0)
  | .illegalBit6 _ => (0, 0)
  | .illegalBit7 _ => (0, 0)
  | .f128Cs _ _ _ _ => (0, 0)
  | .f128Crc _ _ _ _ => (0, 0)
  | .f1kCs _ _ _ _ => (0, 0)
  | .f1kCrc _ _ _ _ => (0, 0)
  | .soh => (0, 0)
  | .stx => (0, 0)
  | .eot => (0, 0)
  | .ack => (0, 0)
  | .nak => (0, 0)
  | .can => (0, 0)
  | .crcreq => (0, 0)
  | .pad => (0, 0)

/-- What a state shows beside the block's FB and result registers: nothing of it is changed by a command. -/
def sameBeside (s t : State) : Prop :=
  t.cmd = s.cmd ∧ t.seq = s.seq ∧ t.len = s.len ∧ t.session = s.session ∧ t.wireOut = s.wireOut ∧
    t.inputs = s.inputs ∧ t.returned = s.returned ∧ t.reported = s.reported

/-- The result registers hold these values. -/
def results (t : State) (status rseq : Byte) (d o : Half) : Prop :=
  t.status = status ∧ t.rseq = rseq ∧ t.det = d ∧ t.outlen = o

/-- FB holds these bytes from address 0 upward and is otherwise as it was. -/
def holds (bytes : List Byte) (s t : State) : Prop :=
  ∀ k, t.fb.byteAt? k = if k < bytes.length then bytes[k]? else s.fb.byteAt? k

/-- A frame's bytes have been presented by `DECODE.E.M` (30_encoding.md R47): they stand at `FB[0 ..]`, `LEN` is their
count, `CMD` the command, the result registers what `decode` says (41_frame_decode.md R54, R55); the rest is as it
was. -/
def presented (z : BlockSize) (m : Mode) (bytes : List Byte) (s t : State) : Prop :=
  holds bytes s t ∧ t.len = BitVec.ofNat 16 bytes.length ∧ t.cmd = cmdByte opDec z m ∧ t.seq = s.seq ∧
    t.inputs = s.inputs ∧ t.returned = s.returned ∧ t.reported = s.reported ∧
    match decodeBlock bytes m z with
    | .ok (q, pay) => results t 0x80#8 q (det m pay) (BitVec.ofNat 16 (bs z))
    | .error e => results t (statusWord (errCode e)) 0x00#8 0x0000#16 0x0000#16

/-- A frame has been built by `ENCODE.E.M` (30_encoding.md R47): it stands at `FB[0 ..]`, and the registers hold its
operands and the results of the command (40_frame_encode.md R49); the rest is as it was. -/
def built (z : BlockSize) (m : Mode) (q : Byte) (p frame : List Byte) (s t : State) : Prop :=
  holds frame s t ∧ t.seq = q ∧ t.len = BitVec.ofNat 16 p.length ∧ t.cmd = cmdByte opEnc z m ∧
    results t 0x80#8 0x00#8 (det m (padded z p)) (BitVec.ofNat 16 (flen z m)) ∧
    t.inputs = s.inputs ∧ t.returned = s.returned ∧ t.reported = s.reported

/-- Why a frame was refused: its decoding error, or the sequence it carries (43 R83, 60_exceptions.md R98). -/
def refusalKind (r : Except Err (Byte × List Byte)) : FailKind :=
  match r with
  | .ok (q, _) => .sequence q
  | .error e => .block e

/-- The blocks a source is cut into, each padded (43 R78). -/
def paddedBlocks (z : BlockSize) : Nat → List Byte → List Byte
  | 0, _ => []
  | n + 1, source => padded z (source.take (bs z)) ++ paddedBlocks z n (source.drop (bs z))

/-- The number of blocks a source is cut into: its length over the block size, rounded up. -/
def blockCount (z : BlockSize) (source : List Byte) : Nat := (source.length + (bs z - 1)) / bs z

/-- One exchange over a lossless link between a sender's engine and a receiver's engine: the sender reads all that the
receiver has written, then the receiver all that the sender has written in reply. -/
def exchange (p : State × State) : State × State :=
  let s := receive p.2.wireOut { p.1 with wireOut := [] }
  (s, receive s.wireOut { p.2 with wireOut := [] })

/-- `n` exchanges. -/
def exchanges : Nat → State × State → State × State
  | 0, p => p
  | n + 1, p => exchanges n (exchange p)

/-- `n` timeouts in a row: a peer that never responds. -/
def silence : Nat → State → State
  | 0, s => s
  | n + 1, s => silence n (onTimeout s)

end Sys2Proof.Machine
end

