-- ==== Sys2Proof/Certificates/Slice0/Obligations.lean ====
section
/-! DEFINITION. The statements for the provers, from the spec's numbered rules. -/

open Sys2Proof Sys2Proof.Machine

/-! ### Words for the CRC's statement -/

/-- The bits of a word as a polynomial over GF(2), bit `i` the coefficient of x^i (42_error_detector.md R65). -/
noncomputable def Sys2Proof.Machine.gf2Poly {w : Nat} (v : BitVec w) : Polynomial (ZMod 2) :=
  ∑ i ∈ Finset.range w, if v.getLsbD i then Polynomial.X ^ i else 0

/-- The message polynomial: first byte first, bit 7 of each byte first (42_error_detector.md R65). -/
noncomputable def Sys2Proof.Machine.messagePoly : List Byte → Polynomial (ZMod 2)
  | [] => 0
  | b :: t => gf2Poly b * Polynomial.X ^ (8 * t.length) + messagePoly t

/-- The generator x^16 + x^12 + x^5 + 1 (42_error_detector.md R64). -/
noncomputable def Sys2Proof.Machine.generatorPoly : Polynomial (ZMod 2) :=
  Polynomial.X ^ 16 + Polynomial.X ^ 12 + Polynomial.X ^ 5 + 1

/-! ### Reset and the whole machine -/

/-- R105: the reset state, the effect of a reset in any state, and that nothing but a reset clears `STATUS.DONE`. That
a reset keeps the session is "nothing of a session is lost". -/
def Obligations.ResetClearsTheBlockAndNothingElseClearsDone : Prop :=
  (results State.reset 0x00#8 0x00#8 0x0000#16 0x0000#16 ∧ State.reset.cmd = 0x00#8 ∧ State.reset.seq = 0x00#8 ∧
    State.reset.len = 0x0000#16 ∧ ∀ a, State.reset.fb.byteAt? a = none) ∧
  (∀ (s : State) (rest : List Input), s.inputs = .reset :: rest →
    ∃ t, step s = .next t ∧ results t 0x00#8 0x00#8 0x0000#16 0x0000#16 ∧ t.cmd = 0x00#8 ∧ t.seq = 0x00#8 ∧
      t.len = 0x0000#16 ∧ (∀ a, t.fb.byteAt? a = none) ∧ t.inputs = rest ∧ t.session = s.session ∧
      t.wireOut = s.wireOut) ∧
  (∀ s t : State, step s = .next t → statusDone s.status = true → statusDone t.status = false →
    ∃ rest, s.inputs = .reset :: rest)

/-- The invariant of Safety.lean holds at reset. -/
def Obligations.TheInvariantHoldsAtReset : Prop := Inv State.reset

/-- The invariant of Safety.lean is kept by every step from every state that meets it: FB stays canonical, `STATUS` and
`OUTLEN` keep legal values, the result registers stay consistent, and the session keeps its phase, budget and count. That
each handshake byte is an attempt (`budgetKept` in `Init`) is the model's choice, log entry 19, and that a receiver's
`bytes_transferred` is what it appended (`countKept`) is log entry 22. -/
def Obligations.EveryStepKeepsTheInvariant : Prop :=
  ∀ s t : State, Inv s → step s = .next t → Inv t

/-- R8, R22: a `CMD` write stores the value and runs the command it selects; bytes on the wire that are a row of the
table run that row; either way the input is used up. -/
def Obligations.AStepRunsTheDecodedInstruction : Prop :=
  (∀ (s : State) (v : Byte) (rest : List Input), s.inputs = .wrreg (.cmd v) :: rest →
    step s = exec (decodeCmd v) { s with inputs := rest, cmd := v }) ∧
  (∀ (s : State) (l : List Byte) (i : Instr) (rest : List Input), s.inputs = .wire l :: rest →
    decode .wire l = .ok i → step s = exec i { s with inputs := rest })

/-- R97: an error (any earlier outcome) makes no later command behave differently: no command reads the result
registers. -/
def Obligations.NoCommandReadsTheResultRegisters : Prop :=
  ∀ (i : Instr) (s : State) (v r : Byte) (d o : Half), i.space = .command →
    exec i { s with status := v, rseq := r, det := d, outlen := o } = exec i s

/-- R96, R101: every command completes; it writes the four result registers, FB only if it is an `ENC` that succeeds,
and no register of the host; an error leaves `RSEQ`, `DET`, `OUTLEN` zero and FB as it was. -/
def Obligations.EveryCommandCompletesAndErrorsArePrecise : Prop :=
  ∀ (i : Instr) (s : State), i.space = .command →
    ∃ t, exec i s = .next t ∧ sameBeside s t ∧
      ((∀ z m, i ≠ encInstr z m) → t.fb = s.fb) ∧
      (t.status = 0x80#8 ∨
        ∃ e : Err, results t (statusWord (errCode e)) 0x00#8 0x0000#16 0x0000#16 ∧ t.fb = s.fb)

/-- R3: the result of a command is a function of its operands alone. Two states that agree on `LEN`, on the operand
bytes (which the host has written, R108) and, for an `ENC`, on `SEQ`, give the same results and the same frame. -/
def Obligations.ResultsDependOnTheOperandsAlone : Prop :=
  ∀ (i : Instr) (s₁ s₂ t₁ t₂ : State), i.space = .command → s₁.len = s₂.len →
    s₁.fb.written (operandRange i s₁.len.toNat).1 (operandRange i s₁.len.toNat).2 →
    (∀ a, (operandRange i s₁.len.toNat).1 ≤ a →
      a < (operandRange i s₁.len.toNat).1 + (operandRange i s₁.len.toNat).2 →
      s₁.fb.byteAt? a = s₂.fb.byteAt? a) →
    ((∃ z m, i = encInstr z m) → s₁.seq = s₂.seq) →
    exec i s₁ = .next t₁ → exec i s₂ = .next t₂ →
      results t₁ t₂.status t₂.rseq t₂.det t₂.outlen ∧
      ∀ z m, i = encInstr z m → s₁.len.toNat ≤ bs z → ∀ a < flen z m, t₁.fb.byteAt? a = t₂.fb.byteAt? a

/-! ### Encodings -/

/-- Decoding an encoded well-formed instruction gives it back, every operand at every value, in the space it belongs
to. -/
def Obligations.DecodeOfEncodeIsTheInstruction : Prop :=
  ∀ i : Instr, i.wf = true → decode i.space (encode i) = .ok i

/-- The other direction: what decodes is well-formed, belongs to the space it was read in, and encodes to the bytes it
was read from. -/
def Obligations.EncodeOfDecodeIsTheBytes : Prop :=
  ∀ (sp : Space) (l : List Byte) (i : Instr), decode sp l = .ok i → i.wf = true ∧ i.space = sp ∧ encode i = l

/-- Words written out from the table decode to the rows they stand for. -/
def Obligations.WordsOfTheTableDecode : Prop :=
  decodeCmd 0b00000000#8 = .detCs ∧ decodeCmd 0b00000001#8 = .detCrc ∧
  decodeCmd 0b00000100#8 = .enc128Cs ∧ decodeCmd 0b00000111#8 = .enc1kCrc ∧
  decodeCmd 0b00001000#8 = .dec128Cs ∧ decodeCmd 0b00001011#8 = .dec1kCrc ∧
  decodeCmd 0b00000011#8 = .illegalDet 1#1 ∧ decodeCmd 0b00001110#8 = .illegalOp3 2#2 ∧
  decodeCmd 0b00010100#8 = .illegalBit4 4#4 ∧ decodeCmd 0b10000100#8 = .illegalBit7 4#7 ∧
  decode .wire [0x04#8] = .ok .eot ∧ decode .wire [0x43#8] = .ok .crcreq ∧ decode .wire [0x1A#8] = .ok .pad ∧
  decode .wire [0x44#8] = .error (.otherByte 0x44#8)

/-- R44, R94: each of the 246 reserved values, written to `CMD`, is stored and ends in `IllegalCommand`; nothing else
changes. The six `ILLEGAL` rows do so whatever their don't-care bits. -/
def Obligations.ReservedCommandsEndInIllegalCommand : Prop :=
  ((List.range 256).filter (fun n => BitVec.ofNat 8 n ∉ legalCommands)).length = 246 ∧
  (∀ (s : State) (v : Byte) (rest : List Input), v ∉ legalCommands → s.inputs = .wrreg (.cmd v) :: rest →
    step s = .next { s with
      inputs := rest, cmd := v, status := 0x85#8, rseq := 0x00#8, det := 0x0000#16, outlen := 0x0000#16 }) ∧
  (∀ (s : State) (m : BitVec 1) (sm : BitVec 2) (a : BitVec 4) (b : BitVec 5) (c : BitVec 6) (d : BitVec 7),
    ∀ i ∈ [Instr.illegalDet m, .illegalOp3 sm, .illegalBit4 a, .illegalBit5 b, .illegalBit6 c, .illegalBit7 d],
      exec i s = .next { s with status := 0x85#8, rseq := 0x00#8, det := 0x0000#16, outlen := 0x0000#16 })

/-! ### The Error Detector -/

/-- R63: the checksum is the sum of the bytes modulo 256, whatever their order; its laws. -/
def Obligations.ChecksumIsTheSumModulo256 : Prop :=
  (∀ p : List Byte, (csum8 p).toNat = (p.map BitVec.toNat).sum % 256) ∧
  (∀ p q : List Byte, p.Perm q → csum8 p = csum8 q) ∧
  csum8 [] = 0x00#8 ∧
  (∀ p q : List Byte, csum8 (p ++ q) = csum8 p + csum8 q) ∧
  (∀ (b : Byte) (n : Nat), (csum8 (List.replicate n b)).toNat = (n * b.toNat) % 256) ∧
  csum8 (List.replicate 128 0x1A#8) = 0x00#8 ∧ csum8 (List.replicate 1024 0x1A#8) = 0x00#8 ∧
  csum8 [0xFF#8, 0xFF#8] = 0xFE#8 ∧ csum8 [0x48#8, 0x65#8, 0x6C#8, 0x6C#8, 0x6F#8] = 0xF4#8 ∧
  csum8 ((List.range 128).map (BitVec.ofNat 8)) = 0xC0#8

/-- R65, "Equivalently": the CRC is the remainder of the message polynomial times x^16 divided by the generator. (A
16-bit value is a polynomial of degree below 16, so the congruence says that it is the remainder.) -/
def Obligations.CrcIsThePolynomialRemainder : Prop :=
  ∀ p : List Byte, gf2Poly (crc16 p) = (messagePoly p * Polynomial.X ^ 16) %ₘ generatorPoly

/-- R65, the laws: zeros, leading zeros, linearity for sequences of one length, and that a payload followed by its own
trailer has CRC zero. -/
def Obligations.CrcLaws : Prop :=
  (∀ n : Nat, crc16 (List.replicate n 0x00#8) = 0x0000#16) ∧
  (∀ (n : Nat) (p : List Byte), crc16 (List.replicate n 0x00#8 ++ p) = crc16 p) ∧
  (∀ p q : List Byte, p.length = q.length → crc16 (List.zipWith (· ^^^ ·) p q) = crc16 p ^^^ crc16 q) ∧
  (∀ p : List Byte, crc16 (p ++ [hiByte (crc16 p), loByte (crc16 p)]) = 0x0000#16)

/-- R71, and the check value and single bytes of R65. -/
def Obligations.CrcKnownAnswers : Prop :=
  crc16 (List.replicate 128 0x1A#8) = 0xF8B0#16 ∧ crc16 (List.replicate 1024 0x1A#8) = 0xFC96#16 ∧
  crc16 [0x31#8, 0x32#8, 0x33#8, 0x34#8, 0x35#8, 0x36#8, 0x37#8, 0x38#8, 0x39#8] = 0x31C3#16 ∧
  crc16 [0x01#8] = 0x1021#16 ∧ crc16 [0x80#8] = 0x9188#16

/-- R67, R68: `DET.CS` and `DET.CRC` in every state, at the next state each leaves. -/
def Obligations.DetectorCommandsGiveTheCode : Prop :=
  decodeCmd 0x00#8 = .detCs ∧ decodeCmd 0x01#8 = .detCrc ∧ ∀ s : State,
    (s.len.toNat ≤ 1024 →
      exec .detCs s = .next { s with
        status := 0x80#8, rseq := 0x00#8, outlen := 0x0000#16, draws := s.draws + s.len.toNat
        det := (csum8 (s.fb.readRange s.draws 3 s.len.toNat)).zeroExtend 16 } ∧
      exec .detCrc s = .next { s with
        status := 0x80#8, rseq := 0x00#8, outlen := 0x0000#16, draws := s.draws + s.len.toNat
        det := crc16 (s.fb.readRange s.draws 3 s.len.toNat) }) ∧
    (1024 < s.len.toNat → ∀ m, exec (detInstr m) s = .next { s with
      status := 0x81#8, rseq := 0x00#8, det := 0x0000#16, outlen := 0x0000#16 })

/-! ### The encoder -/

/-- R48, R18: `encode` gives exactly the frames of valid Blocks with the detection code of the padded payload, or
`InvalidPayload` exactly when the payload exceeds the block size. -/
def Obligations.EncodeGivesAValidBlock : Prop :=
  ∀ (q : Byte) (p : List Byte) (m : Mode) (z : BlockSize),
    (bs z < p.length → encodeBlock q p m z = .error .invalidPayload) ∧
    (p.length ≤ bs z → ∃ b : Block, blockValid b ∧ b.startMarker = z ∧ b.sequence = q ∧
      b.payload = p ++ List.replicate (bs z - p.length) 0x1A#8 ∧ b.detectionCode = detectionCode m b.payload ∧
      encodeBlock q p m z = .ok (blockBytes b) ∧ (blockBytes b).length = flen z m)

/-- R38: the complement. -/
def Obligations.SequenceAndComplementSumTo255 : Prop :=
  (∀ q c : Byte, q.toNat + c.toNat = 255 ↔ c = 255#8 - q) ∧
  (∀ q : Byte, 255#8 - q = q ^^^ 0xFF#8) ∧
  (∀ (q : Byte) (p : List Byte) (m : Mode) (z : BlockSize) (f : List Byte), encodeBlock q p m z = .ok f →
    f[1]? = some q ∧ f[2]? = some (255#8 - q)) ∧
  (∀ (raw : List Byte) (m : Mode) (z : BlockSize) (r : Byte × List Byte), decodeBlock raw m z = .ok r →
    (raw.getD 1 0x00#8).toNat + (raw.getD 2 0x00#8).toNat = 255) ∧
  (∀ (raw : List Byte) (m : Mode) (z : BlockSize), (raw.getD 1 0x00#8).toNat + (raw.getD 2 0x00#8).toNat ≠ 255 →
    decodeBlock raw m z = .error .frameError)

/-- R49 to R53: the four `ENC` commands in every state. A length above the block size is `InvalidPayload` with FB
untouched; any other length builds the frame in FB, byte by byte as the rule says, around the data bytes, and touches
no other byte. -/
def Obligations.EncoderCommandsBuildTheFrame : Prop :=
  ∀ (z : BlockSize) (m : Mode) (s : State), decodeCmd (cmdByte opEnc z m) = encInstr z m ∧
    (bs z < s.len.toNat → exec (encInstr z m) s = .next { s with
      status := 0x81#8, rseq := 0x00#8, det := 0x0000#16, outlen := 0x0000#16 }) ∧
    (s.len.toNat ≤ bs z → ∃ t pay code,
      exec (encInstr z m) s = .next t ∧
      pay = s.fb.readRange s.draws 3 s.len.toNat ++ List.replicate (bs z - s.len.toNat) 0x1A#8 ∧
      code = det m pay ∧
      results t 0x80#8 0x00#8 code (BitVec.ofNat 16 (3 + bs z + tl m)) ∧ sameBeside s t ∧
      t.fb.byteAt? 0 = some (marker z) ∧ t.fb.byteAt? 1 = some s.seq ∧ t.fb.byteAt? 2 = some (255#8 - s.seq) ∧
      (∀ k, 3 + s.len.toNat ≤ k → k < 3 + bs z → t.fb.byteAt? k = some 0x1A#8) ∧
      (m = .checksum → t.fb.byteAt? (3 + bs z) = some (csum8 pay)) ∧
      (m = .crc → t.fb.byteAt? (3 + bs z) = some (hiByte (crc16 pay)) ∧
        t.fb.byteAt? (3 + bs z + 1) = some (loByte (crc16 pay))) ∧
      (∀ a, 3 ≤ a ∧ a < 3 + s.len.toNat ∨ 3 + bs z + tl m ≤ a → t.fb.byteAt? a = s.fb.byteAt? a))

/-- R49, "Afterwards": with the data bytes written, `FB[0 +: OUTLEN]` is what the function `encode` gives, and every
byte of it is written. -/
def Obligations.EncoderCommandsComputeEncode : Prop :=
  ∀ (z : BlockSize) (m : Mode) (s : State) (d d' : Nat), s.len.toNat ≤ bs z → s.fb.written 3 s.len.toNat →
    ∃ t f, exec (encInstr z m) s = .next t ∧
      encodeBlock s.seq (s.fb.readRange d 3 s.len.toNat) m z = .ok f ∧
      t.fb.readRange d' 0 t.outlen.toNat = f ∧ t.fb.written 0 t.outlen.toNat

/-- R49, corner case: the same `ENC` again, with no write between, gives the same FB and the same results. -/
def Obligations.EncodingAgainChangesNothing : Prop :=
  ∀ (z : BlockSize) (m : Mode) (s t u : State), s.fb.written 3 s.len.toNat → exec (encInstr z m) s = .next t →
    exec (encInstr z m) t = .next u →
      (∀ a, u.fb.byteAt? a = t.fb.byteAt? a) ∧ results u t.status t.rseq t.det t.outlen

/-! ### The decoder -/

/-- R55 to R59, R95: the four `DEC` commands. A wrong length is a `FrameError` in every state. With the frame's bytes
written the checks are made in order and the first failure is the result. FB is never written. -/
def Obligations.DecoderCommandsJudgeTheFrame : Prop :=
  ∀ (z : BlockSize) (m : Mode) (s : State) (d : Nat), decodeCmd (cmdByte opDec z m) = decInstr z m ∧
    (s.len.toNat ≠ 3 + bs z + tl m → exec (decInstr z m) s = .next { s with
      status := 0x82#8, rseq := 0x00#8, det := 0x0000#16, outlen := 0x0000#16 }) ∧
    (s.len.toNat = 3 + bs z + tl m → s.fb.written 0 (3 + bs z + tl m) → ∃ t,
      exec (decInstr z m) s = .next t ∧ t.fb = s.fb ∧ sameBeside s t ∧
      if s.fb.read d 0 ≠ marker z then results t 0x82#8 0x00#8 0x0000#16 0x0000#16
      else if (s.fb.read d 1).toNat + (s.fb.read d 2).toNat ≠ 255 then results t 0x82#8 0x00#8 0x0000#16 0x0000#16
      else if m = .checksum ∧ csum8 (s.fb.readRange d 3 (bs z)) ≠ s.fb.read d (3 + bs z) then
        results t 0x83#8 0x00#8 0x0000#16 0x0000#16
      else if m = .crc ∧ crc16 (s.fb.readRange d 3 (bs z)) ≠
          half (s.fb.read d (3 + bs z)) (s.fb.read d (3 + bs z + 1)) then
        results t 0x84#8 0x00#8 0x0000#16 0x0000#16
      else results t 0x80#8 (s.fb.read d 1) (det m (s.fb.readRange d 3 (bs z))) (BitVec.ofNat 16 (bs z)))

/-- R55, "Afterwards": on written bytes the command computes the function `decode`, errors included. -/
def Obligations.DecoderCommandsComputeDecode : Prop :=
  ∀ (z : BlockSize) (m : Mode) (s : State) (d d' : Nat), s.fb.written 0 s.len.toNat →
    ∃ t, exec (decInstr z m) s = .next t ∧
      match decodeBlock (s.fb.readRange d 0 s.len.toNat) m z with
      | .ok (q, pay) => t.status = 0x80#8 ∧ t.rseq = q ∧ t.outlen.toNat = bs z ∧
          t.fb.readRange d' 3 t.outlen.toNat = pay
      | .error e => results t (statusWord (errCode e)) 0x00#8 0x0000#16 0x0000#16

/-- R45, R54: `decode` accepts exactly the frames of its format; what it does not accept ends in `FrameError` if its
length, first byte or complement is wrong and else in the mode's detection error; no byte string is a frame of both
modes at one size. -/
def Obligations.DecodeAcceptsExactlyTheFrames : Prop :=
  ∀ (m : Mode) (z : BlockSize) (raw : List Byte),
    (∀ (q : Byte) (pay : List Byte), decodeBlock raw m z = .ok (q, pay) ↔
      pay.length = bs z ∧ raw = [marker z, q, 255#8 - q] ++ pay ++ trailerBytes m (det m pay)) ∧
    (raw.length ≠ flen z m ∨ raw.getD 0 0x00#8 ≠ marker z ∨
        (raw.getD 1 0x00#8).toNat + (raw.getD 2 0x00#8).toNat ≠ 255 ↔ decodeBlock raw m z = .error .frameError) ∧
    (∀ e, decodeBlock raw m z = .error e → e = .frameError ∨ e = .checksumError ∧ m = .checksum ∨
      e = .crcError ∧ m = .crc) ∧
    (∀ r m' r', decodeBlock raw m z = .ok r → m' ≠ m → decodeBlock raw m' z ≠ .ok r')

/-- R60: the round trip, of the functions and of the commands. -/
def Obligations.RoundTrip : Prop :=
  (∀ (q : Byte) (p : List Byte) (m : Mode) (z : BlockSize), p.length ≤ bs z →
    ∃ f, encodeBlock q p m z = .ok f ∧
      decodeBlock f m z = .ok (q, p ++ List.replicate (bs z - p.length) 0x1A#8)) ∧
  (∀ (m : Mode) (z : BlockSize) (s : State), s.len.toNat ≤ bs z → s.fb.written 3 s.len.toNat →
    ∃ t u, exec (encInstr z m) s = .next t ∧ exec (decInstr z m) { t with len := t.outlen } = .next u ∧
      results u 0x80#8 s.seq t.det (BitVec.ofNat 16 (bs z)) ∧ u.fb = t.fb)

/-! ### The host's accesses -/

/-- R21, R26: `RDFB` and `WRFB`. A byte nothing has written gives whatever value is drawn (log entry 1). That an address
of 1029 and above faults is log entry 4: R26 gives it no meaning. -/
def Obligations.FrameBufferAccesses : Prop :=
  ∀ (s : State) (rest : List Input) (a : Nat) (b : Byte),
    (s.inputs = .rdfb a :: rest → a ≤ 1028 → ∃ v, (∀ w, s.fb.byteAt? a = some w → v = w) ∧
      step s = .next { s with inputs := rest, returned := some (.byte v), draws := s.draws + 1 }) ∧
    (s.inputs = .wrfb a b :: rest → a ≤ 1028 → ∃ t, step s = .next t ∧ t.fb.byteAt? a = some b ∧
      (∀ k, k ≠ a → t.fb.byteAt? k = s.fb.byteAt? k) ∧ { t with fb := s.fb } = { s with inputs := rest }) ∧
    (1029 ≤ a → (s.inputs = .rdfb a :: rest ∨ s.inputs = .wrfb a b :: rest) →
      step s = .fault (.reservedFbAddress a))

/-- R22, R26: `RDREG` and `WRREG` of every register, and of the numbers that do not exist. That a number of 7 and above
faults is log entry 4: R26 gives it no meaning. -/
def Obligations.RegisterAccesses : Prop :=
  ∀ (s : State) (rest : List Input),
    (∀ r v, (r, v) ∈ [(0, BusValue.byte s.cmd), (1, .byte s.seq), (2, .half s.len), (3, .byte s.status),
        (4, .byte s.rseq), (5, .half s.det), (6, .half s.outlen)] →
      s.inputs = .rdreg r :: rest → step s = .next { s with inputs := rest, returned := some v }) ∧
    (∀ v, s.inputs = .wrreg (.cmd v) :: rest → step s = exec (decodeCmd v) { s with inputs := rest, cmd := v }) ∧
    (∀ v, s.inputs = .wrreg (.seq v) :: rest → step s = .next { s with inputs := rest, seq := v }) ∧
    (∀ v, s.inputs = .wrreg (.len v) :: rest → step s = .next { s with inputs := rest, len := v }) ∧
    (∀ (v : Byte) (h : Half), ∀ w ∈ [RegWrite.status v, .rseq v, .det h, .outlen h],
      s.inputs = .wrreg w :: rest → step s = .next { s with inputs := rest }) ∧
    (∀ n h, s.inputs = .rdreg (7 + n) :: rest ∨ s.inputs = .wrreg (.reserved n h) :: rest →
      step s = .fault (.reservedRegister (7 + n)))

/-- R47: a shorthand is its expansion, access by access: running the accesses one by one comes to the state the
shorthand comes to as one action, or to the same fault where a `LOAD` or a `DETECT` runs past the end of FB (log entry 4).
An `ENCODE` or a `DECODE` that cannot be presented has no expansion: TheHostReportsWhatItCannotPresent. -/
def Obligations.ShorthandsAreTheirExpansions : Prop :=
  ∀ (h : Shorthand) (s : State) (rest : List Input), s.fb.wf → h ≠ .sendframe →
    (∀ z m q p, h = .encode z m q p → p.length ≤ 1026) → (∀ z m r, h = .decode z m r → r.length ≤ 1029) →
    Host.Core.run Sys2Proof.core (expandShorthand h).length
        ({ s with inputs := expandShorthand h ++ rest } : State) =
      step { s with inputs := .shorthand h :: rest }

/-- R31, R47: `SENDFRAME` sends `FB[0], ..., FB[OUTLEN-1]`, in that order, and changes nothing of the block. -/
def Obligations.SendframeSendsTheFrameInOrder : Prop :=
  ∀ (s : State) (rest : List Input), s.inputs = .shorthand .sendframe :: rest → s.fb.written 0 s.outlen.toNat →
    ∃ l, step s = .next { s with inputs := rest, wireOut := s.wireOut ++ l, draws := s.draws + s.outlen.toNat } ∧
      l.length = s.outlen.toNat ∧ ∀ k < s.outlen.toNat, l[k]? = s.fb.byteAt? k

/-! ### Frames on the wire -/

/-- R31, R47 (and log entry 8): with no session, a whole frame of any of the four formats is stored at `FB[0 ..]` and
judged by the `DEC` of its format; nothing else changes. What is accepted is the frame's own sequence and payload. -/
def Obligations.AFrameIsStoredAndJudged : Prop :=
  ∀ (z : BlockSize) (m : Mode) (q c : Byte) (p : List Byte) (e : Half) (s : State),
    s.session = none → p.length = bs z →
    ∃ t, exec (frameInstr z m q c p e) s = .next t ∧ presented z m (encode (frameInstr z m q c p e)) s t ∧
      t.session = none ∧ t.wireOut = s.wireOut ∧
      (∀ r pay, decodeBlock (encode (frameInstr z m q c p e)) m z = .ok (r, pay) → r = q ∧ pay = p)

/-- R73: in a session a whole frame is read byte by byte, as the state machines read (log entry 8). -/
def Obligations.AFrameInASessionIsReadByteByByte : Prop :=
  ∀ (z : BlockSize) (m : Mode) (q c : Byte) (p : List Byte) (e : Half) (s : State) (k : Session),
    s.session = some k → exec (frameInstr z m q c p e) s = .next (receive (encode (frameInstr z m q c p e)) s)

/-- R82, R83, accepting: a receiver that waits for a block and gets the one it expects, valid, of its mode and size,
presents it to the block, appends the payload, sends ACK and increments `expected_sequence`. -/
def Obligations.TheExpectedBlockIsAccepted : Prop :=
  ∀ (z : BlockSize) (m : Mode) (p : List Byte) (s : State) (c : Session),
    s.session = some c → c.phase = .awaitBlock → c.partialBlock = [] → c.mode = m →
    (c.sizeFixed = true → c.blockSize = z) → c.cancelPending = false → p.length = bs z →
    ∃ t, exec (frameInstr z m c.sequence (255#8 - c.sequence) p (det m p)) s = .next t ∧
      presented z m (encode (frameInstr z m c.sequence (255#8 - c.sequence) p (det m p))) s t ∧
      t.status = 0x80#8 ∧ t.rseq = c.sequence ∧ t.wireOut = s.wireOut ++ [0x06#8] ∧
      t.session = some { c with
        blockSize := z, sizeFixed := true, sequence := c.sequence + 1#8, attempts := 0
        sink := c.sink ++ delivered c p
        bytesTransferred := c.bytesTransferred + (delivered c p).length }

/-- R83, the duplicate: a valid block with the sequence before the expected one is acknowledged and not appended. That it
neither spends an attempt nor resets their count is log entry 19, and the size it sets is log entry 18. -/
def Obligations.ADuplicateIsAcknowledgedAndNotAppended : Prop :=
  ∀ (z : BlockSize) (m : Mode) (p : List Byte) (s : State) (c : Session) (q : Byte),
    s.session = some c → c.phase = .awaitBlock → c.partialBlock = [] → c.mode = m →
    (c.sizeFixed = true → c.blockSize = z) → c.cancelPending = false → p.length = bs z →
    q = c.sequence - 1#8 →
    ∃ t, exec (frameInstr z m q (255#8 - q) p (det m p)) s = .next t ∧
      presented z m (encode (frameInstr z m q (255#8 - q) p (det m p))) s t ∧
      t.session = some { c with blockSize := z, sizeFixed := true } ∧ t.wireOut = s.wireOut ++ [0x06#8]

/-- R83, R98, refusing: a frame of the receiver's size and mode that does not decode, or a valid one with any other
sequence, is answered with NAK, appends nothing, moves no counter and spends one attempt; the last attempt ends the
session, with the block's sequence and the error kind attached (that the last one too is answered with NAK is log entry
19). -/
def Obligations.ABadBlockIsRefused : Prop :=
  ∀ (z : BlockSize) (m : Mode) (q x : Byte) (p : List Byte) (e : Half) (s : State) (c : Session),
    s.session = some c → c.phase = .awaitBlock → c.partialBlock = [] → c.mode = m →
    (c.sizeFixed = true → c.blockSize = z) → c.cancelPending = false → p.length = bs z →
    (∀ pay, decodeBlock (encode (frameInstr z m q x p e)) m z ≠ .ok (c.sequence, pay) ∧
      decodeBlock (encode (frameInstr z m q x p e)) m z ≠ .ok (c.sequence - 1#8, pay)) →
    ∃ t, exec (frameInstr z m q x p e) s = .next t ∧ presented z m (encode (frameInstr z m q x p e)) s t ∧
      t.wireOut = s.wireOut ++ [0x15#8] ∧
      (c.attempts + 1 < c.params.retryLimit →
        t.session = some { c with blockSize := z, sizeFixed := true, attempts := c.attempts + 1 }) ∧
      (c.params.retryLimit ≤ c.attempts + 1 →
        t.session = some { c with
          blockSize := z, sizeFixed := true
          phase := .ended (.tooManyErrors c.sequence
            (refusalKind (decodeBlock (encode (frameInstr z m q x p e)) m z))) })

/-- R32: inside a block a byte is data whatever its value, the control bytes and the pad byte included: it is kept, and
neither the block nor the wire is touched. -/
def Obligations.BytesInsideABlockAreData : Prop :=
  ∀ (s : State) (c : Session), s.session = some c → c.phase = .awaitBlock → c.partialBlock ≠ [] →
    c.partialBlock.length + 1 < flen (sizeOfMarker (c.partialBlock.getD 0 0x00#8)) c.mode →
    (∀ b, receiveByte b s = { s with session := some { c with partialBlock := c.partialBlock ++ [b] } }) ∧
    (∀ i b, (i, b) ∈ [(Instr.soh, 0x01#8), (.stx, 0x02#8), (.eot, 0x04#8), (.ack, 0x06#8), (.nak, 0x15#8),
        (.can, 0x18#8), (.crcreq, 0x43#8), (.pad, 0x1A#8)] →
      exec i s = .next { s with session := some { c with partialBlock := c.partialBlock ++ [b] } })

/-! ### Control bytes -/

/-- R32, R100: without a session no control byte and no pad byte has any effect: the block is not involved. -/
def Obligations.ControlBytesDoNothingToTheBlockAlone : Prop :=
  ∀ s : State, s.session = none →
    ∀ i ∈ [Instr.soh, .stx, .eot, .ack, .nak, .can, .crcreq, .pad], exec i s = .next s

/-- R82: `SOH` or `STX` where a receiver waits starts a block and touches nothing else; from `Init` it ends the
handshake (R81). -/
def Obligations.AMarkerStartsABlock : Prop :=
  ∀ (s : State) (c : Session) (i : Instr) (b : Byte), (i, b) ∈ [(Instr.soh, 0x01#8), (.stx, 0x02#8)] →
    s.session = some c → c.partialBlock = [] →
    (c.phase = .awaitBlock → exec i s = .next { s with session := some { c with partialBlock := [b] } }) ∧
    (c.phase = .init → exec i s = .next { s with
      session := some { c with phase := .awaitBlock, attempts := 0, partialBlock := [b] } })

/-- R84: `EOT` where a receiver waits for a block: ACK and `Done`. -/
def Obligations.EotEndsTheTransfer : Prop :=
  ∀ (s : State) (c : Session), s.session = some c → c.phase = .awaitBlock → c.partialBlock = [] →
    exec .eot s = .next { s with
      session := some { c with phase := .ended .done, cancelPending := false }
      wireOut := s.wireOut ++ [0x06#8] }

/-- R85: `CAN` where a control byte is expected aborts at once, writing nothing; and an ended session reads and writes
nothing more, whatever arrives. -/
def Obligations.CanAbortsAtOnce : Prop :=
  (∀ (s : State) (c : Session), s.session = some c → (∀ e, c.phase ≠ .ended e) → c.partialBlock = [] →
    exec .can s = .next { s with
      session := some { c with phase := .ended .peerCancelled, cancelPending := false } }) ∧
  (∀ (s : State) (c : Session) (e : SessionEnd), s.session = some c → c.phase = .ended e →
    (∀ l, receive l s = s) ∧ onTimeout s = s ∧ onCancel s = s ∧
      (∀ i : Instr, i.space = .wire → exec i s = .next s))

/-- R77, R75, R78: the handshake byte NAK selects checksum mode and 'C' CRC mode; the sender sets `current_sequence = 1`,
sends the first block, encoded, and waits for the answer. -/
def Obligations.TheHandshakeStartsTheTransfer : Prop :=
  ∀ (s : State) (c : Session) (i : Instr) (m : Mode), (i, m) ∈ [(Instr.nak, Mode.checksum), (.crcreq, .crc)] →
    s.session = some c → c.phase = .awaitHandshake → c.source ≠ [] → 0 < c.params.retryLimit →
    c.cancelPending = false →
    ∃ t f, exec i s = .next t ∧
      encodeBlock 0x01#8 (c.source.take (bs c.blockSize)) m c.blockSize = .ok f ∧ t.wireOut = s.wireOut ++ f ∧
      built c.blockSize m 0x01#8 (c.source.take (bs c.blockSize)) f s t ∧
      t.session = some { c with
        mode := m, sequence := 0x01#8, phase := .awaitAck, attempts := 0, lastResponse := none }

/-- R77, R81, R82: where a control byte is awaited, a byte the state has no use for. In `AwaitHandshake` it is ignored
(R77); in `Init` it leaves the handshake going; in `AwaitBlock` and `AwaitEotAck` the spec names no action, and the
session's parameter says whether it counts as a failure or is ignored (log entry 16). -/
def Obligations.StrayControlBytesAreIgnoredOrRefused : Prop :=
  ∀ (s : State) (c : Session), s.session = some c → c.partialBlock = [] →
    (c.phase = .awaitHandshake → ∀ i ∈ [Instr.soh, .stx, .eot, .ack, .pad], exec i s = .next s) ∧
    (c.phase = .init → ∀ i ∈ [Instr.ack, .nak, .crcreq, .pad], exec i s = .next s) ∧
    (c.phase = .awaitBlock → c.cancelPending = false → ∀ i b,
      (i, b) ∈ [(Instr.ack, 0x06#8), (.nak, 0x15#8), (.crcreq, 0x43#8), (.pad, 0x1A#8)] →
      (c.params.strayNaks = false → exec i s = .next s) ∧
      (c.params.strayNaks = true → c.attempts + 1 < c.params.retryLimit → exec i s = .next { s with
        wireOut := s.wireOut ++ [0x15#8], session := some { c with attempts := c.attempts + 1 } }) ∧
      (c.params.strayNaks = true → c.params.retryLimit ≤ c.attempts + 1 → exec i s = .next { s with
        wireOut := s.wireOut ++ [0x15#8]
        session := some { c with phase := .ended (.tooManyErrors c.sequence (.stray b)) } })) ∧
    (c.phase = .awaitEotAck → ∀ i ∈ [Instr.soh, .stx, .eot, .crcreq, .pad],
      (c.params.eotStrayResends = false → exec i s = .next s) ∧
      (c.params.eotStrayResends = true → exec i s = exec .nak s))

/-- R79: `ACK` advances the sequence modulo 256 and the source by one block; the next block is sent, or EOT when the
source is exhausted. -/
def Obligations.AckAdvancesTheSender : Prop :=
  ∀ (s : State) (c : Session), s.session = some c → c.phase = .awaitAck → 0 < c.params.retryLimit →
    c.cancelPending = false →
    (c.source.drop (bs c.blockSize) ≠ [] → ∃ t f, exec .ack s = .next t ∧
      encodeBlock (c.sequence + 1#8) ((c.source.drop (bs c.blockSize)).take (bs c.blockSize)) c.mode c.blockSize =
        .ok f ∧
      t.wireOut = s.wireOut ++ f ∧
      built c.blockSize c.mode (c.sequence + 1#8) ((c.source.drop (bs c.blockSize)).take (bs c.blockSize)) f s t ∧
      t.session = some { c with
        sequence := c.sequence + 1#8, source := c.source.drop (bs c.blockSize), attempts := 0, lastResponse := none
        bytesTransferred := c.bytesTransferred + (c.source.take (bs c.blockSize)).length }) ∧
    (c.source.drop (bs c.blockSize) = [] → exec .ack s = .next { s with
      wireOut := s.wireOut ++ [0x04#8]
      session := some { c with
        sequence := c.sequence + 1#8, source := [], attempts := 0, lastResponse := none, phase := .awaitEotAck
        bytesTransferred := c.bytesTransferred + (c.source.take (bs c.blockSize)).length } })

/-- R79: NAK, and any other byte but ACK and CAN, makes the sender send the SAME frame again, as it stands in FB: no
command is issued, and one attempt is spent. The first clause is every such byte as it is read, the second the rows of the
table among them. -/
def Obligations.NakResendsTheSameBlock : Prop :=
  ∀ (s : State) (c : Session), s.session = some c → c.phase = .awaitAck →
    (∀ b : Byte, b ≠ 0x06#8 → b ≠ 0x18#8 →
      (c.attempts + 1 < c.params.retryLimit → receiveByte b s = { s with
        session := some { c with attempts := c.attempts + 1, lastResponse := some b }
        wireOut := s.wireOut ++ s.fb.readRange s.draws 0 s.outlen.toNat
        draws := s.draws + s.outlen.toNat }) ∧
      (c.params.retryLimit ≤ c.attempts + 1 → receiveByte b s = { s with
        session := some { c with
          phase := .ended (.retriesExhausted c.sequence (some b)), partialBlock := [], cancelPending := false } })) ∧
    (∀ i b, (i, b) ∈ [(Instr.nak, 0x15#8), (.soh, 0x01#8), (.stx, 0x02#8), (.eot, 0x04#8), (.crcreq, 0x43#8),
        (.pad, 0x1A#8)] →
      (c.attempts + 1 < c.params.retryLimit → exec i s = .next { s with
        session := some { c with attempts := c.attempts + 1, lastResponse := some b }
        wireOut := s.wireOut ++ s.fb.readRange s.draws 0 s.outlen.toNat
        draws := s.draws + s.outlen.toNat }) ∧
      (c.params.retryLimit ≤ c.attempts + 1 → exec i s = .next { s with
        session := some { c with
          phase := .ended (.retriesExhausted c.sequence (some b)), partialBlock := [], cancelPending := false } }))

/-- R76, the property: with a retry budget of N and a peer that never responds, the sender, having sent its block once,
sends it N - 1 times more, N exchanges in all, and then fails with `RetriesExhausted`. -/
def Obligations.ASilentPeerGetsExactlyTheBudget : Prop :=
  ∀ (s : State) (c : Session) (n : Nat), s.session = some c → c.phase = .awaitAck → c.attempts = 0 →
    c.params.retryLimit = n + 1 → c.lastResponse = none → s.fb.written 0 s.outlen.toNat →
    (∀ k ≤ n, ∃ d, (silence k s).session = some { c with attempts := k } ∧
      (silence k s).wireOut = s.wireOut ++ (List.replicate k (s.fb.readRange d 0 s.outlen.toNat)).flatten) ∧
    ∃ t, t = silence (n + 1) s ∧ t.wireOut = (silence n s).wireOut ∧
      ∃ u, t.session = some u ∧ u.phase = .ended (.retriesExhausted c.sequence none)

/-- R80: in `AwaitEotAck`, ACK ends the session as done, and NAK or a timeout sends EOT again under its own budget, whose
exhaustion is `EotNotAcked`. -/
def Obligations.EotIsSentUntilAcknowledged : Prop :=
  ∀ (s : State) (c : Session), s.session = some c → c.phase = .awaitEotAck →
    exec .ack s = .next { s with
      session := some { c with phase := .ended .done, partialBlock := [], cancelPending := false } } ∧
    (c.attempts + 1 < c.params.retryLimit → ∀ t ∈ [exec .nak s, .next (onTimeout s)], t = .next { s with
      session := some { c with attempts := c.attempts + 1 }, wireOut := s.wireOut ++ [0x04#8] }) ∧
    (c.params.retryLimit ≤ c.attempts + 1 → ∀ t ∈ [exec .nak s, .next (onTimeout s)], t = .next { s with
      session := some { c with phase := .ended .eotNotAcked, partialBlock := [], cancelPending := false } })

/-- R81: a receiver that hears nothing sends 'C' up to the fallback threshold and NAK from then on, one byte per
interval until its budget is spent, and then ends with `NoSender`. -/
def Obligations.TheHandshakeFallsBackToNak : Prop :=
  ∀ (s : State) (p : Params) (z : Option BlockSize), sessionActive s = false → 0 < p.retryLimit →
    ∃ t, openReceiver p z s = .next t ∧
      (∀ k < p.retryLimit, (silence k t).wireOut =
        s.wireOut ++ List.replicate (min (k + 1) p.crcFallback) 0x43#8 ++
          List.replicate (k + 1 - p.crcFallback) 0x15#8) ∧
      (silence p.retryLimit t).wireOut = (silence (p.retryLimit - 1) t).wireOut ∧
      ∃ c, (silence p.retryLimit t).session = some c ∧ c.phase = .ended .noSender

/-- R88: an external cancellation is honoured between blocks: it waits while a block is in hand, and it never touches
the block or the wire. -/
def Obligations.CancellationWaitsForTheBlock : Prop :=
  ∀ (s : State) (c : Session), s.session = some c → (∀ e, c.phase ≠ .ended e) →
    (c.phase = .awaitAck ∨ c.partialBlock ≠ [] ∧ c.phase = .awaitBlock →
      onCancel s = { s with session := some { c with cancelPending := true } }) ∧
    (c.phase ≠ .awaitAck → ¬ (c.partialBlock ≠ [] ∧ c.phase = .awaitBlock) →
      onCancel s = { s with session := some { c with
        phase := .ended .externallyCancelled, partialBlock := [], cancelPending := false } }) ∧
    (c.phase = .awaitAck → c.cancelPending = true → exec .ack s = .next { s with session := some { c with
      sequence := c.sequence + 1#8, source := c.source.drop (bs c.blockSize), partialBlock := []
      bytesTransferred := c.bytesTransferred + (c.source.take (bs c.blockSize)).length
      phase := .ended .externallyCancelled, cancelPending := false } })

/-- The end-to-end scenario of 95_test_vectors.md S6, for every source, block size and mode: over a lossless link a
sender's engine and a receiver's engine complete the transfer in one exchange per block and two more; the receiver's sink
holds the padded blocks, or exactly the source where its length is declared. -/
def Obligations.ALosslessTransferDeliversTheSource : Prop :=
  ∀ (z : BlockSize) (source : List Byte) (p p' : Params) (z' : Option BlockSize) (s r s₁ r₁ : State) (n : Nat),
    0 < p.retryLimit → 0 < p'.retryLimit → (z' = none ∨ z' = some z) → r.wireOut = [] →
    (p'.declaredSize = none ∨ p'.declaredSize = some source.length) →
    n = (if source = [] ∧ p.emptyAsBlock = true then 1 else blockCount z source) →
    openSender p z source s = .next s₁ → openReceiver p' z' r = .next r₁ →
    ∃ cs cr, (exchanges (n + 2) (s₁, r₁)).1.session = some cs ∧ (exchanges (n + 2) (s₁, r₁)).2.session = some cr ∧
      cs.phase = .ended .done ∧ cr.phase = .ended .done ∧ cs.bytesTransferred = source.length ∧
      (p'.declaredSize = none → cr.sink = paddedBlocks z n source) ∧
      (p'.declaredSize = some source.length → cr.sink = source) ∧ cr.sink.take source.length = source

/-! ### Beside the statements above -/

/-- R6: the block's state is exactly the record `Xfc`, and an access is a step of that record alone: its parameters are
the access and the index of the next free value, and nothing of the record's surroundings enters into it. That a step
takes the access from a list, and where a read's value goes, are log entries 2 and 6; the addresses and numbers that do
not exist are log entry 4. -/
def Obligations.AnAccessIsAStepOfTheBlockAlone : Prop :=
  ∀ (a : Access) (s : State) (rest : List Input), s.inputs = a.input :: rest →
    step s = match Xfc.access a s.draws s.toXfc with
      | .ok (b, n, v) => .next { s with toXfc := b, draws := n, inputs := rest, returned := v.or s.returned }
      | .error f => .fault f

/-- R18, R54: `decode` accepts a byte string exactly if it is the bytes of a structurally valid Block of the size, with
the detection code of its payload in the mode, and gives that Block's sequence and payload. -/
def Obligations.DecodeAcceptsExactlyTheValidBlocks : Prop :=
  ∀ (raw : List Byte) (m : Mode) (z : BlockSize) (q : Byte) (pay : List Byte),
    decodeBlock raw m z = .ok (q, pay) ↔
      ∃ b : Block, blockValid b ∧ b.startMarker = z ∧ b.sequence = q ∧ b.payload = pay ∧
        b.detectionCode = detectionCode m pay ∧ raw = blockBytes b

/-- R47: the errors the host reports itself, the block untouched: `ENCODE` of more than 1026 bytes is `InvalidPayload`,
`DECODE` of more than 1029 is `FrameError`; no other shorthand reports one. That the report is kept in a field is log
entry 26. -/
def Obligations.TheHostReportsWhatItCannotPresent : Prop :=
  ∀ (s : State) (rest : List Input),
    (∀ z m q p, 1026 < p.length → s.inputs = .shorthand (.encode z m q p) :: rest →
      step s = .next { s with inputs := rest, reported := some .invalidPayload }) ∧
    (∀ z m r, 1029 < r.length → s.inputs = .shorthand (.decode z m r) :: rest →
      step s = .next { s with inputs := rest, reported := some .frameError }) ∧
    (∀ h t, (∀ z m q p, h = .encode z m q p → p.length ≤ 1026) → (∀ z m r, h = .decode z m r → r.length ≤ 1029) →
      s.inputs = .shorthand h :: rest → step s = .next t → t.reported = s.reported)

/-- R82, R83: in a session whose size is fixed, a frame of its mode whose marker is of the other size is read whole and
presented to the `DEC` of the session's size: a `FrameError`, answered with NAK; one attempt is spent, and the last one
ends the session (that the last one too is answered with NAK is log entry 19). -/
def Obligations.AFrameOfTheOtherSizeIsRefused : Prop :=
  ∀ (z : BlockSize) (m : Mode) (q x : Byte) (p : List Byte) (e : Half) (s : State) (c : Session),
    s.session = some c → c.phase = .awaitBlock → c.partialBlock = [] → c.mode = m → c.sizeFixed = true →
    c.blockSize ≠ z → c.cancelPending = false → p.length = bs z →
    ∃ t, exec (frameInstr z m q x p e) s = .next t ∧
      presented c.blockSize m (encode (frameInstr z m q x p e)) s t ∧
      results t 0x82#8 0x00#8 0x0000#16 0x0000#16 ∧ t.wireOut = s.wireOut ++ [0x15#8] ∧
      (c.attempts + 1 < c.params.retryLimit → t.session = some { c with attempts := c.attempts + 1 }) ∧
      (c.params.retryLimit ≤ c.attempts + 1 →
        t.session = some { c with phase := .ended (.tooManyErrors c.sequence (.block .frameError)) })

/-- R88: a cancellation that a receiver has noted inside a block takes effect when the block is done. The byte that makes
the block whole does all it does without the cancellation (it is judged, answered and counted), and so does a timeout; and
then the session ends, unless it has ended by the block itself. That a failed attempt too is a place between blocks is
log entry 21. -/
def Obligations.ANotedCancellationEndsTheReceiver : Prop :=
  ∀ (s : State) (c : Session), s.session = some c → c.phase = .awaitBlock → c.partialBlock ≠ [] →
    c.cancelPending = true →
    (∀ b : Byte, flen (sizeOfMarker (c.partialBlock.getD 0 0x00#8)) c.mode = c.partialBlock.length + 1 →
      ∃ t c', t = receiveByte b { s with session := some { c with cancelPending := false } } ∧ t.session = some c' ∧
        (c'.phase = .awaitBlock ∧
            receiveByte b s = { t with session := some { c' with phase := .ended .externallyCancelled } } ∨
          (∃ e, c'.phase = .ended e) ∧ receiveByte b s = t)) ∧
    ∃ t c', t = onTimeout { s with session := some { c with cancelPending := false } } ∧ t.session = some c' ∧
      (c'.phase = .awaitBlock ∧
          onTimeout s = { t with session := some { c' with phase := .ended .externallyCancelled } } ∨
        (∃ e, c'.phase = .ended e) ∧ onTimeout s = t)

/-- R77, the budget: a sender that is opened and hears nothing waits for the handshake again at each timeout until its
budget is spent, and then ends with `NoHandshake`; it writes nothing, and the block is not involved. -/
def Obligations.TheSendersHandshakeWaitsItsBudget : Prop :=
  ∀ (s : State) (p : Params) (z : BlockSize) (source : List Byte), sessionActive s = false → 0 < p.retryLimit →
    ∃ t c, openSender p z source s = .next t ∧ t = { s with session := some c } ∧
      c = newSession .sender p z true source .awaitHandshake ∧
      (∀ k < p.retryLimit, silence k t = { s with session := some { c with attempts := k } }) ∧
      silence p.retryLimit t =
        { s with session := some { c with attempts := p.retryLimit - 1, phase := .ended .noHandshake } }

/-- R75, R81: the receiver's mode is that of the handshake byte it last sent, CRC while that is 'C' and checksum once it
is NAK; it is the mode of the session when the first block arrives. (What counts as an attempt is log entry 19.) -/
def Obligations.TheReceiversModeIsThatOfTheByteLastSent : Prop :=
  ∀ (s : State) (p : Params) (z : Option BlockSize), sessionActive s = false →
    ∃ t, openReceiver p z s = .next t ∧ ∀ k < p.retryLimit, ∃ c, (silence k t).session = some c ∧ c.phase = .init ∧
      (k < p.crcFallback → c.mode = .crc ∧ (silence k t).wireOut.getLast? = some 0x43#8) ∧
      (p.crcFallback ≤ k → c.mode = .checksum ∧ (silence k t).wireOut.getLast? = some 0x15#8) ∧
      ∀ i b, (i, b) ∈ [(Instr.soh, 0x01#8), (.stx, 0x02#8)] → exec i (silence k t) = .next { silence k t with
        session := some { c with phase := .awaitBlock, attempts := 0, partialBlock := [b] } }

/-- R77: repeated handshake bytes before any block is sent are tolerated, and anything else is ignored. Of a delivery to a
sender that waits for the handshake, without a CAN and ending in a handshake byte, that last byte alone is acted on. That
the last one counts where they differ is log entry 27. -/
def Obligations.RepeatedHandshakeBytesAreTolerated : Prop :=
  ∀ (s : State) (c : Session) (l : List Byte) (rest : List Input) (i : Instr) (b : Byte),
    (i, b) ∈ [(Instr.nak, 0x15#8), (.crcreq, 0x43#8)] → s.session = some c → c.phase = .awaitHandshake →
    0x18#8 ∉ l → s.inputs = .wire (l ++ [b]) :: rest → step s = exec i { s with inputs := rest }

/-- R75: the mode is chosen once, at session start, and is then fixed: no step from a session that is past its handshake
and has not ended changes its mode; nor its role or its parameters. -/
def Obligations.TheModeIsFixedAfterTheHandshake : Prop :=
  ∀ (s t : State) (c : Session), s.session = some c → sessionActive s = true → c.phase ≠ .awaitHandshake →
    c.phase ≠ .init → step s = .next t →
    ∃ c', t.session = some c' ∧ c'.mode = c.mode ∧ c'.role = c.role ∧ c'.params = c.params
end

