-- ==== Sys2Proof/Laws/State.lean ====
section
/-! SUPPORT. One lemma per field per update of the block's record and of State: what each update leaves in each field. -/

namespace Sys2Proof.Machine

/-! ### The block alone -/

@[simp] theorem Xfc.complete_fb (r : Byte) (d o : Half) (b : Xfc) : (b.complete r d o).fb = b.fb := rfl
@[simp] theorem Xfc.complete_cmd (r : Byte) (d o : Half) (b : Xfc) : (b.complete r d o).cmd = b.cmd := rfl
@[simp] theorem Xfc.complete_seq (r : Byte) (d o : Half) (b : Xfc) : (b.complete r d o).seq = b.seq := rfl
@[simp] theorem Xfc.complete_len (r : Byte) (d o : Half) (b : Xfc) : (b.complete r d o).len = b.len := rfl
@[simp] theorem Xfc.complete_status (r : Byte) (d o : Half) (b : Xfc) : (b.complete r d o).status = statusWord 0#3 := rfl
@[simp] theorem Xfc.complete_rseq (r : Byte) (d o : Half) (b : Xfc) : (b.complete r d o).rseq = r := rfl
@[simp] theorem Xfc.complete_det (r : Byte) (d o : Half) (b : Xfc) : (b.complete r d o).det = d := rfl
@[simp] theorem Xfc.complete_outlen (r : Byte) (d o : Half) (b : Xfc) : (b.complete r d o).outlen = o := rfl

@[simp] theorem Xfc.raise_fb (e : Err) (b : Xfc) : (b.raise e).fb = b.fb := rfl
@[simp] theorem Xfc.raise_cmd (e : Err) (b : Xfc) : (b.raise e).cmd = b.cmd := rfl
@[simp] theorem Xfc.raise_seq (e : Err) (b : Xfc) : (b.raise e).seq = b.seq := rfl
@[simp] theorem Xfc.raise_len (e : Err) (b : Xfc) : (b.raise e).len = b.len := rfl
@[simp] theorem Xfc.raise_status (e : Err) (b : Xfc) : (b.raise e).status = statusWord (errCode e) := rfl
@[simp] theorem Xfc.raise_rseq (e : Err) (b : Xfc) : (b.raise e).rseq = 0x00#8 := rfl
@[simp] theorem Xfc.raise_det (e : Err) (b : Xfc) : (b.raise e).det = 0x0000#16 := rfl
@[simp] theorem Xfc.raise_outlen (e : Err) (b : Xfc) : (b.raise e).outlen = 0x0000#16 := rfl

@[simp] theorem Xfc.reset_fb : Xfc.reset.fb = [] := rfl
@[simp] theorem Xfc.reset_cmd : Xfc.reset.cmd = 0x00#8 := rfl
@[simp] theorem Xfc.reset_seq : Xfc.reset.seq = 0x00#8 := rfl
@[simp] theorem Xfc.reset_len : Xfc.reset.len = 0x0000#16 := rfl
@[simp] theorem Xfc.reset_status : Xfc.reset.status = 0x00#8 := rfl
@[simp] theorem Xfc.reset_rseq : Xfc.reset.rseq = 0x00#8 := rfl
@[simp] theorem Xfc.reset_det : Xfc.reset.det = 0x0000#16 := rfl
@[simp] theorem Xfc.reset_outlen : Xfc.reset.outlen = 0x0000#16 := rfl

/-! ### The block in its environment -/

@[simp] theorem onBlock_toXfc (f : Nat → Xfc → Xfc × Nat) (s : State) : (onBlock f s).toXfc = (f s.draws s.toXfc).1 := rfl
@[simp] theorem onBlock_draws (f : Nat → Xfc → Xfc × Nat) (s : State) : (onBlock f s).draws = (f s.draws s.toXfc).2 := rfl
@[simp] theorem onBlock_session (f : Nat → Xfc → Xfc × Nat) (s : State) : (onBlock f s).session = s.session := rfl
@[simp] theorem onBlock_wireOut (f : Nat → Xfc → Xfc × Nat) (s : State) : (onBlock f s).wireOut = s.wireOut := rfl
@[simp] theorem onBlock_inputs (f : Nat → Xfc → Xfc × Nat) (s : State) : (onBlock f s).inputs = s.inputs := rfl
@[simp] theorem onBlock_returned (f : Nat → Xfc → Xfc × Nat) (s : State) : (onBlock f s).returned = s.returned := rfl
@[simp] theorem onBlock_reported (f : Nat → Xfc → Xfc × Nat) (s : State) : (onBlock f s).reported = s.reported := rfl

/-! ### Completion, taking an error, the host's writes, the session -/

@[simp] theorem complete_fb (r : Byte) (d o : Half) (s : State) :
    (complete r d o s).fb = s.fb := rfl
@[simp] theorem complete_cmd (r : Byte) (d o : Half) (s : State) :
    (complete r d o s).cmd = s.cmd := rfl
@[simp] theorem complete_seq (r : Byte) (d o : Half) (s : State) :
    (complete r d o s).seq = s.seq := rfl
@[simp] theorem complete_len (r : Byte) (d o : Half) (s : State) :
    (complete r d o s).len = s.len := rfl
@[simp] theorem complete_status (r : Byte) (d o : Half) (s : State) :
    (complete r d o s).status = statusWord 0#3 := rfl
@[simp] theorem complete_rseq (r : Byte) (d o : Half) (s : State) :
    (complete r d o s).rseq = r := rfl
@[simp] theorem complete_det (r : Byte) (d o : Half) (s : State) :
    (complete r d o s).det = d := rfl
@[simp] theorem complete_outlen (r : Byte) (d o : Half) (s : State) :
    (complete r d o s).outlen = o := rfl
@[simp] theorem complete_session (r : Byte) (d o : Half) (s : State) :
    (complete r d o s).session = s.session := rfl
@[simp] theorem complete_wireOut (r : Byte) (d o : Half) (s : State) :
    (complete r d o s).wireOut = s.wireOut := rfl
@[simp] theorem complete_inputs (r : Byte) (d o : Half) (s : State) :
    (complete r d o s).inputs = s.inputs := rfl
@[simp] theorem complete_returned (r : Byte) (d o : Half) (s : State) :
    (complete r d o s).returned = s.returned := rfl
@[simp] theorem complete_reported (r : Byte) (d o : Half) (s : State) :
    (complete r d o s).reported = s.reported := rfl
@[simp] theorem complete_draws (r : Byte) (d o : Half) (s : State) :
    (complete r d o s).draws = s.draws := rfl

@[simp] theorem raise_fb (e : Err) (s : State) :
    (raise e s).fb = s.fb := rfl
@[simp] theorem raise_cmd (e : Err) (s : State) :
    (raise e s).cmd = s.cmd := rfl
@[simp] theorem raise_seq (e : Err) (s : State) :
    (raise e s).seq = s.seq := rfl
@[simp] theorem raise_len (e : Err) (s : State) :
    (raise e s).len = s.len := rfl
@[simp] theorem raise_status (e : Err) (s : State) :
    (raise e s).status = statusWord (errCode e) := rfl
@[simp] theorem raise_rseq (e : Err) (s : State) :
    (raise e s).rseq = 0x00#8 := rfl
@[simp] theorem raise_det (e : Err) (s : State) :
    (raise e s).det = 0x0000#16 := rfl
@[simp] theorem raise_outlen (e : Err) (s : State) :
    (raise e s).outlen = 0x0000#16 := rfl
@[simp] theorem raise_session (e : Err) (s : State) :
    (raise e s).session = s.session := rfl
@[simp] theorem raise_wireOut (e : Err) (s : State) :
    (raise e s).wireOut = s.wireOut := rfl
@[simp] theorem raise_inputs (e : Err) (s : State) :
    (raise e s).inputs = s.inputs := rfl
@[simp] theorem raise_returned (e : Err) (s : State) :
    (raise e s).returned = s.returned := rfl
@[simp] theorem raise_reported (e : Err) (s : State) :
    (raise e s).reported = s.reported := rfl
@[simp] theorem raise_draws (e : Err) (s : State) :
    (raise e s).draws = s.draws := rfl

@[simp] theorem load_fb (a : Nat) (p : List Byte) (s : State) :
    (load a p s).fb = s.fb.writeRange a p := rfl
@[simp] theorem load_cmd (a : Nat) (p : List Byte) (s : State) :
    (load a p s).cmd = s.cmd := rfl
@[simp] theorem load_seq (a : Nat) (p : List Byte) (s : State) :
    (load a p s).seq = s.seq := rfl
@[simp] theorem load_len (a : Nat) (p : List Byte) (s : State) :
    (load a p s).len = s.len := rfl
@[simp] theorem load_status (a : Nat) (p : List Byte) (s : State) :
    (load a p s).status = s.status := rfl
@[simp] theorem load_rseq (a : Nat) (p : List Byte) (s : State) :
    (load a p s).rseq = s.rseq := rfl
@[simp] theorem load_det (a : Nat) (p : List Byte) (s : State) :
    (load a p s).det = s.det := rfl
@[simp] theorem load_outlen (a : Nat) (p : List Byte) (s : State) :
    (load a p s).outlen = s.outlen := rfl
@[simp] theorem load_session (a : Nat) (p : List Byte) (s : State) :
    (load a p s).session = s.session := rfl
@[simp] theorem load_wireOut (a : Nat) (p : List Byte) (s : State) :
    (load a p s).wireOut = s.wireOut := rfl
@[simp] theorem load_inputs (a : Nat) (p : List Byte) (s : State) :
    (load a p s).inputs = s.inputs := rfl
@[simp] theorem load_returned (a : Nat) (p : List Byte) (s : State) :
    (load a p s).returned = s.returned := rfl
@[simp] theorem load_reported (a : Nat) (p : List Byte) (s : State) :
    (load a p s).reported = s.reported := rfl
@[simp] theorem load_draws (a : Nat) (p : List Byte) (s : State) :
    (load a p s).draws = s.draws := rfl

@[simp] theorem transmit_fb (l : List Byte) (s : State) :
    (transmit l s).fb = s.fb := rfl
@[simp] theorem transmit_cmd (l : List Byte) (s : State) :
    (transmit l s).cmd = s.cmd := rfl
@[simp] theorem transmit_seq (l : List Byte) (s : State) :
    (transmit l s).seq = s.seq := rfl
@[simp] theorem transmit_len (l : List Byte) (s : State) :
    (transmit l s).len = s.len := rfl
@[simp] theorem transmit_status (l : List Byte) (s : State) :
    (transmit l s).status = s.status := rfl
@[simp] theorem transmit_rseq (l : List Byte) (s : State) :
    (transmit l s).rseq = s.rseq := rfl
@[simp] theorem transmit_det (l : List Byte) (s : State) :
    (transmit l s).det = s.det := rfl
@[simp] theorem transmit_outlen (l : List Byte) (s : State) :
    (transmit l s).outlen = s.outlen := rfl
@[simp] theorem transmit_session (l : List Byte) (s : State) :
    (transmit l s).session = s.session := rfl
@[simp] theorem transmit_wireOut (l : List Byte) (s : State) :
    (transmit l s).wireOut = s.wireOut ++ l := rfl
@[simp] theorem transmit_inputs (l : List Byte) (s : State) :
    (transmit l s).inputs = s.inputs := rfl
@[simp] theorem transmit_returned (l : List Byte) (s : State) :
    (transmit l s).returned = s.returned := rfl
@[simp] theorem transmit_reported (l : List Byte) (s : State) :
    (transmit l s).reported = s.reported := rfl
@[simp] theorem transmit_draws (l : List Byte) (s : State) :
    (transmit l s).draws = s.draws := rfl

@[simp] theorem sendFrame_fb (s : State) :
    (sendFrame s).fb = s.fb := rfl
@[simp] theorem sendFrame_cmd (s : State) :
    (sendFrame s).cmd = s.cmd := rfl
@[simp] theorem sendFrame_seq (s : State) :
    (sendFrame s).seq = s.seq := rfl
@[simp] theorem sendFrame_len (s : State) :
    (sendFrame s).len = s.len := rfl
@[simp] theorem sendFrame_status (s : State) :
    (sendFrame s).status = s.status := rfl
@[simp] theorem sendFrame_rseq (s : State) :
    (sendFrame s).rseq = s.rseq := rfl
@[simp] theorem sendFrame_det (s : State) :
    (sendFrame s).det = s.det := rfl
@[simp] theorem sendFrame_outlen (s : State) :
    (sendFrame s).outlen = s.outlen := rfl
@[simp] theorem sendFrame_session (s : State) :
    (sendFrame s).session = s.session := rfl
@[simp] theorem sendFrame_wireOut (s : State) :
    (sendFrame s).wireOut = s.wireOut ++ s.fb.readRange s.draws 0 s.outlen.toNat := rfl
@[simp] theorem sendFrame_inputs (s : State) :
    (sendFrame s).inputs = s.inputs := rfl
@[simp] theorem sendFrame_returned (s : State) :
    (sendFrame s).returned = s.returned := rfl
@[simp] theorem sendFrame_reported (s : State) :
    (sendFrame s).reported = s.reported := rfl
@[simp] theorem sendFrame_draws (s : State) :
    (sendFrame s).draws = s.draws + s.outlen.toNat := rfl

@[simp] theorem resetBlock_fb (s : State) :
    (resetBlock s).fb = [] := rfl
@[simp] theorem resetBlock_cmd (s : State) :
    (resetBlock s).cmd = 0x00#8 := rfl
@[simp] theorem resetBlock_seq (s : State) :
    (resetBlock s).seq = 0x00#8 := rfl
@[simp] theorem resetBlock_len (s : State) :
    (resetBlock s).len = 0x0000#16 := rfl
@[simp] theorem resetBlock_status (s : State) :
    (resetBlock s).status = 0x00#8 := rfl
@[simp] theorem resetBlock_rseq (s : State) :
    (resetBlock s).rseq = 0x00#8 := rfl
@[simp] theorem resetBlock_det (s : State) :
    (resetBlock s).det = 0x0000#16 := rfl
@[simp] theorem resetBlock_outlen (s : State) :
    (resetBlock s).outlen = 0x0000#16 := rfl
@[simp] theorem resetBlock_session (s : State) :
    (resetBlock s).session = s.session := rfl
@[simp] theorem resetBlock_wireOut (s : State) :
    (resetBlock s).wireOut = s.wireOut := rfl
@[simp] theorem resetBlock_inputs (s : State) :
    (resetBlock s).inputs = s.inputs := rfl
@[simp] theorem resetBlock_returned (s : State) :
    (resetBlock s).returned = s.returned := rfl
@[simp] theorem resetBlock_reported (s : State) :
    (resetBlock s).reported = s.reported := rfl
@[simp] theorem resetBlock_draws (s : State) :
    (resetBlock s).draws = s.draws := rfl

@[simp] theorem setSession_fb (c : Session) (s : State) :
    (setSession c s).fb = s.fb := rfl
@[simp] theorem setSession_cmd (c : Session) (s : State) :
    (setSession c s).cmd = s.cmd := rfl
@[simp] theorem setSession_seq (c : Session) (s : State) :
    (setSession c s).seq = s.seq := rfl
@[simp] theorem setSession_len (c : Session) (s : State) :
    (setSession c s).len = s.len := rfl
@[simp] theorem setSession_status (c : Session) (s : State) :
    (setSession c s).status = s.status := rfl
@[simp] theorem setSession_rseq (c : Session) (s : State) :
    (setSession c s).rseq = s.rseq := rfl
@[simp] theorem setSession_det (c : Session) (s : State) :
    (setSession c s).det = s.det := rfl
@[simp] theorem setSession_outlen (c : Session) (s : State) :
    (setSession c s).outlen = s.outlen := rfl
@[simp] theorem setSession_session (c : Session) (s : State) :
    (setSession c s).session = some c := rfl
@[simp] theorem setSession_wireOut (c : Session) (s : State) :
    (setSession c s).wireOut = s.wireOut := rfl
@[simp] theorem setSession_inputs (c : Session) (s : State) :
    (setSession c s).inputs = s.inputs := rfl
@[simp] theorem setSession_returned (c : Session) (s : State) :
    (setSession c s).returned = s.returned := rfl
@[simp] theorem setSession_reported (c : Session) (s : State) :
    (setSession c s).reported = s.reported := rfl
@[simp] theorem setSession_draws (c : Session) (s : State) :
    (setSession c s).draws = s.draws := rfl

@[simp] theorem finish_fb (c : Session) (e : SessionEnd) (s : State) :
    (finish c e s).fb = s.fb := rfl
@[simp] theorem finish_cmd (c : Session) (e : SessionEnd) (s : State) :
    (finish c e s).cmd = s.cmd := rfl
@[simp] theorem finish_seq (c : Session) (e : SessionEnd) (s : State) :
    (finish c e s).seq = s.seq := rfl
@[simp] theorem finish_len (c : Session) (e : SessionEnd) (s : State) :
    (finish c e s).len = s.len := rfl
@[simp] theorem finish_status (c : Session) (e : SessionEnd) (s : State) :
    (finish c e s).status = s.status := rfl
@[simp] theorem finish_rseq (c : Session) (e : SessionEnd) (s : State) :
    (finish c e s).rseq = s.rseq := rfl
@[simp] theorem finish_det (c : Session) (e : SessionEnd) (s : State) :
    (finish c e s).det = s.det := rfl
@[simp] theorem finish_outlen (c : Session) (e : SessionEnd) (s : State) :
    (finish c e s).outlen = s.outlen := rfl
@[simp] theorem finish_session (c : Session) (e : SessionEnd) (s : State) :
    (finish c e s).session = some { c with phase := .ended e, partialBlock := [], cancelPending := false } := rfl
@[simp] theorem finish_wireOut (c : Session) (e : SessionEnd) (s : State) :
    (finish c e s).wireOut = s.wireOut := rfl
@[simp] theorem finish_inputs (c : Session) (e : SessionEnd) (s : State) :
    (finish c e s).inputs = s.inputs := rfl
@[simp] theorem finish_returned (c : Session) (e : SessionEnd) (s : State) :
    (finish c e s).returned = s.returned := rfl
@[simp] theorem finish_reported (c : Session) (e : SessionEnd) (s : State) :
    (finish c e s).reported = s.reported := rfl
@[simp] theorem finish_draws (c : Session) (e : SessionEnd) (s : State) :
    (finish c e s).draws = s.draws := rfl

end Sys2Proof.Machine
end

