-- ==== Sys2Proof/Laws/Memory.lean ====
section
/-! SUPPORT. The laws of the frame buffer: read after write, what a write leaves alone, and that every write keeps the
canonical form. -/

namespace Sys2Proof.Machine

@[simp] theorem byteAt?_nil (a : Nat) : Memory.byteAt? [] a = none := rfl

@[simp] theorem byteAt?_cons (k : Nat) (b : Byte) (t : Memory) (a : Nat) :
    Memory.byteAt? ((k, b) :: t) a = if k = a then some b else Memory.byteAt? t a := rfl

theorem byteAt?_append (m n : Memory) (a : Nat) :
    Memory.byteAt? (m ++ n) a = (Memory.byteAt? m a).or (Memory.byteAt? n a) := by
  induction m with
  | nil => simp
  | cons c t ih =>
    obtain ⟨k, b⟩ := c
    by_cases h : k = a <;> simp [h, ih]

theorem byteAt?_filter (m : Memory) (f : Nat → Bool) (a : Nat) :
    Memory.byteAt? (m.filter (fun c => f c.1)) a = if f a then Memory.byteAt? m a else none := by
  induction m with
  | nil => simp
  | cons c t ih =>
    obtain ⟨k, b⟩ := c
    by_cases hk : k = a
    · subst hk
      cases hf : f k <;> simp [List.filter, hf, ih]
    · cases hf : f k <;> simp [List.filter, hf, ih, hk]

theorem byteAt?_cells (l : List Byte) (a k : Nat) :
    Memory.byteAt? (cells a l) k = if a ≤ k then l[k - a]? else none := by
  induction l generalizing a with
  | nil => simp [cells]
  | cons b t ih =>
    simp only [cells, byteAt?_cons, ih]
    by_cases h : a = k
    · subst h; simp
    · by_cases h' : a ≤ k
      · have : k - a = (k - (a + 1)) + 1 := by omega
        simp [h, h', show a + 1 ≤ k by omega, this]
      · simp [h, h', show ¬ a + 1 ≤ k by omega]

/-- What a write does to one byte: the bytes written read as written, and every other byte is left alone
(20_memory.md R21). -/
theorem byteAt?_writeRange (m : Memory) (a : Nat) (l : List Byte) (k : Nat) :
    (m.writeRange a l).byteAt? k =
      if a ≤ k ∧ k < a + l.length then l[k - a]? else m.byteAt? k := by
  unfold Memory.writeRange
  rw [byteAt?_append, byteAt?_append, byteAt?_cells,
    byteAt?_filter m (fun n => decide (n < a)), byteAt?_filter m (fun n => decide (a + l.length ≤ n))]
  by_cases h1 : k < a
  · simp [h1, show ¬ a ≤ k by omega, show ¬ a + l.length ≤ k by omega]
  · by_cases h2 : k < a + l.length
    · have h3 : k - a < l.length := by omega
      simp [h1, h2, show a ≤ k by omega, List.getElem?_eq_getElem h3]
    · simp [h1, h2, show a ≤ k by omega, show a + l.length ≤ k by omega,
        List.getElem?_eq_none (show l.length ≤ k - a by omega)]

theorem byteAt?_writeRange_of_lt (m : Memory) {a : Nat} (l : List Byte) {k : Nat} (h : k < a) :
    (m.writeRange a l).byteAt? k = m.byteAt? k := by
  rw [byteAt?_writeRange, if_neg (by omega)]

theorem byteAt?_writeRange_of_ge (m : Memory) {a : Nat} (l : List Byte) {k : Nat} (h : a + l.length ≤ k) :
    (m.writeRange a l).byteAt? k = m.byteAt? k := by
  rw [byteAt?_writeRange, if_neg (by omega)]

theorem cells_addresses (l : List Byte) (a : Nat) : ∀ c ∈ cells a l, a ≤ c.1 ∧ c.1 < a + l.length := by
  induction l generalizing a with
  | nil => simp [cells]
  | cons b t ih =>
    intro c hc
    simp only [cells, List.mem_cons] at hc
    rcases hc with rfl | hc
    · simp
    · have := ih (a + 1) c hc
      simp only [List.length_cons]; omega

theorem cells_rising (l : List Byte) (a : Nat) : (cells a l).Pairwise (fun x y => x.1 < y.1) := by
  induction l generalizing a with
  | nil => simp [cells]
  | cons b t ih =>
    simp only [cells, List.pairwise_cons]
    refine ⟨fun c hc => ?_, ih (a + 1)⟩
    have := (cells_addresses t (a + 1) c hc).1
    omega

/-- Every write inside FB keeps the canonical form. -/
theorem writeRange_wf {m : Memory} (hm : m.wf) {a : Nat} {l : List Byte} (h : a + l.length ≤ Config.fbSize) :
    (m.writeRange a l).wf := by
  obtain ⟨hp, hb⟩ := hm
  unfold Memory.writeRange
  refine ⟨?_, ?_⟩
  · rw [List.pairwise_append, List.pairwise_append]
    refine ⟨⟨hp.filter _, cells_rising l a, ?_⟩, hp.filter _, ?_⟩
    · intro x hx y hy
      have h1 := cells_addresses l a y hy
      simp at hx
      omega
    · intro x hx y hy
      simp only [List.mem_append] at hx
      simp at hy
      rcases hx with hx | hx
      · simp at hx; omega
      · have := cells_addresses l a x hx; omega
  · intro c hc
    simp only [List.mem_append] at hc
    rcases hc with (hc | hc) | hc
    · exact hb c (List.mem_of_mem_filter hc)
    · have := cells_addresses l a c hc; omega
    · exact hb c (List.mem_of_mem_filter hc)

/-- A sequence written byte by byte (30_encoding.md R47, `LOAD`). -/
theorem writeRange_cons (m : Memory) (a : Nat) (b : Byte) (t : List Byte) :
    (m.writeRange a [b]).writeRange (a + 1) t = m.writeRange a (b :: t) := by
  have h1 : m.filter (fun c => decide (c.1 < a + 1) && decide (c.1 < a)) = m.filter (fun c => decide (c.1 < a)) :=
    List.filter_congr fun c _ => by rw [← Bool.decide_and]; exact decide_eq_decide.2 (by omega)
  have h2 : m.filter (fun c => decide (c.1 < a + 1) && decide (a + 1 ≤ c.1)) = [] :=
    List.filter_eq_nil_iff.2 fun c _ => by simp
  have h3 : m.filter (fun c => decide (a + 1 + t.length ≤ c.1) && decide (c.1 < a)) = [] :=
    List.filter_eq_nil_iff.2 fun c _ => by simp; omega
  have h4 : m.filter (fun c => decide (a + 1 + t.length ≤ c.1) && decide (a + 1 ≤ c.1)) =
      m.filter (fun c => decide (a + (t.length + 1) ≤ c.1)) :=
    List.filter_congr fun c _ => by rw [← Bool.decide_and]; exact decide_eq_decide.2 (by omega)
  simp only [Memory.writeRange, cells, List.filter_append, List.filter_filter, List.filter_cons, List.filter_nil,
    List.length_cons, List.length_nil, Nat.zero_add, h1, h2, h3, h4]
  simp [show ¬ (a + 1 + t.length ≤ a) by omega]

/-- Writing nothing. -/
theorem writeRange_nil {m : Memory} (h : m.wf) (a : Nat) : m.writeRange a [] = m := by
  obtain ⟨hp, -⟩ := h
  simp only [Memory.writeRange, cells, List.append_nil, List.length_nil, Nat.add_zero]
  induction m with
  | nil => rfl
  | cons x t ih =>
    rw [List.pairwise_cons] at hp
    have iht := ih hp.2
    by_cases hx : x.1 < a
    · simp [hx, show ¬ a ≤ x.1 by omega, iht]
    · have e : t.filter (fun c => decide (c.1 < a)) = [] :=
        List.filter_eq_nil_iff.2 fun c hc => by have := hp.1 c hc; simp; omega
      rw [e, List.nil_append] at iht
      simp [hx, show a ≤ x.1 by omega, e, iht]

@[simp] theorem nil_wf : Memory.wf [] := ⟨List.Pairwise.nil, by simp⟩

/-! ### Ranges -/

@[simp] theorem readRange_length (m : Memory) (d a n : Nat) : (m.readRange d a n).length = n := by
  induction n generalizing d a with
  | zero => rfl
  | succ n ih => simp [Memory.readRange, ih]

theorem readRange_getElem? (m : Memory) (d a n i : Nat) (h : i < n) :
    (m.readRange d a n)[i]? = some (m.read (d + i) (a + i)) := by
  induction n generalizing d a i with
  | zero => omega
  | succ n ih =>
    cases i with
    | zero => simp [Memory.readRange]
    | succ i =>
      simp only [Memory.readRange, List.getElem?_cons_succ]
      rw [ih _ _ _ (by omega)]
      congr 2 <;> omega

theorem read_written {m : Memory} {a : Nat} (h : (m.byteAt? a).isSome = true) (d d' : Nat) :
    m.read d a = m.read d' a := by
  unfold Memory.read
  cases hb : m.byteAt? a with
  | none => simp [hb] at h
  | some b => rfl

theorem read_of_byteAt? {m : Memory} {a : Nat} {b : Byte} (h : m.byteAt? a = some b) (d : Nat) : m.read d a = b := by
  simp [Memory.read, h]

/-- A range that has been written reads the same whichever draws it is read with. -/
theorem readRange_written {m : Memory} {a n : Nat} (h : m.written a n) (d d' : Nat) :
    m.readRange d a n = m.readRange d' a n := by
  induction n generalizing d d' a with
  | zero => rfl
  | succ n ih =>
    simp only [Memory.readRange]
    rw [read_written (h a (by omega) (by omega)) d d',
      ih (a := a + 1) (fun k h1 h2 => h k (by omega) (by omega)) (d + 1) (d' + 1)]

/-- Two memories that agree on a range read the same there. -/
theorem readRange_congr {m m' : Memory} {a n : Nat} (d : Nat)
    (h : ∀ k, a ≤ k → k < a + n → m.byteAt? k = m'.byteAt? k) : m.readRange d a n = m'.readRange d a n := by
  induction n generalizing d a with
  | zero => rfl
  | succ n ih =>
    simp only [Memory.readRange, Memory.read]
    rw [h a (by omega) (by omega), ih (a := a + 1) (d + 1) (fun k h1 h2 => h k (by omega) (by omega))]

theorem readRange_add (m : Memory) (d a n k : Nat) :
    m.readRange d a (n + k) = m.readRange d a n ++ m.readRange (d + n) (a + n) k := by
  induction n generalizing d a with
  | zero => simp [Memory.readRange]
  | succ n ih =>
    rw [show n + 1 + k = (n + k) + 1 by omega]
    simp only [Memory.readRange, List.cons_append]
    rw [ih, show d + 1 + n = d + (n + 1) by omega, show a + 1 + n = a + (n + 1) by omega]

/-- What has just been written is read back. -/
theorem readRange_writeRange_self (m : Memory) (d a : Nat) (l : List Byte) :
    (m.writeRange a l).readRange d a l.length = l := by
  apply List.ext_getElem?
  intro i
  by_cases hi : i < l.length
  · rw [readRange_getElem? _ _ _ _ _ hi, List.getElem?_eq_getElem hi]
    congr 1
    apply read_of_byteAt?
    rw [byteAt?_writeRange, if_pos (by omega)]
    simp [List.getElem?_eq_getElem hi]
  · rw [List.getElem?_eq_none (by simp; omega), List.getElem?_eq_none (by omega)]

/-- A write leaves a range that lies below it alone. -/
theorem readRange_writeRange_below (m : Memory) (d : Nat) {a n b : Nat} (l : List Byte) (h : a + n ≤ b) :
    (m.writeRange b l).readRange d a n = m.readRange d a n :=
  readRange_congr d (fun _ _ h2 => byteAt?_writeRange_of_lt m l (by omega))

/-- A write leaves a range that lies above it alone. -/
theorem readRange_writeRange_above (m : Memory) (d : Nat) {a n b : Nat} (l : List Byte) (h : b + l.length ≤ a) :
    (m.writeRange b l).readRange d a n = m.readRange d a n :=
  readRange_congr d (fun _ h1 _ => byteAt?_writeRange_of_ge m l (by omega))

theorem writeRange_written_self (m : Memory) (a : Nat) (l : List Byte) : (m.writeRange a l).written a l.length := by
  intro k h1 h2
  rw [byteAt?_writeRange, if_pos ⟨h1, h2⟩, List.getElem?_eq_getElem (by omega)]
  rfl

theorem writeRange_isSome {m : Memory} {k : Nat} (h : (m.byteAt? k).isSome = true) (a : Nat) (l : List Byte) :
    ((m.writeRange a l).byteAt? k).isSome = true := by
  rw [byteAt?_writeRange]
  split
  · rename_i hk
    rw [List.getElem?_eq_getElem (by omega)]; rfl
  · exact h

end Sys2Proof.Machine
end

