-- ==== Sys2Proof/Laws/Detector.lean ====
section
/-! SUPPORT. The laws of the detection functions (42_error_detector.md): how they run over a concatenation, and the
trailer of a code. -/

namespace Sys2Proof.Machine

@[simp] theorem csumFrom_nil (c : Byte) : csumFrom c [] = c := rfl

@[simp] theorem csumFrom_cons (c b : Byte) (t : List Byte) : csumFrom c (b :: t) = csumFrom (c + b) t := rfl

theorem csumFrom_append (c : Byte) (p q : List Byte) : csumFrom c (p ++ q) = csumFrom (csumFrom c p) q := by
  induction p generalizing c with
  | nil => rfl
  | cons b t ih => simp [ih]

/-- The running sum from `c` is `c` plus the sum from zero: the carry out of bit 7 is discarded either way. -/
theorem csumFrom_eq_add (c : Byte) (p : List Byte) : csumFrom c p = c + csum8 p := by
  unfold csum8
  induction p generalizing c with
  | nil => simp
  | cons b t ih => simp only [csumFrom_cons]; rw [ih (c + b), ih (0x00#8 + b)]; simp [BitVec.add_assoc]

/-- One shift of the CRC register (42_error_detector.md R65). -/
def crcShift (c : Half) : Half := if c.msb then (c <<< 1) ^^^ crcPoly else c <<< 1

/-- One byte into the CRC register: the register after a sequence of one byte. -/
def crcByte (c : Half) (b : Byte) : Half := crcFrom c [b]

theorem crcShifts_zero (next : Half → Half) (c : Half) : crcShifts next 0 c = next c := rfl

theorem crcShifts_succ (next : Half → Half) (n : Nat) (c : Half) :
    crcShifts next (n + 1) c = crcShifts next n (crcShift c) := by
  simp only [crcShifts, crcShift]; split <;> rfl

/-- What follows the shifts is applied to the shifted register. -/
theorem crcShifts_next (next : Half → Half) (n : Nat) (c : Half) : crcShifts next n c = next (crcShifts id n c) := by
  induction n generalizing c with
  | zero => rfl
  | succ n ih => rw [crcShifts_succ, crcShifts_succ, ih]

@[simp] theorem crcFrom_nil (c : Half) : crcFrom c [] = c := rfl

@[simp] theorem crcFrom_cons (c : Half) (b : Byte) (t : List Byte) : crcFrom c (b :: t) = crcFrom (crcByte c b) t := by
  rw [crcFrom, crcShifts_next]; rfl

theorem crcByte_eq (c : Half) (b : Byte) : crcByte c b = crcShifts id 8 (c ^^^ (b ++ 0x00#8)) := rfl

theorem crcFrom_append (c : Half) (p q : List Byte) : crcFrom c (p ++ q) = crcFrom (crcFrom c p) q := by
  induction p generalizing c with
  | nil => rfl
  | cons b t ih => simp [ih]

/-- One shift is linear over GF(2). -/
theorem crcShift_xor (c d : Half) : crcShift (c ^^^ d) = crcShift c ^^^ crcShift d := by
  unfold crcShift
  rw [BitVec.msb_xor, BitVec.shiftLeft_xor_distrib]
  generalize c <<< 1 = x
  generalize d <<< 1 = y
  cases c.msb <;> cases d.msb <;> simp only [Bool.xor_false, Bool.xor_true, Bool.not_true, Bool.not_false,
    Bool.false_eq_true, if_true, if_false]
  all_goals
    ext i hi
    simp only [BitVec.getElem_xor]
    cases x[i] <;> cases y[i] <;> cases crcPoly[i] <;> rfl

theorem crcShifts_xor (n : Nat) (c d : Half) :
    crcShifts id n (c ^^^ d) = crcShifts id n c ^^^ crcShifts id n d := by
  induction n generalizing c d with
  | zero => rfl
  | succ n ih => rw [crcShifts_succ, crcShifts_succ, crcShifts_succ, crcShift_xor, ih]

@[simp] theorem trailerBytes_length (m : Mode) (code : Half) : (trailerBytes m code).length = tl m := by
  cases m <;> rfl

theorem half_hiByte_loByte (c : Half) : half (hiByte c) (loByte c) = c := by
  unfold half hiByte loByte
  apply BitVec.eq_of_getLsbD_eq
  intro i hi
  rw [BitVec.getLsbD_append]
  by_cases h : i < 8
  · simp [h]
  · simp [h, show i - 8 < 8 by omega, show 8 + (i - 8) = i by omega]

theorem zext_loByte (b : Byte) : loByte (0x00#8 ++ b) = b := by
  unfold loByte
  ext i hi
  simp only [BitVec.getElem_extractLsb', BitVec.getLsbD_append]
  simp [show i < 8 by omega]

/-- The checksum zero-extended into 16 bits (10_state.md R13). -/
theorem zext_append (b : Byte) : (0x00#8 ++ b : Half) = b.zeroExtend 16 := by
  apply BitVec.eq_of_getLsbD_eq
  intro i hi
  rw [BitVec.getLsbD_append]
  simp only [BitVec.truncate_eq_setWidth, BitVec.getLsbD_setWidth]
  by_cases h : i < 8
  · simp [h, hi]
  · simp [h, hi, BitVec.getLsbD_of_ge b i (by omega)]

/-- A trailer gives back the code it was made from (30_encoding.md R40). -/
theorem trailerValue_trailerBytes (m : Mode) (p : List Byte) : trailerValue m (trailerBytes m (det m p)) = det m p := by
  cases m with
  | checksum => simp [trailerValue, trailerBytes, det, zext_loByte]
  | crc => simp [trailerValue, trailerBytes, half_hiByte_loByte]

end Sys2Proof.Machine
end

