-- ==== Sys2Proof/Laws/Commands.lean ====
section
/-! SUPPORT. What the three shared commands `detect`, `encodeCommand` and `decodeCommand` can do: the fields they leave
alone, their outcomes, and the payload an encoder sees. -/

namespace Sys2Proof.Machine

/-! ### What the block's commands change outside the block: nothing -/

@[simp] theorem detect_session (m : Mode) (s : State) : (detect m s).session = s.session := rfl
@[simp] theorem detect_wireOut (m : Mode) (s : State) : (detect m s).wireOut = s.wireOut := rfl
@[simp] theorem detect_inputs (m : Mode) (s : State) : (detect m s).inputs = s.inputs := rfl
@[simp] theorem detect_returned (m : Mode) (s : State) : (detect m s).returned = s.returned := rfl
@[simp] theorem detect_reported (m : Mode) (s : State) : (detect m s).reported = s.reported := rfl

@[simp] theorem encodeCommand_session (z : BlockSize) (m : Mode) (s : State) : (encodeCommand z m s).session = s.session := rfl
@[simp] theorem encodeCommand_wireOut (z : BlockSize) (m : Mode) (s : State) : (encodeCommand z m s).wireOut = s.wireOut := rfl
@[simp] theorem encodeCommand_inputs (z : BlockSize) (m : Mode) (s : State) : (encodeCommand z m s).inputs = s.inputs := rfl
@[simp] theorem encodeCommand_returned (z : BlockSize) (m : Mode) (s : State) : (encodeCommand z m s).returned = s.returned := rfl
@[simp] theorem encodeCommand_reported (z : BlockSize) (m : Mode) (s : State) : (encodeCommand z m s).reported = s.reported := rfl

@[simp] theorem decodeCommand_session (z : BlockSize) (m : Mode) (s : State) : (decodeCommand z m s).session = s.session := rfl
@[simp] theorem decodeCommand_wireOut (z : BlockSize) (m : Mode) (s : State) : (decodeCommand z m s).wireOut = s.wireOut := rfl
@[simp] theorem decodeCommand_inputs (z : BlockSize) (m : Mode) (s : State) : (decodeCommand z m s).inputs = s.inputs := rfl
@[simp] theorem decodeCommand_returned (z : BlockSize) (m : Mode) (s : State) : (decodeCommand z m s).returned = s.returned := rfl
@[simp] theorem decodeCommand_reported (z : BlockSize) (m : Mode) (s : State) : (decodeCommand z m s).reported = s.reported := rfl

/-! ### The commands written out over the whole state -/

/-- `DET` (42_error_detector.md R67, R68). -/
theorem detect_eq (m : Mode) (s : State) :
    detect m s =
      if 1024 < s.len.toNat then raise .invalidPayload s
      else complete 0x00#8 (det m (s.fb.readRange s.draws payloadBase s.len.toNat)) 0x0000#16
        { s with draws := s.draws + s.len.toNat } := by
  unfold detect onBlock Xfc.detect
  split <;> rfl

/-- `ENC` (40_frame_encode.md R49). -/
theorem encodeCommand_eq (z : BlockSize) (m : Mode) (s : State) :
    encodeCommand z m s =
      if bs z < s.len.toNat then raise .invalidPayload s
      else
        let code := det m ((filledFb z s.toXfc).readRange s.draws payloadBase (bs z))
        complete 0x00#8 code (BitVec.ofNat 16 (flen z m))
          { s with
            fb := (filledFb z s.toXfc).writeRange (payloadBase + bs z) (trailerBytes m code)
            draws := s.draws + bs z } := by
  unfold encodeCommand onBlock Xfc.encode
  split <;> rfl

/-- `DEC` (41_frame_decode.md R55). -/
theorem decodeCommand_eq (z : BlockSize) (m : Mode) (s : State) :
    decodeCommand z m s =
      if s.len.toNat ≠ flen z m then raise .frameError s
      else if s.fb.read s.draws 0 ≠ marker z then raise .frameError { s with draws := s.draws + flen z m + 1 }
      else if (s.fb.read (s.draws + 1) 1).toNat + (s.fb.read (s.draws + 2) 2).toNat ≠ 255 then
        raise .frameError { s with draws := s.draws + flen z m + 1 }
      else
        let code := det m (s.fb.readRange (s.draws + payloadBase) payloadBase (bs z))
        if code ≠ trailerValue m (s.fb.readRange (s.draws + payloadBase + bs z) (payloadBase + bs z) (tl m)) then
          raise (detectionErr m) { s with draws := s.draws + flen z m + 1 }
        else
          complete (s.fb.read (s.draws + flen z m) 1) code (BitVec.ofNat 16 (bs z))
            { s with draws := s.draws + flen z m + 1 } := by
  unfold decodeCommand onBlock Xfc.decode
  dsimp only
  split
  · rfl
  · split
    · rfl
    · split
      · rfl
      · split <;> rfl

/-! ### What they leave alone in the block -/

@[simp] theorem detect_fb (m : Mode) (s : State) : (detect m s).fb = s.fb := by
  rw [detect_eq]; split <;> rfl
@[simp] theorem detect_cmd (m : Mode) (s : State) : (detect m s).cmd = s.cmd := by
  rw [detect_eq]; split <;> rfl
@[simp] theorem detect_seq (m : Mode) (s : State) : (detect m s).seq = s.seq := by
  rw [detect_eq]; split <;> rfl
@[simp] theorem detect_len (m : Mode) (s : State) : (detect m s).len = s.len := by
  rw [detect_eq]; split <;> rfl

@[simp] theorem encodeCommand_cmd (z : BlockSize) (m : Mode) (s : State) : (encodeCommand z m s).cmd = s.cmd := by
  rw [encodeCommand_eq]; split <;> rfl
@[simp] theorem encodeCommand_seq (z : BlockSize) (m : Mode) (s : State) : (encodeCommand z m s).seq = s.seq := by
  rw [encodeCommand_eq]; split <;> rfl
@[simp] theorem encodeCommand_len (z : BlockSize) (m : Mode) (s : State) : (encodeCommand z m s).len = s.len := by
  rw [encodeCommand_eq]; split <;> rfl

@[simp] theorem decodeCommand_fb (z : BlockSize) (m : Mode) (s : State) : (decodeCommand z m s).fb = s.fb := by
  rw [decodeCommand_eq]; dsimp only; split_ifs <;> rfl
@[simp] theorem decodeCommand_cmd (z : BlockSize) (m : Mode) (s : State) : (decodeCommand z m s).cmd = s.cmd := by
  rw [decodeCommand_eq]; dsimp only; split_ifs <;> rfl
@[simp] theorem decodeCommand_seq (z : BlockSize) (m : Mode) (s : State) : (decodeCommand z m s).seq = s.seq := by
  rw [decodeCommand_eq]; dsimp only; split_ifs <;> rfl
@[simp] theorem decodeCommand_len (z : BlockSize) (m : Mode) (s : State) : (decodeCommand z m s).len = s.len := by
  rw [decodeCommand_eq]; dsimp only; split_ifs <;> rfl

/-! ### Their outcomes -/

/-- The two outcomes of `DET` (42_error_detector.md R67, R68). -/
theorem detect_cases (m : Mode) (s : State) :
    (1024 < s.len.toNat ∧ detect m s = raise .invalidPayload s) ∨
    (s.len.toNat ≤ 1024 ∧
      detect m s = complete 0x00#8 (det m (s.fb.readRange s.draws payloadBase s.len.toNat)) 0x0000#16
        { s with draws := s.draws + s.len.toNat }) := by
  rw [detect_eq]
  split
  · exact .inl ⟨‹_›, rfl⟩
  · exact .inr ⟨by omega, rfl⟩

/-- The payload an `ENC` computes its code over: the data bytes where they stand, then padding (40_frame_encode.md
R49). -/
theorem filledFb_payload (z : BlockSize) (s : State) (d : Nat) (h : s.len.toNat ≤ bs z) :
    (filledFb z s.toXfc).readRange d payloadBase (bs z) = padded z (s.fb.readRange d payloadBase s.len.toNat) := by
  obtain ⟨k, hk⟩ : ∃ k, bs z = s.len.toNat + k := ⟨bs z - s.len.toNat, by omega⟩
  unfold filledFb padded
  rw [readRange_length, hk, readRange_add, readRange_writeRange_below _ _ _ (le_refl _),
    readRange_writeRange_above _ _ _ (by simp [payloadBase]), show s.len.toNat + k - s.len.toNat = k by omega]
  congr 1
  simpa using readRange_writeRange_self
    (s.fb.writeRange 0 [marker z, s.seq, 255#8 - s.seq]) (d + s.len.toNat) (payloadBase + s.len.toNat)
    (List.replicate k bytePad)

/-- The two outcomes of `ENC` (40_frame_encode.md R49). -/
theorem encodeCommand_cases (z : BlockSize) (m : Mode) (s : State) :
    (bs z < s.len.toNat ∧ encodeCommand z m s = raise .invalidPayload s) ∨
    (s.len.toNat ≤ bs z ∧
      encodeCommand z m s =
        complete 0x00#8 (det m (padded z (s.fb.readRange s.draws payloadBase s.len.toNat))) (BitVec.ofNat 16 (flen z m))
          { s with
            fb := (filledFb z s.toXfc).writeRange (payloadBase + bs z)
              (trailerBytes m (det m (padded z (s.fb.readRange s.draws payloadBase s.len.toNat))))
            draws := s.draws + bs z }) := by
  by_cases h : bs z < s.len.toNat
  · exact .inl ⟨h, by rw [encodeCommand_eq, if_pos h]⟩
  · refine .inr ⟨by omega, ?_⟩
    rw [encodeCommand_eq, if_neg h]
    dsimp only
    rw [filledFb_payload z s s.draws (by omega)]

theorem flen_bounds (z : BlockSize) (m : Mode) : payloadBase + bs z + tl m = flen z m ∧ flen z m ≤ Config.fbSize := by
  cases z <;> cases m <;> decide

/-- An `ENC` keeps FB in canonical form. -/
theorem encodeCommand_wf {s : State} (h : s.fb.wf) (z : BlockSize) (m : Mode) : (encodeCommand z m s).fb.wf := by
  obtain ⟨hb, hs⟩ := flen_bounds z m
  rcases encodeCommand_cases z m s with ⟨_, he⟩ | ⟨hl, he⟩ <;> rw [he]
  · exact h
  · refine writeRange_wf ?_ (by simp; omega)
    refine writeRange_wf (writeRange_wf h (by simp [Config.fbSize])) (by simp; omega)

/-- The four outcomes of `DEC`, in the order of its checks (41_frame_decode.md R55). -/
theorem decodeCommand_cases (z : BlockSize) (m : Mode) (s : State) :
    (s.len.toNat ≠ flen z m ∧ decodeCommand z m s = raise .frameError s) ∨
    (decodeCommand z m s = raise .frameError { s with draws := s.draws + flen z m + 1 }) ∨
    (decodeCommand z m s = raise (detectionErr m) { s with draws := s.draws + flen z m + 1 }) ∨
    (s.len.toNat = flen z m ∧ s.fb.read s.draws 0 = marker z ∧
      decodeCommand z m s =
        complete (s.fb.read (s.draws + flen z m) 1)
          (det m (s.fb.readRange (s.draws + payloadBase) payloadBase (bs z))) (BitVec.ofNat 16 (bs z))
          { s with draws := s.draws + flen z m + 1 }) := by
  rw [decodeCommand_eq]
  split
  · exact .inl ⟨‹_›, rfl⟩
  · dsimp only
    split
    · exact .inr (.inl rfl)
    · split
      · exact .inr (.inl rfl)
      · split
        · exact .inr (.inr (.inl rfl))
        · exact .inr (.inr (.inr ⟨by tauto, by tauto, rfl⟩))

/-- `DEC` of a frame whose bytes have been written: which draws it reads with makes no difference (41_frame_decode.md
R55). -/
theorem decodeCommand_written (z : BlockSize) (m : Mode) (s : State) (d : Nat) (h : s.len.toNat = flen z m)
    (hw : s.fb.written 0 (flen z m)) :
    decodeCommand z m s =
      if s.fb.read d 0 ≠ marker z then raise .frameError { s with draws := s.draws + flen z m + 1 }
      else if (s.fb.read d 1).toNat + (s.fb.read d 2).toNat ≠ 255 then
        raise .frameError { s with draws := s.draws + flen z m + 1 }
      else if det m (s.fb.readRange d payloadBase (bs z)) ≠
          trailerValue m (s.fb.readRange d (payloadBase + bs z) (tl m)) then
        raise (detectionErr m) { s with draws := s.draws + flen z m + 1 }
      else
        complete (s.fb.read d 1) (det m (s.fb.readRange d payloadBase (bs z))) (BitVec.ofNat 16 (bs z))
          { s with draws := s.draws + flen z m + 1 } := by
  have hb := (flen_bounds z m).1
  have hp : 2 < payloadBase := by decide
  have hr : ∀ a, a < flen z m → ∀ e, s.fb.read e a = s.fb.read d a :=
    fun a ha e => read_written (hw a (by omega) (by omega)) e d
  have hrr : ∀ a n, a + n ≤ flen z m → ∀ e, s.fb.readRange e a n = s.fb.readRange d a n :=
    fun a n ha e => readRange_written (fun k h1 h2 => hw k (by omega) (by omega)) e d
  rw [decodeCommand_eq, if_neg (by simpa using h)]
  dsimp only
  rw [hr 0 (by omega), hr 1 (by omega) (s.draws + 1), hr 1 (by omega) (s.draws + flen z m), hr 2 (by omega), hrr payloadBase (bs z) (by omega),
    hrr (payloadBase + bs z) (tl m) (by omega)]

end Sys2Proof.Machine
end

