-- ==== Sys2Proof/Laws/Session.lean ====
section
/-! SUPPORT. What the host's operations can do: the shorthands, the bytes of the wire, and the reading of a block. -/

namespace Sys2Proof.Machine

/-! ### The shorthands -/

@[simp] theorem hostEncode_session (z : BlockSize) (m : Mode) (q : Byte) (p : List Byte) (s : State) :
    (hostEncode z m q p s).session = s.session := by
  unfold hostEncode; split <;> simp [load]

@[simp] theorem hostEncode_wireOut (z : BlockSize) (m : Mode) (q : Byte) (p : List Byte) (s : State) :
    (hostEncode z m q p s).wireOut = s.wireOut := by
  unfold hostEncode; split <;> simp [load]

@[simp] theorem hostEncode_inputs (z : BlockSize) (m : Mode) (q : Byte) (p : List Byte) (s : State) :
    (hostEncode z m q p s).inputs = s.inputs := by
  unfold hostEncode; split <;> simp [load]

@[simp] theorem hostDecode_session (z : BlockSize) (m : Mode) (r : List Byte) (s : State) :
    (hostDecode z m r s).session = s.session := by
  unfold hostDecode; split <;> simp [load]

@[simp] theorem hostDecode_wireOut (z : BlockSize) (m : Mode) (r : List Byte) (s : State) :
    (hostDecode z m r s).wireOut = s.wireOut := by
  unfold hostDecode; split <;> simp [load]

@[simp] theorem hostDecode_inputs (z : BlockSize) (m : Mode) (r : List Byte) (s : State) :
    (hostDecode z m r s).inputs = s.inputs := by
  unfold hostDecode; split <;> simp [load]

@[simp] theorem hostDecode_seq (z : BlockSize) (m : Mode) (r : List Byte) (s : State) :
    (hostDecode z m r s).seq = s.seq := by
  unfold hostDecode; split <;> simp [load]

/-- `DECODE.E.M R` that fits FB is the load, the two register writes and the command (30_encoding.md R47). -/
theorem hostDecode_fits (z : BlockSize) (m : Mode) {r : List Byte} (h : r.length ≤ Config.fbSize) (s : State) :
    hostDecode z m r s =
      decodeCommand z m { load 0 r s with len := BitVec.ofNat 16 r.length, cmd := cmdByte opDec z m } := by
  unfold hostDecode; rw [if_neg (by omega)]

/-- `ENCODE.E.M s, P` that can be presented is the load, the three register writes and the command (30_encoding.md
R47). -/
theorem hostEncode_fits (z : BlockSize) (m : Mode) (q : Byte) {p : List Byte} (h : p.length ≤ 1026) (s : State) :
    hostEncode z m q p s =
      encodeCommand z m
        { load payloadBase p s with seq := q, len := BitVec.ofNat 16 p.length, cmd := cmdByte opEnc z m } := by
  unfold hostEncode; rw [if_neg (by omega)]

theorem hostDecode_wf {s : State} (h : s.fb.wf) (z : BlockSize) (m : Mode) (r : List Byte) :
    (hostDecode z m r s).fb.wf := by
  unfold hostDecode
  split
  · exact h
  · rw [decodeCommand_fb]; exact writeRange_wf h (by omega)

theorem hostEncode_wf {s : State} (h : s.fb.wf) (z : BlockSize) (m : Mode) (q : Byte) (p : List Byte) :
    (hostEncode z m q p s).fb.wf := by
  unfold hostEncode
  split
  · exact h
  · exact encodeCommand_wf (writeRange_wf h (by simp [payloadBase, Config.fbSize]; omega)) z m

/-! ### Control bytes -/

@[simp] theorem ctl_soh : ctl byteSoh = .soh := by decide
@[simp] theorem ctl_stx : ctl byteStx = .stx := by decide
@[simp] theorem ctl_eot : ctl byteEot = .eot := by decide
@[simp] theorem ctl_ack : ctl byteAck = .ack := by decide
@[simp] theorem ctl_nak : ctl byteNak = .nak := by decide
@[simp] theorem ctl_can : ctl byteCan = .can := by decide
@[simp] theorem ctl_crcreq : ctl byteCrcreq = .crcreq := by decide
@[simp] theorem ctl_pad : ctl bytePad = .other bytePad := by decide

/-! ### Bytes one after another -/

@[simp] theorem receive_nil (s : State) : receive [] s = s := rfl

/-- A delivery read from its first byte on (43_session_environment.md R73, R77). -/
theorem receive_cons (b : Byte) (t : List Byte) (s : State) :
    receive (b :: t) s =
      if awaitsHandshake s && isHandshake b && t.any isHandshake then receive t s else receive t (receiveByte b s) := rfl

@[simp] theorem receive_singleton (b : Byte) (s : State) : receive [b] s = receiveByte b s := by simp [receive_cons]

/-- No sender waits for the handshake: every byte is read. -/
theorem receive_cons_of_not_awaits {s : State} (h : awaitsHandshake s = false) (b : Byte) (t : List Byte) :
    receive (b :: t) s = receive t (receiveByte b s) := by simp [receive_cons, h]

theorem awaitsHandshake_of_session {s : State} {c : Session} (h : s.session = some c) :
    awaitsHandshake s = (c.phase == .awaitHandshake) := by simp [awaitsHandshake, h]

theorem awaitsHandshake_none {s : State} (h : s.session = none) : awaitsHandshake s = false := by
  simp [awaitsHandshake, h]

/-- Nothing leads back to `AwaitHandshake` (43_session_environment.md sections 4 and 5). -/
theorem receiveByte_not_awaits {s : State} (h : awaitsHandshake s = false) (b : Byte) :
    awaitsHandshake (receiveByte b s) = false := by
  unfold receiveByte
  split
  · exact h
  · rename_i c hc
    rw [awaitsHandshake_of_session hc] at h
    split <;> rename_i hp <;> simp only [hp] at h
    · exact absurd h (by decide)
    · unfold ackByte onNoAck onAck nextBlock sendEot sendBlock
      split <;> (try split_ifs) <;> simp [awaitsHandshake, hp]
    · unfold eotAckByte strayEotReply onNoEotAck
      split <;> (try split_ifs) <;> simp [awaitsHandshake, hc, hp]
    · unfold initByte
      split <;> simp [awaitsHandshake, hc, hp]
    · split
      · unfold firstByte refuseBlock failAttempt afterBlock
        split <;> (try split_ifs) <;> simp [awaitsHandshake, hc, hp]
      · unfold blockByte blockRead judgeBlock acceptBlock refuseBlock failAttempt afterBlock
        dsimp only
        split_ifs <;> simp [awaitsHandshake, hp]
    · simp [awaitsHandshake, hc, hp]

/-- Reading two deliveries one after the other is reading them as one, where no sender waits for the handshake. -/
theorem receive_append {s : State} (h : awaitsHandshake s = false) (l k : List Byte) :
    receive (l ++ k) s = receive k (receive l s) := by
  induction l generalizing s with
  | nil => rfl
  | cons b t ih =>
    rw [List.cons_append, receive_cons_of_not_awaits h, receive_cons_of_not_awaits h, ih (receiveByte_not_awaits h b)]

/-- Of several handshake bytes in one delivery to a sender that waits for the handshake the last counts
(43_session_environment.md R77; log entry 27). -/
theorem receive_handshakes {s : State} (h : awaitsHandshake s = true) {l : List Byte}
    (hl : ∀ x ∈ l, isHandshake x = true) {b : Byte} (hb : isHandshake b = true) :
    receive (l ++ [b]) s = receiveByte b s := by
  induction l with
  | nil => simp
  | cons x t ih =>
    rw [List.cons_append, receive_cons, h, hl x (by simp)]
    simp [hb, ih fun y hy => hl y (by simp [hy])]

theorem receive_noSession {s : State} (h : s.session = none) (l : List Byte) : receive l s = s := by
  induction l with
  | nil => rfl
  | cons b t ih =>
    rw [receive_cons_of_not_awaits (awaitsHandshake_none h), show receiveByte b s = s by simp [receiveByte, h], ih]

/-- An ended session reads nothing more (43_session_environment.md R85). -/
theorem receive_ended {s : State} {c : Session} {e : SessionEnd} (h : s.session = some c) (hp : c.phase = .ended e)
    (l : List Byte) : receive l s = s := by
  induction l with
  | nil => rfl
  | cons b t ih =>
    rw [receive_cons_of_not_awaits (by simp [awaitsHandshake, h, hp]),
      show receiveByte b s = s by simp [receiveByte, h, hp], ih]

/-- What a receiver that waits for a block does with one byte. -/
theorem receiveByte_awaitBlock {s : State} {c : Session} (h : s.session = some c) (hp : c.phase = .awaitBlock)
    (b : Byte) :
    receiveByte b s = if c.partialBlock = [] then firstByte b c s else blockByte b c s := by
  simp [receiveByte, h, hp]

/-- Reading the rest of a block: while the block is not whole the bytes are kept, and the last one brings it to be
stored and judged (43_session_environment.md R82). -/
theorem receive_restOfBlock {l : List Byte} : ∀ {s : State} {c : Session}, l ≠ [] → s.session = some c →
    c.phase = .awaitBlock → c.partialBlock ≠ [] →
    c.partialBlock.length + l.length = flen (sizeOfMarker (c.partialBlock.getD 0 0x00#8)) c.mode →
    ∃ c' s', receive l s = blockRead (c.partialBlock ++ l) c' s' ∧
      c' = { c with partialBlock := c.partialBlock ++ l.dropLast } ∧ s' = { s with session := some c' } := by
  induction l with
  | nil => intro _ _ h; exact absurd rfl h
  | cons b t ih =>
    intro s c _ hs hp hne hlen
    have hhead : (c.partialBlock ++ [b]).getD 0 0x00#8 = c.partialBlock.getD 0 0x00#8 := by
      cases hc : c.partialBlock with
      | nil => exact absurd hc hne
      | cons x y => rfl
    rw [receive_cons_of_not_awaits (by simp [awaitsHandshake, hs, hp]), receiveByte_awaitBlock hs hp, if_neg hne, blockByte, hhead]
    simp only [List.length_append, List.length_cons, List.length_nil] at hlen ⊢
    cases t with
    | nil =>
      rw [if_neg (by simp only [List.length_nil] at hlen; omega)]
      refine ⟨c, s, rfl, by simp, ?_⟩
      simp [← hs]
    | cons d t =>
      rw [if_pos (by simp only [List.length_cons] at hlen; omega)]
      obtain ⟨c', s', h1, h2, h3⟩ := ih (s := setSession { c with partialBlock := c.partialBlock ++ [b] } s)
        (c := { c with partialBlock := c.partialBlock ++ [b] }) (by simp) rfl hp (by simp)
        (by simp only [hhead, List.length_append, List.length_cons, List.length_nil] at hlen ⊢; omega)
      refine ⟨c', s', ?_, ?_, ?_⟩
      · rw [h1]; simp
      · rw [h2]; simp
      · rw [h3]; simp [setSession]

end Sys2Proof.Machine
end

