-- ==== Sys2Proof/Laws/Frames.lean ====
section
/-! SUPPORT. Frames: what the table's rows run, the bytes of a frame, the frame an `ENC` leaves in FB, and the control
bytes read back from their classification. -/

namespace Sys2Proof.Machine

/-! ### What the rows run -/

@[simp] theorem exec_detInstr (m : Mode) (s : State) : exec (detInstr m) s = .next (detect m s) := by
  cases m <;> rfl

@[simp] theorem exec_encInstr (z : BlockSize) (m : Mode) (s : State) :
    exec (encInstr z m) s = .next (encodeCommand z m s) := by
  cases z <;> cases m <;> rfl

@[simp] theorem exec_decInstr (z : BlockSize) (m : Mode) (s : State) :
    exec (decInstr z m) s = .next (decodeCommand z m s) := by
  cases z <;> cases m <;> rfl

@[simp] theorem exec_frameInstr (z : BlockSize) (m : Mode) (q c : Byte) (p : List Byte) (e : Half) (s : State) :
    exec (frameInstr z m q c p e) s = .next (frameArrives z m (encode (frameInstr z m q c p e)) s) := by
  cases z <;> cases m <;> rfl

/-! ### The bytes of a frame -/

/-- The layout of a frame on the wire (30_encoding.md R34). -/
theorem encode_frameInstr (z : BlockSize) (m : Mode) (q c : Byte) (p : List Byte) (e : Half) :
    encode (frameInstr z m q c p e) = [marker z, q, c] ++ p ++ trailerBytes m e := by
  cases z <;> cases m <;> simp [frameInstr, encode, trailerBytes]

theorem length_encode_frameInstr (z : BlockSize) (m : Mode) (q c : Byte) (p : List Byte) (e : Half)
    (h : p.length = bs z) : (encode (frameInstr z m q c p e)).length = flen z m := by
  rw [encode_frameInstr]; simp [flen, h]; omega

theorem sizeOfMarker_marker (z : BlockSize) : sizeOfMarker (marker z) = z := by cases z <;> rfl

/-- `255 - seq` on a byte never borrows (30_encoding.md R38). -/
theorem complement_toNat (q : Byte) : (255#8 - q).toNat = 255 - q.toNat := by
  have := q.isLt
  rw [BitVec.toNat_sub]; simp; omega

theorem flen_toNat (z : BlockSize) (m : Mode) : (BitVec.ofNat 16 (flen z m)).toNat = flen z m := by
  cases z <;> cases m <;> rfl

theorem bs_toNat (z : BlockSize) : (BitVec.ofNat 16 (bs z)).toNat = bs z := by cases z <;> rfl

theorem hiByte_half (a b : Byte) : hiByte (half a b) = a := by
  unfold hiByte half
  ext i hi
  simp only [BitVec.getElem_extractLsb', BitVec.getLsbD_append]
  simp; rw [BitVec.getLsbD_eq_getElem]

theorem loByte_half (a b : Byte) : loByte (half a b) = b := by
  unfold loByte half
  ext i hi
  simp only [BitVec.getElem_extractLsb', BitVec.getLsbD_append]
  simp [show i < 8 by omega]

/-! ### The frame an `ENC` leaves -/

/-- FB read back after an `ENC` that succeeds (40_frame_encode.md R49). -/
theorem encodeCommand_readRange (z : BlockSize) (m : Mode) (s : State) (h : s.len.toNat ≤ bs z) (d : Nat) :
    (encodeCommand z m s).fb.readRange d 0 (flen z m) =
      [marker z, s.seq, 255#8 - s.seq] ++ padded z (s.fb.readRange (d + 3) payloadBase s.len.toNat) ++
        trailerBytes m (det m (padded z (s.fb.readRange s.draws payloadBase s.len.toNat))) := by
  rcases encodeCommand_cases z m s with ⟨_, e⟩ | ⟨_, e⟩
  · omega
  rw [e]; simp only [complete_fb]
  rw [show flen z m = 3 + bs z + tl m from rfl, readRange_add, readRange_add,
    readRange_writeRange_below _ _ _ (by simp [payloadBase])]
  congr 1
  · congr 1
    · unfold filledFb
      rw [readRange_writeRange_below _ _ _ (by simp [payloadBase])]
      exact readRange_writeRange_self s.fb d 0 [marker z, s.seq, 255#8 - s.seq]
    · rw [readRange_writeRange_below _ _ _ (by simp [payloadBase])]
      exact filledFb_payload z s (d + 3) h
  · simpa [payloadBase] using readRange_writeRange_self (filledFb z s.toXfc) (d + (3 + bs z)) (payloadBase + bs z)
      (trailerBytes m (det m (padded z (s.fb.readRange s.draws payloadBase s.len.toNat))))

/-! ### Control bytes read back -/

theorem eq_of_ctl_soh : ∀ b, ctl b = .soh → b = byteSoh := by decide +kernel
theorem eq_of_ctl_stx : ∀ b, ctl b = .stx → b = byteStx := by decide +kernel

/-! ### Timeouts one after another -/

theorem silence_succ (n : Nat) (s : State) : silence (n + 1) s = onTimeout (silence n s) := by
  induction n generalizing s with
  | zero => rfl
  | succ n ih => rw [silence, ih]; rfl

end Sys2Proof.Machine
end

