-- ==== Sys2Proof/Laws/PerInstr.lean ====
section
/-! SUPPORT. The per-instruction family `EncodedLength`: a well-formed instruction encodes to as many bytes as its row of
the opcode table has ("width_bits" over 8). -/

namespace Sys2Proof.Laws.EncodedLength

/-- The row's width in bytes. -/
def bytesOf : Instr → Nat
  | .f128Cs _ _ _ _ => 132
  | .f128Crc _ _ _ _ => 133
  | .f1kCs _ _ _ _ => 1028
  | .f1kCrc _ _ _ _ => 1029
  | _ => 1

def Statement (i : Instr) : Prop := i.wf = true → (encode i).length = bytesOf i

theorem detCs : Statement .detCs := fun _ => rfl
theorem detCrc : Statement .detCrc := fun _ => rfl
theorem enc128Cs : Statement .enc128Cs := fun _ => rfl
theorem enc128Crc : Statement .enc128Crc := fun _ => rfl
theorem enc1kCs : Statement .enc1kCs := fun _ => rfl
theorem enc1kCrc : Statement .enc1kCrc := fun _ => rfl
theorem dec128Cs : Statement .dec128Cs := fun _ => rfl
theorem dec128Crc : Statement .dec128Crc := fun _ => rfl
theorem dec1kCs : Statement .dec1kCs := fun _ => rfl
theorem dec1kCrc : Statement .dec1kCrc := fun _ => rfl
theorem illegalDet (m : BitVec 1) : Statement (.illegalDet m) := fun _ => rfl
theorem illegalOp3 (sm : BitVec 2) : Statement (.illegalOp3 sm) := fun _ => rfl
theorem illegalBit4 (low : BitVec 4) : Statement (.illegalBit4 low) := fun _ => rfl
theorem illegalBit5 (low : BitVec 5) : Statement (.illegalBit5 low) := fun _ => rfl
theorem illegalBit6 (low : BitVec 6) : Statement (.illegalBit6 low) := fun _ => rfl
theorem illegalBit7 (low : BitVec 7) : Statement (.illegalBit7 low) := fun _ => rfl
theorem f128Cs (seq cmpl : Byte) (payload : List Byte) (detection : Byte) :
    Statement (.f128Cs seq cmpl payload detection) := by
  intro h; simp [Instr.wf] at h; simp [encode, bytesOf, h]
theorem f128Crc (seq cmpl : Byte) (payload : List Byte) (detection : Half) :
    Statement (.f128Crc seq cmpl payload detection) := by
  intro h; simp [Instr.wf] at h; simp [encode, bytesOf, h]
theorem f1kCs (seq cmpl : Byte) (payload : List Byte) (detection : Byte) :
    Statement (.f1kCs seq cmpl payload detection) := by
  intro h; simp [Instr.wf] at h; simp [encode, bytesOf, h]
theorem f1kCrc (seq cmpl : Byte) (payload : List Byte) (detection : Half) :
    Statement (.f1kCrc seq cmpl payload detection) := by
  intro h; simp [Instr.wf] at h; simp [encode, bytesOf, h]
theorem soh : Statement .soh := fun _ => rfl
theorem stx : Statement .stx := fun _ => rfl
theorem eot : Statement .eot := fun _ => rfl
theorem ack : Statement .ack := fun _ => rfl
theorem nak : Statement .nak := fun _ => rfl
theorem can : Statement .can := fun _ => rfl
theorem crcreq : Statement .crcreq := fun _ => rfl
theorem pad : Statement .pad := fun _ => rfl

end Sys2Proof.Laws.EncodedLength
end

