-- ==== Sys2Proof/Tests/Slice0.lean ====
section
/-! SUPPORT. Tests: the checks of WellFormed refuse, a word of every row decodes, one or two steps of every instruction
on the spec's own vectors (95_test_vectors.md and the examples of the rules), and a witness for every statement with
hypotheses. -/

namespace Sys2Proof.Machine.Tests

-- One theorem at a time: elaborated at once, these many kernel evaluations take a thread each.
set_option Elab.async false

/-! ### Helpers -/

/-- The bytes of "Hello" (95_test_vectors.md). -/
def hello : List Byte := [0x48#8, 0x65#8, 0x6C#8, 0x6C#8, 0x6F#8]

/-- The bytes of "123456789" (42_error_detector.md R68). -/
def digits : List Byte := [0x31#8, 0x32#8, 0x33#8, 0x34#8, 0x35#8, 0x36#8, 0x37#8, 0x38#8, 0x39#8]

/-- A 128-byte payload of pad bytes. -/
def pads : List Byte := List.replicate 128 0x1A#8

/-- After reset, `LOAD 3, P`, `WRREG SEQ, q`, `WRREG LEN, len(P)`. -/
def supplied (p : List Byte) (q : Byte) : State :=
  { State.reset with fb := cells 3 p, seq := q, len := BitVec.ofNat 16 p.length }

/-- After reset, `LOAD 0, R`, `WRREG LEN, len(R)`. -/
def stored (r : List Byte) : State := { State.reset with fb := cells 0 r, len := BitVec.ofNat 16 r.length }

/-- After reset, `WRREG LEN, n`. -/
def withLen (n : Half) : State := { State.reset with len := n }

/-- After reset, one input pending. -/
def pending (i : Input) : State := { State.reset with inputs := [i] }

/-- The instruction runs and the next state shows this. -/
def shows (o : Host.Outcome State Fault Refusal) (f : State → Bool) : Bool :=
  match o with
  | .next t => f t
  | .fault _ => false
  | .refused _ => false

def params : Params where
  retryLimit := 2
  timeout := 10
  handshakeInterval := 3
  crcFallback := 1
  emptyAsBlock := false
  strayNaks := true
  eotStrayResends := true
  timeoutNaks := true
  declaredSize := none

/-- A sender with one byte to send. -/
def sending (ph : Phase) : Session := newSession .sender params .b128 true [0x41#8] ph

/-- A receiver in checksum mode. -/
def receiving (ph : Phase) : Session := { newSession .receiver params .b128 true [] ph with attempts := 1 }

/-- After reset, a session. -/
def inSession (c : Session) : State := { State.reset with session := some c }

/-- "Hello" as block 1 in checksum mode (40_frame_encode.md R50). -/
def helloFrame : List Byte := [0x01#8, 0x01#8, 0xFE#8] ++ hello ++ List.replicate 123 0x1A#8 ++ [0x72#8]

/-! ### WellFormed: a payload that is not of its format's length is refused (10_state.md R18) -/

theorem test_wf_f128Cs_short : (Instr.f128Cs 1#8 0xFE#8 (List.replicate 127 0#8) 0#8).wf = false := by decide +kernel
theorem test_wf_f128Crc_long : (Instr.f128Crc 1#8 0xFE#8 (List.replicate 129 0#8) 0#16).wf = false := by decide +kernel
theorem test_wf_f1kCs_other_size : (Instr.f1kCs 1#8 0xFE#8 (List.replicate 128 0#8) 0#8).wf = false := by decide +kernel
theorem test_wf_f1kCrc_empty : (Instr.f1kCrc 1#8 0xFE#8 [] 0#16).wf = false := by decide

/-! ### Decode: words written out from 30_encoding.md R32, R35, R39, R43, R44 -/

theorem test_decode_commands :
    decodeCmd 0b0000_0000#8 = .detCs ∧ decodeCmd 0b0000_0001#8 = .detCrc ∧
    decodeCmd 0b0000_0100#8 = .enc128Cs ∧ decodeCmd 0b0000_0101#8 = .enc128Crc ∧
    decodeCmd 0b0000_0110#8 = .enc1kCs ∧ decodeCmd 0b0000_0111#8 = .enc1kCrc ∧
    decodeCmd 0b0000_1000#8 = .dec128Cs ∧ decodeCmd 0b0000_1001#8 = .dec128Crc ∧
    decodeCmd 0b0000_1010#8 = .dec1kCs ∧ decodeCmd 0b0000_1011#8 = .dec1kCrc := by decide

theorem test_decode_reserved :
    decodeCmd 0x02#8 = .illegalDet 0#1 ∧ decodeCmd 0x03#8 = .illegalDet 1#1 ∧
    decodeCmd 0x0C#8 = .illegalOp3 0#2 ∧ decodeCmd 0x0F#8 = .illegalOp3 3#2 ∧
    decodeCmd 0x10#8 = .illegalBit4 0#4 ∧ decodeCmd 0x1F#8 = .illegalBit4 15#4 ∧
    decodeCmd 0x20#8 = .illegalBit5 0#5 ∧ decodeCmd 0x3F#8 = .illegalBit5 31#5 ∧
    decodeCmd 0x40#8 = .illegalBit6 0#6 ∧ decodeCmd 0x7F#8 = .illegalBit6 63#6 ∧
    decodeCmd 0x80#8 = .illegalBit7 0#7 ∧ decodeCmd 0xFF#8 = .illegalBit7 127#7 := by decide

theorem test_decode_control :
    decode .wire [0x01#8] = .ok .soh ∧ decode .wire [0x02#8] = .ok .stx ∧ decode .wire [0x04#8] = .ok .eot ∧
    decode .wire [0x06#8] = .ok .ack ∧ decode .wire [0x15#8] = .ok .nak ∧ decode .wire [0x18#8] = .ok .can ∧
    decode .wire [0x43#8] = .ok .crcreq ∧ decode .wire [0x1A#8] = .ok .pad := by decide

theorem test_decode_refused :
    decode .wire [] = .error .empty ∧ decode .wire [0x00#8] = .error (.otherByte 0x00#8) ∧
    decode .wire [0x01#8, 0x02#8] = .error (.badLength 2) ∧ decode .command [] = .error (.notOneByte 0) := by decide

/-- 95_test_vectors.md V-E1: a frame of each format, its fields where R34 puts them. -/
theorem test_decode_f128Cs :
    decode .wire ([0x01#8, 0x05#8, 0xFA#8] ++ pads ++ [0x9C#8]) = .ok (.f128Cs 0x05#8 0xFA#8 pads 0x9C#8) := by
  decide +kernel

theorem test_decode_f128Crc :
    decode .wire ([0x01#8, 0x05#8, 0xFA#8] ++ pads ++ [0xF8#8, 0xB0#8]) =
      .ok (.f128Crc 0x05#8 0xFA#8 pads 0xF8B0#16) := by decide +kernel

theorem test_decode_f1kCs :
    decode .wire ([0x02#8, 0x05#8, 0xFA#8] ++ List.replicate 1024 0x55#8 ++ [0x9C#8]) =
      .ok (.f1kCs 0x05#8 0xFA#8 (List.replicate 1024 0x55#8) 0x9C#8) := by decide +kernel

theorem test_decode_f1kCrc :
    decode .wire ([0x02#8, 0x05#8, 0xFA#8] ++ List.replicate 1024 0x55#8 ++ [0x12#8, 0x34#8]) =
      .ok (.f1kCrc 0x05#8 0xFA#8 (List.replicate 1024 0x55#8) 0x1234#16) := by decide +kernel

/-- The marker of the other size makes a frame's length no format of its own (30_encoding.md R45). -/
theorem test_decode_wrong_marker :
    decode .wire ([0x02#8, 0x05#8, 0xFA#8] ++ pads ++ [0x9C#8]) = .error (.badMarker 0x02#8) := by decide +kernel

/-- A table word, bit 0 the least significant bit of the first byte: SOH, 5, 0xFA, then zeros. -/
theorem test_decodeTableWord_frame :
    decodeTableWord 1056 0xFA0501 = some (.f128Cs 0x05#8 0xFA#8 (List.replicate 128 0x00#8) 0x00#8) := by
  decide +kernel

theorem test_withFetchWord_runs :
    step (State.reset.withFetchWord 8 0x84) =
      .next { State.reset with cmd := 0x84#8, status := 0x85#8 } := rfl

/-! ### One step of each instruction -/

/-- 42_error_detector.md R67. -/
theorem test_detCs_hello : shows (exec .detCs (supplied hello 0x00#8)) (fun t => t.status == 0x80#8 && t.det == 0x00F4#16 && t.outlen == 0#16) := by
  decide +kernel

/-- 42_error_detector.md R67: `L = 1025` is the first length refused. -/
theorem test_detCs_too_long : shows (exec .detCs (withLen 1025#16)) (fun t => t.status == 0x81#8 && t.det == 0#16) := by
  decide +kernel

/-- 42_error_detector.md R68. -/
theorem test_detCrc_digits : shows (exec .detCrc (supplied digits 0x00#8)) (fun t => t.status == 0x80#8 && t.det == 0x31C3#16) := by
  decide +kernel

/-- 42_error_detector.md R68: `LEN = 0` gives `DET = 0`. -/
theorem test_detCrc_empty : shows (exec .detCrc State.reset) (fun t => t.status == 0x80#8 && t.det == 0#16) := by
  decide +kernel

/-- 40_frame_encode.md R50. -/
theorem test_enc128Cs_hello : shows (exec .enc128Cs (supplied hello 0x01#8))
    (fun t => t.det == 0x0072#16 && t.outlen == 132#16 && t.fb.byteAt? 2 == some 0xFE#8 && t.fb.byteAt? 7 == some 0x6F#8 &&
      t.fb.byteAt? 8 == some 0x1A#8 && t.fb.byteAt? 131 == some 0x72#8 && t.fb.byteAt? 132 == none) := by
  decide +kernel

/-- 40_frame_encode.md R49: `L = 129` is the first length refused. -/
theorem test_enc128Cs_too_long : shows (exec .enc128Cs (withLen 129#16)) (fun t => t.status == 0x81#8 && t.fb == []) := by
  decide +kernel

/-- 40_frame_encode.md R51. -/
theorem test_enc128Crc_hello : shows (exec .enc128Crc (supplied hello 0x01#8))
    (fun t => t.det == 0x1443#16 && t.outlen == 133#16 && t.fb.byteAt? 131 == some 0x14#8 && t.fb.byteAt? 132 == some 0x43#8) := by
  decide +kernel

/-- 40_frame_encode.md R51: the empty payload with sequence 0. -/
theorem test_enc128Crc_empty : shows (exec .enc128Crc State.reset)
    (fun t => t.det == 0xF8B0#16 && t.fb.byteAt? 1 == some 0x00#8 && t.fb.byteAt? 2 == some 0xFF#8) := by
  decide +kernel

/-- 40_frame_encode.md R52: the marker, and where the padding ends. -/
theorem test_enc1kCs_empty : shows (exec .enc1kCs State.reset)
    (fun t => t.status == 0x80#8 && t.outlen == 1028#16 && t.fb.byteAt? 0 == some 0x02#8 && t.fb.byteAt? 1026 == some 0x1A#8) := by
  decide +kernel

/-- 40_frame_encode.md R52. -/
theorem test_enc1kCs_too_long : shows (exec .enc1kCs (withLen 1025#16)) (fun t => t.status == 0x81#8) := by decide +kernel

/-- 40_frame_encode.md R53, 42_error_detector.md R71: the all-padding block. -/
theorem test_enc1kCrc_empty : ∃ t, exec .enc1kCrc State.reset = .next t ∧ t.det = 0xFC96#16 ∧ t.outlen = 1029#16 := by
  rcases encodeCommand_cases .b1k .crc State.reset with ⟨h, _⟩ | ⟨_, e⟩
  · exact absurd h (by decide)
  · refine ⟨_, rfl, ?_, ?_⟩
    · rw [e]
      have h0 : State.reset.fb.readRange State.reset.draws payloadBase State.reset.len.toNat = [] := rfl
      have h : crc16 (padded .b1k []) = 0xFC96#16 := by decide +kernel
      rw [complete_det, h0, det, h]
    · rw [e]; rfl

/-- 40_frame_encode.md R53. -/
theorem test_enc1kCrc_too_long : shows (exec .enc1kCrc (withLen 0xFFFF#16)) (fun t => t.status == 0x81#8) := by
  decide +kernel

/-- 41_frame_decode.md R56. -/
theorem test_dec128Cs_hello : shows (exec .dec128Cs (stored helloFrame))
    (fun t => t.status == 0x80#8 && t.rseq == 0x01#8 && t.det == 0x0072#16 && t.outlen == 128#16) := by decide +kernel

/-- 41_frame_decode.md R56: the same with `FB[131] = 73`. -/
theorem test_dec128Cs_bad_trailer : shows (exec .dec128Cs (stored (helloFrame.dropLast ++ [0x73#8])))
    (fun t => t.status == 0x83#8 && t.rseq == 0x00#8 && t.det == 0#16 && t.outlen == 0#16) := by decide +kernel

/-- 41_frame_decode.md R57. -/
theorem test_dec128Crc_hello : shows (exec .dec128Crc (stored (helloFrame.dropLast ++ [0x14#8, 0x43#8])))
    (fun t => t.status == 0x80#8 && t.rseq == 0x01#8 && t.det == 0x1443#16) := by decide +kernel

/-- 41_frame_decode.md R57: the trailer bytes swapped. -/
theorem test_dec128Crc_swapped : shows (exec .dec128Crc (stored (helloFrame.dropLast ++ [0x43#8, 0x14#8])))
    (fun t => t.status == 0x84#8) := by decide +kernel

/-- 41_frame_decode.md R58: one byte short. -/
theorem test_dec1kCs_short : shows (exec .dec1kCs (withLen 1027#16)) (fun t => t.status == 0x82#8 && t.draws == 0) := by
  decide +kernel

/-- 41_frame_decode.md R55: the marker of the other size. -/
theorem test_dec1kCs_other_marker :
    shows (exec .dec1kCs { withLen 1028#16 with fb := [(0, 0x01#8)] }) (fun t => t.status == 0x82#8) := by
  decide +kernel

/-- 41_frame_decode.md R55: `FB[1] = FB[2] = 0xFF` sums to 510, which is 254 modulo 256. -/
theorem test_dec1kCrc_bad_complement :
    shows (exec .dec1kCrc { withLen 1029#16 with fb := [(0, 0x02#8), (1, 0xFF#8), (2, 0xFF#8)] })
      (fun t => t.status == 0x82#8) := by decide +kernel

/-- 41_frame_decode.md R59: a checksum frame's length under `DEC.1K.CRC`. -/
theorem test_dec1kCrc_other_mode : shows (exec .dec1kCrc (withLen 1028#16)) (fun t => t.status == 0x82#8) := by
  decide +kernel

/-- 30_encoding.md R44. -/
theorem test_reserved :
    [Instr.illegalDet 1#1, .illegalOp3 2#2, .illegalBit4 9#4, .illegalBit5 17#5, .illegalBit6 33#6, .illegalBit7 4#7].all
      (fun i => shows (exec i (withLen 5#16)) (fun t => t == { withLen 5#16 with status := 0x85#8 })) = true := by
  decide +kernel

/-- 30_encoding.md R47: without a session the frame is presented to the block. -/
theorem test_f128Cs_hello : shows (exec (.f128Cs 0x01#8 0xFE#8 (hello ++ List.replicate 123 0x1A#8) 0x72#8) State.reset)
    (fun t => t.status == 0x80#8 && t.cmd == 0x08#8 && t.len == 132#16 && t.rseq == 0x01#8 && t.fb.byteAt? 3 == some 0x48#8) := by
  decide +kernel

theorem test_f128Crc_bad_complement : shows (exec (.f128Crc 0x80#8 0x80#8 pads 0xF8B0#16) State.reset)
    (fun t => t.status == 0x82#8 && t.cmd == 0x09#8 && t.len == 133#16) := by decide +kernel

theorem test_f1kCs_bad_complement : shows (exec (.f1kCs 0x01#8 0xFF#8 (List.replicate 1024 0x1A#8) 0x00#8) State.reset)
    (fun t => t.status == 0x82#8 && t.cmd == 0x0A#8 && t.len == 1028#16) := by decide +kernel

theorem test_f1kCrc_bad_complement : shows (exec (.f1kCrc 0x01#8 0xFF#8 (List.replicate 1024 0x1A#8) 0xFC96#16) State.reset)
    (fun t => t.status == 0x82#8 && t.cmd == 0x0B#8 && t.len == 1029#16) := by decide +kernel

/-- 43_session_environment.md R83: the block a receiver expects, and its ACK. -/
theorem test_f128Cs_received :
    shows (exec (.f128Cs 0x01#8 0xFE#8 (hello ++ List.replicate 123 0x1A#8) 0x72#8) (inSession (receiving .awaitBlock)))
      (fun t => t.wireOut == [0x06#8] && (t.session.map (·.sequence)) == some 0x02#8 &&
        (t.session.map (·.sink.length)) == some 128) := by decide +kernel

/-- 43_session_environment.md R82: the first byte of a block. -/
theorem test_soh_starts_block : shows (exec .soh (inSession (receiving .awaitBlock)))
    (fun t => (t.session.map (·.partialBlock)) == some [0x01#8]) := by decide +kernel

theorem test_stx_starts_block : shows (exec .stx (inSession (receiving .init)))
    (fun t => (t.session.map (·.partialBlock)) == some [0x02#8] && (t.session.map (·.phase)) == some .awaitBlock) := by
  decide +kernel

/-- 43_session_environment.md R84. -/
theorem test_eot_done : shows (exec .eot (inSession (receiving .awaitBlock)))
    (fun t => t.wireOut == [0x06#8] && (t.session.map (·.phase)) == some (.ended .done)) := by decide +kernel

/-- 43_session_environment.md R79: the source is exhausted, EOT goes out. -/
theorem test_ack_sends_eot : shows (exec .ack (inSession (sending .awaitAck)))
    (fun t => t.wireOut == [0x04#8] && (t.session.map (·.phase)) == some .awaitEotAck &&
      (t.session.map (·.bytesTransferred)) == some 1) := by decide +kernel

/-- 43_session_environment.md R79: the same frame again, here two bytes as they stand in FB. -/
theorem test_nak_resends :
    shows (exec .nak { inSession (sending .awaitAck) with fb := [(0, 0x58#8), (1, 0x59#8)], outlen := 2#16 })
      (fun t => t.wireOut == [0x58#8, 0x59#8] && (t.session.map (·.attempts)) == some 1) := by decide +kernel

/-- 43_session_environment.md R77: the first block goes out with sequence 1. -/
theorem test_nak_handshake : shows (exec .nak (inSession (sending .awaitHandshake)))
    (fun t => t.wireOut.length == 132 && t.cmd == 0x04#8 && t.seq == 0x01#8 && t.len == 1#16) := by decide +kernel

theorem test_crcreq_handshake : shows (exec .crcreq (inSession (sending .awaitHandshake)))
    (fun t => t.cmd == 0x05#8 && t.outlen == 133#16 && (t.session.map (·.mode)) == some .crc) := by decide +kernel

/-- 43_session_environment.md R77: repeated handshake bytes in one delivery start one transfer, with one frame. -/
theorem test_repeated_handshake :
    shows (step { inSession (sending .awaitHandshake) with inputs := [.wire [0x43#8, 0x15#8, 0x43#8]] })
      (fun t => t.wireOut.length == 133 && (t.session.map (·.mode)) == some .crc &&
        (t.session.map (·.attempts)) == some 0) := by decide +kernel

/-- 43_session_environment.md R82, R83: a 1K block's marker in a session of 128-byte blocks, at the last byte. -/
theorem test_other_size_refused :
    shows (exec .can (inSession { receiving .awaitBlock with attempts := 0, partialBlock := 0x02#8 :: List.replicate 1026 0x1A#8 }))
      (fun t => t.status == 0x82#8 && t.wireOut == [0x15#8] && (t.session.map (·.attempts)) == some 1 &&
        (t.session.map (·.blockSize)) == some .b128) := by decide +kernel

/-- 43_session_environment.md R85. -/
theorem test_can_aborts : shows (exec .can (inSession (sending .awaitAck)))
    (fun t => t.wireOut == [] && (t.session.map (·.phase)) == some (.ended .peerCancelled)) := by decide +kernel

/-- 30_encoding.md R33, 43_session_environment.md R79: the pad byte is "any other byte". -/
theorem test_pad_is_no_ack : shows (exec .pad (inSession { sending .awaitAck with attempts := 1 }))
    (fun t => (t.session.map (·.phase)) == some (.ended (.retriesExhausted 0x01#8 (some 0x1A#8)))) := by decide +kernel

/-! ### Witnesses: hypotheses that hold together -/

theorem pads_length : pads.length = 128 := by decide +kernel

theorem helloFrame_length : helloFrame.length = 132 := by decide +kernel

theorem supplied_pads_len (q : Byte) : (supplied pads q).len.toNat = 128 := by
  show (BitVec.ofNat 16 pads.length).toNat = 128
  rw [pads_length]; rfl

theorem stored_hello_len : (stored helloFrame).len.toNat = 132 := by
  show (BitVec.ofNat 16 helloFrame.length).toNat = 132
  rw [helloFrame_length]; rfl

theorem written_cells (a : Nat) (l : List Byte) : Memory.written (cells a l) a l.length := by
  intro k h1 h2
  rw [byteAt?_cells, if_pos h1, List.getElem?_eq_getElem (by omega)]
  rfl

theorem supplied_pads_written (q : Byte) : (supplied pads q).fb.written 3 128 := by
  have h := written_cells 3 pads
  rwa [pads_length] at h

theorem stored_hello_written : (stored helloFrame).fb.written 0 132 := by
  have h := written_cells 0 helloFrame
  rwa [helloFrame_length] at h

theorem test_witness_ResetClearsTheBlock :
    ∃ s t : State, s.inputs = [.reset] ∧ step s = .next t ∧ statusDone s.status = true ∧ statusDone t.status = false :=
  ⟨{ pending .reset with status := 0x83#8 }, _, rfl, rfl, by decide, by decide⟩

/-- A state no reset gives: a command has completed, a receiver waits with part of a block read. -/
def busy : State :=
  { inSession { receiving .awaitBlock with partialBlock := [0x01#8, 0x01#8] } with
    fb := [(3, 0x1A#8), (1028, 0xFF#8)], status := 0x80#8, det := 0x1234#16, outlen := 1029#16
    inputs := [.wire [0xFE#8]] }

theorem test_witness_EveryStepKeepsTheInvariant : ∃ t, Inv busy ∧ step busy = .next t := by
  refine ⟨_, ⟨⟨by decide, .inr ⟨0#3, by decide, by decide⟩, by unfold outlenLegal; decide, fun h => absurd rfl h⟩, ?_⟩, rfl⟩
  intro c hc
  cases hc
  exact ⟨rfl, show 1 < 2 by decide, fun _ => ⟨rfl, .inl rfl, by decide⟩, fun _ => rfl⟩

theorem test_witness_AStepRunsTheDecodedInstruction :
    (pending (.wrreg (.cmd 0x0B#8))).inputs = [.wrreg (.cmd 0x0B#8)] ∧
    (pending (.wire [0x43#8])).inputs = [.wire [0x43#8]] ∧ decode .wire [0x43#8] = .ok .crcreq := by decide

theorem test_witness_NoCommandReadsTheResultRegisters : (Instr.illegalBit7 0#7).space = .command := by decide

theorem test_witness_EveryCommandCompletesAndErrorsArePrecise : Instr.dec1kCrc.space = .command := by decide

/-- The largest operand range of an `ENC.128`, in states that differ in every other respect. -/
theorem test_witness_ResultsDependOnTheOperandsAlone :
    ∃ s₁ s₂ t₁ t₂ : State, s₁ ≠ s₂ ∧ s₁.len = 128#16 ∧ s₁.len = s₂.len ∧ s₁.seq = s₂.seq ∧ s₁.fb.written 3 128 ∧
      (∀ a, 3 ≤ a → a < 131 → s₁.fb.byteAt? a = s₂.fb.byteAt? a) ∧
      exec .enc128Crc s₁ = .next t₁ ∧ exec .enc128Crc s₂ = .next t₂ :=
  ⟨supplied pads 0x07#8, { supplied pads 0x07#8 with status := 0x85#8, wireOut := [0x43#8] }, _, _, by decide +kernel,
    by decide +kernel, rfl, rfl, supplied_pads_written 0x07#8, fun _ _ _ => rfl, rfl, rfl⟩

theorem test_witness_DecodeOfEncodeIsTheInstruction :
    (Instr.f128Crc 0xFF#8 0x13#8 pads 0xABCD#16).wf = true ∧ (Instr.illegalBit7 127#7).wf = true := by decide +kernel

theorem test_witness_EncodeOfDecodeIsTheBytes :
    decode .command [0xFF#8] = .ok (.illegalBit7 127#7) ∧ decode .wire [0x1A#8] = .ok .pad := ⟨rfl, rfl⟩

theorem test_witness_ReservedCommandsEndInIllegalCommand :
    0x02#8 ∉ legalCommands ∧ 0x0C#8 ∉ legalCommands ∧ 0xFF#8 ∉ legalCommands ∧
      (pending (.wrreg (.cmd 0x0C#8))).inputs = [.wrreg (.cmd 0x0C#8)] := by decide

theorem test_witness_ChecksumIsTheSumModulo256 : [0x01#8, 0xFF#8].Perm [0xFF#8, 0x01#8] := by decide

theorem test_witness_CrcLaws : hello.length = [0#8, 0#8, 0#8, 0#8, 0xFF#8].length := by decide

theorem test_witness_DetectorCommandsGiveTheCode :
    (withLen 1024#16).len.toNat ≤ 1024 ∧ 1024 < (withLen 1025#16).len.toNat := by decide

theorem test_witness_EncodeGivesAValidBlock :
    bs .b128 < (List.replicate 129 0x00#8).length ∧ pads.length ≤ bs .b128 ∧
    bs .b1k < (List.replicate 1025 0x00#8).length ∧ (List.replicate 1024 0x00#8).length ≤ bs .b1k := by decide +kernel

theorem test_witness_SequenceAndComplementSumTo255 :
    (∃ f, encodeBlock 0xFF#8 [] .checksum .b128 = .ok f) ∧
    decodeBlock helloFrame .checksum .b128 = .ok (0x01#8, hello ++ List.replicate 123 0x1A#8) ∧
    (0x80#8).toNat + (0x80#8).toNat ≠ 255 := by
  refine ⟨⟨_, rfl⟩, by decide +kernel, by decide⟩

theorem test_witness_EncoderCommandsBuildTheFrame :
    bs .b128 < (withLen 129#16).len.toNat ∧ (withLen 128#16).len.toNat ≤ bs .b128 ∧
    bs .b1k < (withLen 1025#16).len.toNat ∧ (withLen 1024#16).len.toNat ≤ bs .b1k := by decide

theorem test_witness_EncoderCommandsComputeEncode :
    (supplied pads 0x01#8).len.toNat ≤ bs .b128 ∧
      (supplied pads 0x01#8).fb.written 3 (supplied pads 0x01#8).len.toNat := by
  rw [supplied_pads_len]
  exact ⟨le_refl _, supplied_pads_written 0x01#8⟩

theorem test_witness_EncodingAgainChangesNothing :
    ∃ t u, (supplied hello 0x00#8).fb.written 3 (supplied hello 0x00#8).len.toNat ∧
      exec (encInstr .b1k .crc) (supplied hello 0x00#8) = .next t ∧ exec (encInstr .b1k .crc) t = .next u :=
  ⟨_, _, written_cells 3 hello, rfl, rfl⟩

/-- Both clauses of the length, and a written frame. -/
theorem test_witness_DecoderCommandsJudgeTheFrame :
    (withLen 131#16).len.toNat ≠ 3 + bs .b128 + tl .checksum ∧
    (stored helloFrame).len.toNat = 3 + bs .b128 + tl .checksum ∧
    (stored helloFrame).fb.written 0 (3 + bs .b128 + tl .checksum) :=
  ⟨by decide, stored_hello_len, stored_hello_written⟩

theorem test_witness_DecoderCommandsComputeDecode :
    (stored helloFrame).fb.written 0 (stored helloFrame).len.toNat := by
  rw [stored_hello_len]; exact stored_hello_written

theorem test_witness_DecodeAcceptsExactlyTheFrames :
    decodeBlock helloFrame .checksum .b128 = .ok (0x01#8, hello ++ List.replicate 123 0x1A#8) ∧
    decodeBlock [] .crc .b1k = .error .frameError ∧ Mode.crc ≠ Mode.checksum := by
  refine ⟨by decide +kernel, by decide, by decide⟩

theorem test_witness_RoundTrip :
    pads.length ≤ bs .b128 ∧ (supplied pads 0xFF#8).len.toNat ≤ bs .b128 ∧
      (supplied pads 0xFF#8).fb.written 3 (supplied pads 0xFF#8).len.toNat := by
  rw [supplied_pads_len]
  exact ⟨by decide +kernel, le_refl _, supplied_pads_written 0xFF#8⟩

theorem test_witness_FrameBufferAccesses :
    (pending (.rdfb 1028)).inputs = [.rdfb 1028] ∧ (pending (.wrfb 1028 0x01#8)).inputs = [.wrfb 1028 0x01#8] ∧
    (pending (.rdfb 1029)).inputs = [.rdfb 1029] := by decide

theorem test_witness_RegisterAccesses :
    (pending (.rdreg 6)).inputs = [.rdreg 6] ∧ (pending (.wrreg (.seq 0xFF#8))).inputs = [.wrreg (.seq 0xFF#8)] ∧
    (pending (.wrreg (.status 0xFF#8))).inputs = [.wrreg (.status 0xFF#8)] ∧
    (pending (.rdreg (7 + 0))).inputs = [.rdreg 7] := by decide

/-- `ENCODE` and `DECODE` at their longest sequences; a `LOAD` past the end needs no hypothesis. -/
theorem test_witness_ShorthandsAreTheirExpansions :
    State.reset.fb.wf ∧ Shorthand.load 1028 [0x01#8, 0x02#8] ≠ .sendframe ∧
    (List.replicate 1026 0x00#8).length ≤ 1026 ∧ (List.replicate 1029 0x00#8).length ≤ 1029 := by
  refine ⟨nil_wf, by decide, ?_, ?_⟩ <;> decide +kernel

theorem test_witness_SendframeSendsTheFrameInOrder :
    ∃ s : State, s.inputs = [.shorthand .sendframe] ∧ s.outlen = 132#16 ∧ s.fb.written 0 s.outlen.toNat :=
  ⟨{ stored helloFrame with outlen := 132#16, inputs := [.shorthand .sendframe] }, rfl, rfl, stored_hello_written⟩

theorem test_witness_AFrameIsStoredAndJudged : State.reset.session = none ∧ pads.length = bs .b128 ∧
    (∃ r pay, decodeBlock (encode (frameInstr .b128 .checksum 0x01#8 0xFE#8 pads 0x0000#16)) .checksum .b128 =
      .ok (r, pay)) :=
  ⟨rfl, by decide +kernel, 0x01#8, pads, by decide +kernel⟩

theorem test_witness_AFrameInASessionIsReadByteByByte :
    (inSession (receiving .init)).session = some (receiving .init) := rfl

/-- A receiver whose size is fixed, and one whose first block sets it. -/
theorem test_witness_TheExpectedBlockIsAccepted :
    (receiving .awaitBlock).phase = .awaitBlock ∧ (receiving .awaitBlock).partialBlock = [] ∧
    (receiving .awaitBlock).mode = .checksum ∧ ((receiving .awaitBlock).sizeFixed = true → (receiving .awaitBlock).blockSize = .b128) ∧
    ({ receiving .awaitBlock with sizeFixed := false }.sizeFixed = true → (receiving .awaitBlock).blockSize = .b1k) ∧
    (receiving .awaitBlock).cancelPending = false ∧ pads.length = bs .b128 := by decide +kernel

theorem test_witness_ADuplicateIsAcknowledgedAndNotAppended :
    0xFF#8 = { receiving .awaitBlock with sequence := 0x00#8 }.sequence - 1#8 ∧
    0x00#8 = (receiving .awaitBlock).sequence - 1#8 := by decide

/-- A bad trailer, an attempt left and no attempt left. -/
theorem test_witness_ABadBlockIsRefused :
    (∀ pay, decodeBlock (encode (frameInstr .b128 .checksum 0x01#8 0xFE#8 pads 0x0001#16)) .checksum .b128 ≠
        .ok ((receiving .awaitBlock).sequence, pay) ∧
      decodeBlock (encode (frameInstr .b128 .checksum 0x01#8 0xFE#8 pads 0x0001#16)) .checksum .b128 ≠
        .ok ((receiving .awaitBlock).sequence - 1#8, pay)) ∧
    { receiving .awaitBlock with attempts := 0 }.attempts + 1 < params.retryLimit ∧
    params.retryLimit ≤ (receiving .awaitBlock).attempts + 1 := by
  have h : decodeBlock (encode (frameInstr .b128 .checksum 0x01#8 0xFE#8 pads 0x0001#16)) .checksum .b128 =
      .error .checksumError := by decide +kernel
  rw [h]
  exact ⟨fun _ => ⟨(by intro h; cases h), (by intro h; cases h)⟩, by decide, by decide⟩

/-- One byte read, and the last byte but one. -/
theorem test_witness_BytesInsideABlockAreData :
    [0x01#8].length + 1 < flen (sizeOfMarker 0x01#8) .checksum ∧
    (helloFrame.take 130).length + 1 < flen (sizeOfMarker ((helloFrame.take 130).getD 0 0x00#8)) .checksum := by
  decide +kernel

theorem test_witness_ControlBytesDoNothingToTheBlockAlone : State.reset.session = none := rfl

theorem test_witness_AMarkerStartsABlock :
    (receiving .awaitBlock).partialBlock = [] ∧ (receiving .awaitBlock).phase = .awaitBlock ∧
      (receiving .init).phase = .init := by decide

theorem test_witness_EotEndsTheTransfer :
    (inSession (receiving .awaitBlock)).session = some (receiving .awaitBlock) ∧
      (receiving .awaitBlock).phase = .awaitBlock ∧ (receiving .awaitBlock).partialBlock = [] := by decide

theorem test_witness_CanAbortsAtOnce :
    (∀ e, (sending .awaitEotAck).phase ≠ .ended e) ∧ (sending .awaitEotAck).partialBlock = [] ∧
      (sending (.ended .done)).phase = .ended .done := by
  refine ⟨?_, rfl, rfl⟩
  intro e h
  cases h

theorem test_witness_TheHandshakeStartsTheTransfer :
    (sending .awaitHandshake).phase = .awaitHandshake ∧ (sending .awaitHandshake).source ≠ [] ∧
      0 < (sending .awaitHandshake).params.retryLimit ∧ (sending .awaitHandshake).cancelPending = false := by decide

/-- Each phase; a parameter that refuses or resends and one that ignores; an attempt left and none. -/
theorem test_witness_StrayControlBytesAreIgnoredOrRefused :
    (receiving .awaitBlock).partialBlock = [] ∧ (receiving .awaitBlock).params.strayNaks = true ∧
    params.retryLimit ≤ (receiving .awaitBlock).attempts + 1 ∧ 0 + 1 < params.retryLimit ∧
    { params with strayNaks := false }.strayNaks = false ∧ (sending .awaitEotAck).params.eotStrayResends = true ∧
    { params with eotStrayResends := false }.eotStrayResends = false ∧ (receiving .awaitBlock).cancelPending = false := by
  decide

/-- A block left, and none left. -/
theorem test_witness_AckAdvancesTheSender :
    (sending .awaitAck).phase = .awaitAck ∧ 0 < (sending .awaitAck).params.retryLimit ∧
    (sending .awaitAck).cancelPending = false ∧ (sending .awaitAck).source.drop (bs .b128) = [] ∧
    (List.replicate 129 0x41#8).drop (bs .b128) ≠ [] := by decide +kernel

theorem test_witness_NakResendsTheSameBlock :
    0x44#8 ≠ 0x06#8 ∧ 0x44#8 ≠ 0x18#8 ∧ (sending .awaitAck).phase = .awaitAck ∧ (sending .awaitAck).attempts + 1 < params.retryLimit ∧
      params.retryLimit ≤ { sending .awaitAck with attempts := 1 }.attempts + 1 := by decide

theorem test_witness_ASilentPeerGetsExactlyTheBudget :
    (sending .awaitAck).attempts = 0 ∧ (sending .awaitAck).params.retryLimit = 1 + 1 ∧
      (sending .awaitAck).lastResponse = none ∧
      { stored helloFrame with outlen := 132#16 }.fb.written 0 132 :=
  ⟨rfl, rfl, rfl, stored_hello_written⟩

theorem test_witness_EotIsSentUntilAcknowledged :
    (sending .awaitEotAck).phase = .awaitEotAck ∧ (sending .awaitEotAck).attempts + 1 < params.retryLimit ∧
      params.retryLimit ≤ { sending .awaitEotAck with attempts := 1 }.attempts + 1 := by decide

theorem test_witness_TheHandshakeFallsBackToNak : sessionActive State.reset = false ∧ 0 < params.retryLimit := by decide

/-- Each of the three clauses. -/
theorem test_witness_CancellationWaitsForTheBlock :
    (sending .awaitAck).phase = .awaitAck ∧ { receiving .awaitBlock with partialBlock := [0x01#8] }.partialBlock ≠ [] ∧
    (receiving .init).phase ≠ .awaitAck ∧ ¬ ((receiving .init).partialBlock ≠ [] ∧ (receiving .init).phase = .awaitBlock) ∧
    { sending .awaitAck with cancelPending := true }.cancelPending = true := by decide

theorem test_witness_ALosslessTransferDeliversTheSource :
    ∃ s₁ r₁, 0 < params.retryLimit ∧ State.reset.wireOut = [] ∧ params.declaredSize = none ∧
      { params with declaredSize := some 5 }.declaredSize = some hello.length ∧
      1 = (if hello = [] ∧ params.emptyAsBlock = true then 1 else blockCount .b128 hello) ∧
      openSender params .b128 hello State.reset = .next s₁ ∧ openReceiver params none State.reset = .next r₁ :=
  ⟨_, _, by decide, rfl, rfl, rfl, by decide, rfl, rfl⟩

/-- An access that completes, one that faults, and one that runs a command. -/
theorem test_witness_AnAccessIsAStepOfTheBlockAlone :
    (pending (.rdfb 1028)).inputs = [(Access.rdfb 1028).input] ∧ (pending (.rdreg 7)).inputs = [(Access.rdreg 7).input] ∧
    (pending (.wrreg (.cmd 0x04#8))).inputs = [(Access.wrreg (.cmd 0x04#8)).input] := by decide

theorem test_witness_DecodeAcceptsExactlyTheValidBlocks :
    decodeBlock helloFrame .checksum .b128 = .ok (0x01#8, hello ++ List.replicate 123 0x1A#8) ∧
    decodeBlock helloFrame .crc .b128 ≠ .ok (0x01#8, hello ++ List.replicate 123 0x1A#8) := by decide +kernel

/-- The first length that cannot be presented, and the last that can. -/
theorem test_witness_TheHostReportsWhatItCannotPresent :
    1026 < (List.replicate 1027 0x00#8).length ∧ 1029 < (List.replicate 1030 0x00#8).length ∧
    (List.replicate 1026 0x00#8).length ≤ 1026 ∧ (List.replicate 1029 0x00#8).length ≤ 1029 ∧
    ∃ t, step (pending (.shorthand (.load 0 hello))) = .next t := by
  refine ⟨?_, ?_, ?_, ?_, _, rfl⟩ <;> decide +kernel

/-- Both sizes; an attempt left and no attempt left. -/
theorem test_witness_AFrameOfTheOtherSizeIsRefused :
    (receiving .awaitBlock).phase = .awaitBlock ∧ (receiving .awaitBlock).partialBlock = [] ∧
    (receiving .awaitBlock).mode = .checksum ∧ (receiving .awaitBlock).sizeFixed = true ∧
    (receiving .awaitBlock).blockSize ≠ .b1k ∧ { receiving .awaitBlock with blockSize := .b1k }.blockSize ≠ .b128 ∧
    (receiving .awaitBlock).cancelPending = false ∧ (List.replicate 1024 0x1A#8).length = bs .b1k ∧
    pads.length = bs .b128 ∧ { receiving .awaitBlock with attempts := 0 }.attempts + 1 < params.retryLimit ∧
    params.retryLimit ≤ (receiving .awaitBlock).attempts + 1 := by decide +kernel

/-- A receiver that has noted a cancellation and lacks the last byte of a block. -/
def cancelling : Session := { receiving .awaitBlock with partialBlock := helloFrame.dropLast, cancelPending := true }

theorem test_witness_ANotedCancellationEndsTheReceiver :
    cancelling.phase = .awaitBlock ∧ cancelling.partialBlock ≠ [] ∧ cancelling.cancelPending = true ∧
    flen (sizeOfMarker (cancelling.partialBlock.getD 0 0x00#8)) cancelling.mode = cancelling.partialBlock.length + 1 := by
  decide +kernel

theorem test_witness_TheSendersHandshakeWaitsItsBudget : sessionActive State.reset = false ∧ 0 < params.retryLimit := by
  decide

/-- Before the fallback threshold and at it. -/
theorem test_witness_TheReceiversModeIsThatOfTheByteLastSent :
    sessionActive State.reset = false ∧ 0 < params.retryLimit ∧ 1 < params.retryLimit ∧ 0 < params.crcFallback ∧
      params.crcFallback ≤ 1 := by decide

theorem test_witness_RepeatedHandshakeBytesAreTolerated :
    (Instr.crcreq, 0x43#8) ∈ [(Instr.nak, 0x15#8), (.crcreq, 0x43#8)] ∧
    (sending .awaitHandshake).phase = .awaitHandshake ∧ 0x18#8 ∉ [0x43#8, 0x00#8, 0x15#8] ∧
    (pending (.wire ([0x43#8, 0x00#8, 0x15#8] ++ [0x43#8]))).inputs = [.wire [0x43#8, 0x00#8, 0x15#8, 0x43#8]] := by
  decide

theorem test_witness_TheModeIsFixedAfterTheHandshake :
    ∃ t, busy.session = some { receiving .awaitBlock with partialBlock := [0x01#8, 0x01#8] } ∧
      sessionActive busy = true ∧ (receiving .awaitBlock).phase ≠ .awaitHandshake ∧
      (receiving .awaitBlock).phase ≠ .init ∧ step busy = .next t :=
  ⟨_, rfl, rfl, by decide, by decide, rfl⟩

end Sys2Proof.Machine.Tests
end

section
/-! SUPPORT. The four kinds of command and the operand bytes each kind reads (30_encoding.md R43, R44). -/

namespace Sys2Proof.Machine

/-- A command is a `DET`, an `ENC`, a `DEC` or reserved, and a reserved one only raises `IllegalCommand`. -/
theorem command_cases {i : Instr} (h : i.space = .command) :
    (∃ m, i = detInstr m) ∨ (∃ z m, i = encInstr z m) ∨ (∃ z m, i = decInstr z m) ∨
      ∀ s, exec i s = .next (raise .illegalCommand s) := by
  cases i with
  | detCs => exact .inl ⟨.checksum, rfl⟩
  | detCrc => exact .inl ⟨.crc, rfl⟩
  | enc128Cs => exact .inr (.inl ⟨.b128, .checksum, rfl⟩)
  | enc128Crc => exact .inr (.inl ⟨.b128, .crc, rfl⟩)
  | enc1kCs => exact .inr (.inl ⟨.b1k, .checksum, rfl⟩)
  | enc1kCrc => exact .inr (.inl ⟨.b1k, .crc, rfl⟩)
  | dec128Cs => exact .inr (.inr (.inl ⟨.b128, .checksum, rfl⟩))
  | dec128Crc => exact .inr (.inr (.inl ⟨.b128, .crc, rfl⟩))
  | dec1kCs => exact .inr (.inr (.inl ⟨.b1k, .checksum, rfl⟩))
  | dec1kCrc => exact .inr (.inr (.inl ⟨.b1k, .crc, rfl⟩))
  | illegalDet | illegalOp3 | illegalBit4 | illegalBit5 | illegalBit6 | illegalBit7 =>
    exact .inr (.inr (.inr fun _ => rfl))
  | _ => cases h

theorem operandRange_detInstr {n : Nat} (h : n ≤ 1024) (m : Mode) : operandRange (detInstr m) n = (payloadBase, n) := by
  cases m <;> simp [detInstr, operandRange, payloadBase, h]

theorem operandRange_encInstr {z : BlockSize} {n : Nat} (h : n ≤ bs z) (m : Mode) :
    operandRange (encInstr z m) n = (payloadBase, n) := by
  have hb : (if n ≤ bs z then n else 0) = n := if_pos h
  cases z <;> cases m <;> exact congrArg (Prod.mk payloadBase) hb

theorem operandRange_decInstr (z : BlockSize) (m : Mode) : operandRange (decInstr z m) (flen z m) = (0, flen z m) := by
  cases z <;> cases m <;> rfl

end Sys2Proof.Machine
end

section
/-! SUPPORT. FB after an `ENC`, byte by byte (40_frame_encode.md R49). -/

namespace Sys2Proof.Machine

/-- The header, then the data bytes where they stood, then the padding. -/
theorem byteAt?_filledFb (z : BlockSize) (b : Xfc) (a : Nat) :
    (filledFb z b).byteAt? a =
      if payloadBase + b.len.toNat ≤ a ∧ a < payloadBase + b.len.toNat + (bs z - b.len.toNat) then some bytePad
      else if a < payloadBase then [marker z, b.seq, 255#8 - b.seq][a]? else b.fb.byteAt? a := by
  unfold filledFb
  rw [byteAt?_writeRange, byteAt?_writeRange]
  simp only [List.length_replicate]
  split
  · rw [List.getElem?_replicate, if_pos (by omega)]
  · exact if_congr (by simp [payloadBase]) rfl rfl

/-- The trailer over the code of the padded payload; every other byte as after the padding. -/
theorem byteAt?_encodeCommand {z : BlockSize} {s : State} (h : s.len.toNat ≤ bs z) (m : Mode) (a : Nat) :
    (encodeCommand z m s).fb.byteAt? a =
      if payloadBase + bs z ≤ a ∧ a < flen z m then
        (trailerBytes m (det m (padded z (s.fb.readRange s.draws payloadBase s.len.toNat))))[a - (payloadBase + bs z)]?
      else (filledFb z s.toXfc).byteAt? a := by
  obtain ⟨hlt, -⟩ | ⟨-, he⟩ := encodeCommand_cases z m s
  · omega
  · rw [he, complete_fb, byteAt?_writeRange, trailerBytes_length, (flen_bounds z m).1]

end Sys2Proof.Machine
end

section
/-! PROOF. The results and the frame of a command depend on its operands alone (00_scope.md R3): `DET`, `ENC` and `DEC`
one by one, each from its outcomes, and the operand bytes read the same in both states because they are written. -/

namespace Sys2Proof.Machine

/-- The bytes of a range are written in one memory and stand in the other just so. -/
structure Memory.sharedOn (m m' : Memory) (a n : Nat) : Prop where
  written : m.written a n
  agrees : ∀ k, a ≤ k → k < a + n → m.byteAt? k = m'.byteAt? k

theorem Memory.sharedOn.symm {m m' : Memory} {a n : Nat} (h : m.sharedOn m' a n) : m'.sharedOn m a n :=
  ⟨fun k h1 h2 => h.agrees k h1 h2 ▸ h.written k h1 h2, fun k h1 h2 => (h.agrees k h1 h2).symm⟩

/-- Shared bytes read the same, whichever draws they are read with. -/
theorem Memory.sharedOn.read_eq {m m' : Memory} {a n k : Nat} (h : m.sharedOn m' a n) (h1 : a ≤ k) (h2 : k < a + n)
    (d d' : Nat) : m.read d k = m'.read d' k := by
  rw [read_written (h.written k h1 h2) d d', Memory.read, Memory.read, h.agrees k h1 h2]

theorem Memory.sharedOn.readRange_eq {m m' : Memory} {a n b k : Nat} (h : m.sharedOn m' a n) (h1 : a ≤ b)
    (h2 : b + k ≤ a + n) (d d' : Nat) : m.readRange d b k = m'.readRange d' b k :=
  calc m.readRange d b k
    _ = m.readRange d' b k := readRange_written (fun j hj hj' => h.written j (by omega) (by omega)) d d'
    _ = m'.readRange d' b k := readRange_congr d' fun j hj hj' => h.agrees j (by omega) (by omega)

/-- Two states whose result registers agree. -/
def sameResults (s t : State) : Prop := results s t.status t.rseq t.det t.outlen

theorem sameResults_raise (e : Err) (s t : State) : sameResults (raise e s) (raise e t) := ⟨rfl, rfl, rfl, rfl⟩

theorem sameResults_complete (r : Byte) (d o : Half) (s t : State) :
    sameResults (complete r d o s) (complete r d o t) := ⟨rfl, rfl, rfl, rfl⟩

/-- Two states that hold the same operand bytes for a command, all of them written. -/
def sharedOperand (i : Instr) (s₁ s₂ : State) : Prop :=
  s₁.fb.sharedOn s₂.fb (operandRange i s₁.len.toNat).1 (operandRange i s₁.len.toNat).2

theorem detect_sameResults {m : Mode} {s₁ s₂ : State} (hlen : s₁.len = s₂.len) (h : sharedOperand (detInstr m) s₁ s₂) :
    sameResults (detect m s₁) (detect m s₂) := by
  rw [detect_eq, detect_eq, ← hlen]
  split
  · exact sameResults_raise ..
  · rw [sharedOperand, operandRange_detInstr (by omega)] at h
    rw [h.readRange_eq le_rfl le_rfl s₁.draws s₂.draws]
    exact sameResults_complete ..

/-- The data bytes of an `ENC` whose length fits its block. -/
theorem sharedOperand.data_eq {z : BlockSize} {m : Mode} {s₁ s₂ : State} (h : sharedOperand (encInstr z m) s₁ s₂)
    (hlen : s₁.len = s₂.len) (hfit : s₁.len.toNat ≤ bs z) :
    s₁.fb.readRange s₁.draws payloadBase s₁.len.toNat = s₂.fb.readRange s₂.draws payloadBase s₂.len.toNat := by
  rw [sharedOperand, operandRange_encInstr hfit] at h
  rw [← hlen, h.readRange_eq le_rfl le_rfl s₁.draws s₂.draws]

theorem encodeCommand_sameResults {z : BlockSize} {m : Mode} {s₁ s₂ : State} (hlen : s₁.len = s₂.len)
    (h : sharedOperand (encInstr z m) s₁ s₂) : sameResults (encodeCommand z m s₁) (encodeCommand z m s₂) := by
  obtain ⟨h₁, e₁⟩ | ⟨h₁, e₁⟩ := encodeCommand_cases z m s₁ <;> obtain ⟨h₂, e₂⟩ | ⟨h₂, e₂⟩ := encodeCommand_cases z m s₂
  · rw [e₁, e₂]; exact sameResults_raise ..
  · rw [hlen] at h₁; omega
  · rw [hlen] at h₁; omega
  · rw [e₁, e₂, h.data_eq hlen h₁]; exact sameResults_complete ..

theorem encodeCommand_sameFrame {z : BlockSize} {m : Mode} {s₁ s₂ : State} (hlen : s₁.len = s₂.len)
    (hseq : s₁.seq = s₂.seq) (h : sharedOperand (encInstr z m) s₁ s₂) (hfit : s₁.len.toNat ≤ bs z) {a : Nat}
    (ha : a < flen z m) : (encodeCommand z m s₁).fb.byteAt? a = (encodeCommand z m s₂).fb.byteAt? a := by
  have hf := (flen_bounds z m).1
  rw [byteAt?_encodeCommand hfit, byteAt?_encodeCommand (hlen ▸ hfit), h.data_eq hlen hfit]
  split
  · rfl
  · rw [byteAt?_filledFb, byteAt?_filledFb, ← hlen, ← hseq]
    split
    · rfl
    · split
      · rfl
      · rw [sharedOperand, operandRange_encInstr hfit] at h
        exact h.agrees a (by omega) (by omega)

theorem decodeCommand_sameResults {z : BlockSize} {m : Mode} {s₁ s₂ : State} (hlen : s₁.len = s₂.len)
    (h : sharedOperand (decInstr z m) s₁ s₂) : sameResults (decodeCommand z m s₁) (decodeCommand z m s₂) := by
  by_cases hl : s₁.len.toNat = flen z m
  · have hf := (flen_bounds z m).1
    have hp : 2 < payloadBase := by decide
    rw [sharedOperand, hl, operandRange_decInstr] at h
    rw [decodeCommand_written z m s₁ 0 hl h.written, decodeCommand_written z m s₂ 0 (hlen ▸ hl) h.symm.written,
      h.read_eq (k := 0) (by omega) (by omega) 0 0, h.read_eq (k := 1) (by omega) (by omega) 0 0,
      h.read_eq (k := 2) (by omega) (by omega) 0 0, h.readRange_eq (b := payloadBase) (by omega) (by omega) 0 0,
      h.readRange_eq (b := payloadBase + bs z) (by omega) (by omega) 0 0]
    split_ifs
    · exact sameResults_raise ..
    · exact sameResults_raise ..
    · exact sameResults_raise ..
    · exact sameResults_complete ..
  · rw [decodeCommand_eq, decodeCommand_eq, if_pos hl, if_pos (hlen ▸ hl)]
    exact sameResults_raise ..

/-- Every command gives the same results in two states that agree on `LEN` and hold the same operand bytes. -/
theorem exec_sameResults {i : Instr} {s₁ s₂ t₁ t₂ : State} (hi : i.space = .command) (hlen : s₁.len = s₂.len)
    (h : sharedOperand i s₁ s₂) (e₁ : exec i s₁ = .next t₁) (e₂ : exec i s₂ = .next t₂) : sameResults t₁ t₂ := by
  obtain ⟨m, rfl⟩ | ⟨z, m, rfl⟩ | ⟨z, m, rfl⟩ | hr := command_cases hi
  · cases (exec_detInstr m s₁).symm.trans e₁
    cases (exec_detInstr m s₂).symm.trans e₂
    exact detect_sameResults hlen h
  · cases (exec_encInstr z m s₁).symm.trans e₁
    cases (exec_encInstr z m s₂).symm.trans e₂
    exact encodeCommand_sameResults hlen h
  · cases (exec_decInstr z m s₁).symm.trans e₁
    cases (exec_decInstr z m s₂).symm.trans e₂
    exact decodeCommand_sameResults hlen h
  · cases (hr s₁).symm.trans e₁
    cases (hr s₂).symm.trans e₂
    exact sameResults_raise ..

/-- Settles O7: each kind of command by its outcomes; the operand bytes are written and the same, so both states read
the same from them. -/
theorem resultsDependOnTheOperandsAlone : Obligations.ResultsDependOnTheOperandsAlone := by
  intro i s₁ s₂ t₁ t₂ hi hlen hw hb hseq e₁ e₂
  have h : sharedOperand i s₁ s₂ := ⟨hw, hb⟩
  refine ⟨exec_sameResults hi hlen h e₁ e₂, ?_⟩
  rintro z m rfl hfit a ha
  cases (exec_encInstr z m s₁).symm.trans e₁
  cases (exec_encInstr z m s₂).symm.trans e₂
  exact encodeCommand_sameFrame hlen (hseq ⟨z, m, rfl⟩) h hfit ha

end Sys2Proof.Machine
end

section
/-! SUPPORT. What a step runs: the pending input, and the row its bytes are. -/

namespace Sys2Proof.Machine

/-- A step acts on the oldest input, which is then used up (20_memory.md R27). -/
theorem step_of_inputs {s : State} {i : Input} {rest : List Input} (h : s.inputs = i :: rest) :
    step s = act i { s with inputs := rest } := by
  simp [step, h]

/-- A row of the wire is a whole frame or a lone byte, as the host takes it in (30_encoding.md R32, R35). -/
theorem wire_cases {i : Instr} (h : i.space = .wire) :
    (∃ z m l, ∀ s, exec i s = .next (frameArrives z m l s)) ∨ ∃ b, ∀ s, exec i s = .next (receiveByte b s) := by
  cases i with
  | f128Cs | f128Crc | f1kCs | f1kCrc => exact .inl ⟨_, _, _, fun _ => rfl⟩
  | soh | stx | eot | ack | nak | can | crcreq | pad => exact .inr ⟨_, fun _ => rfl⟩
  | _ => cases h

end Sys2Proof.Machine
end

section
/-! PROOF. The block's invariant (Safety.lean `blockInv`): it speaks of the block's record alone, so only a write to FB,
the completion of a command and a reset can touch it. -/

namespace Sys2Proof.Machine

theorem statusLegal_errCode (e : Err) : statusLegal (statusWord (errCode e)) :=
  .inr ⟨errCode e, by cases e <;> decide, rfl⟩

theorem outlenLegal_zero : outlenLegal 0x0000#16 := by simp [outlenLegal]

theorem outlenLegal_bs (z : BlockSize) : outlenLegal (BitVec.ofNat 16 (bs z)) := by
  rw [outlenLegal, bs_toNat]; cases z <;> decide

theorem outlenLegal_flen (z : BlockSize) (m : Mode) : outlenLegal (BitVec.ofNat 16 (flen z m)) := by
  rw [outlenLegal, flen_toNat]; cases z <;> cases m <;> decide

theorem blockInv_complete {s : State} (h : s.fb.wf) (r : Byte) (d : Half) {o : Half} (ho : outlenLegal o) :
    blockInv (complete r d o s) :=
  ⟨h, .inr ⟨0#3, by decide, rfl⟩, ho, fun hne => absurd rfl hne⟩

theorem blockInv_raise {s : State} (h : s.fb.wf) (e : Err) : blockInv (raise e s) :=
  ⟨h, statusLegal_errCode e, outlenLegal_zero, fun _ => ⟨rfl, rfl, rfl⟩⟩

theorem blockInv_resetBlock (s : State) : blockInv (resetBlock s) :=
  ⟨nil_wf, .inl rfl, outlenLegal_zero, fun _ => ⟨rfl, rfl, rfl⟩⟩

theorem blockInv_detect {s : State} (h : s.fb.wf) (m : Mode) : blockInv (detect m s) := by
  obtain ⟨-, e⟩ | ⟨-, e⟩ := detect_cases m s <;> rw [e]
  · exact blockInv_raise h _
  · exact blockInv_complete h _ _ outlenLegal_zero

theorem blockInv_encodeCommand {s : State} (h : s.fb.wf) (z : BlockSize) (m : Mode) :
    blockInv (encodeCommand z m s) := by
  have hwf := encodeCommand_wf h z m
  obtain ⟨-, e⟩ | ⟨-, e⟩ := encodeCommand_cases z m s <;> rw [e] at hwf ⊢
  · exact blockInv_raise h _
  · exact blockInv_complete hwf _ _ (outlenLegal_flen z m)

theorem blockInv_decodeCommand {s : State} (h : s.fb.wf) (z : BlockSize) (m : Mode) :
    blockInv (decodeCommand z m s) := by
  obtain ⟨-, e⟩ | e | e | ⟨-, -, e⟩ := decodeCommand_cases z m s <;> rw [e]
  · exact blockInv_raise h _
  · exact blockInv_raise h _
  · exact blockInv_raise h _
  · exact blockInv_complete h _ _ (outlenLegal_bs z)

/-- A write inside FB changes no result register. -/
theorem blockInv_load {s : State} (h : blockInv s) {a : Nat} {p : List Byte} (hp : a + p.length ≤ Config.fbSize) :
    blockInv (load a p s) :=
  ⟨writeRange_wf h.1 hp, h.2⟩

theorem blockInv_hostEncode {s : State} (h : blockInv s) (z : BlockSize) (m : Mode) (q : Byte) (p : List Byte) :
    blockInv (hostEncode z m q p s) := by
  unfold hostEncode
  split
  · exact h
  · exact blockInv_encodeCommand (writeRange_wf h.1 (by simp only [payloadBase, Config.fbSize]; omega)) z m

theorem blockInv_hostDecode {s : State} (h : blockInv s) (z : BlockSize) (m : Mode) (r : List Byte) :
    blockInv (hostDecode z m r s) := by
  unfold hostDecode
  split
  · exact h
  · exact blockInv_decodeCommand (writeRange_wf h.1 (by omega)) z m

end Sys2Proof.Machine
end

section
/-! PROOF. The session's invariant, one lemma per reaction of the two state machines (43_session_environment.md sections 4
and 5). Each needs of the state only the block's invariant: the session it sets is the one it is given, changed. -/

namespace Sys2Proof.Machine

/-- The four clauses of `sessionInv` about one session. -/
structure Session.kept (c : Session) : Prop where
  phase : phaseOfRole c.role c.phase
  budget : budgetKept c
  reading : readingKept c
  count : countKept c

theorem sessionInv_iff {s : State} : sessionInv s ↔ ∀ c, s.session = some c → c.kept :=
  forall₂_congr fun _ _ => ⟨fun ⟨h1, h2, h3, h4⟩ => ⟨h1, h2, h3, h4⟩, fun h => ⟨h.phase, h.budget, h.reading, h.count⟩⟩

theorem Inv.wf {s : State} (h : Inv s) : s.fb.wf := h.1.1

theorem Inv.kept {s : State} {c : Session} (h : Inv s) (hc : s.session = some c) : c.kept := sessionInv_iff.1 h.2 c hc

/-- What touches the block alone. -/
theorem Inv.of_session_eq {s t : State} (h : Inv s) (hb : blockInv t) (ht : t.session = s.session) : Inv t :=
  ⟨hb, fun c hc => h.2 c (ht ▸ hc)⟩

/-- What leaves the block alone and puts a session in. -/
theorem inv_setSession {s : State} {c : Session} (hb : blockInv s) (hc : c.kept) : Inv (setSession c s) :=
  ⟨hb, sessionInv_iff.2 fun _ h => Option.some.inj h ▸ hc⟩

theorem inv_transmit {s : State} {l : List Byte} (h : Inv s) : Inv (transmit l s) := h

theorem inv_sendFrame {s : State} (h : Inv s) : Inv (sendFrame s) := h

theorem readingKept_of_nil {c : Session} (h : c.partialBlock = []) : readingKept c := fun hne => absurd h hne

theorem countKept_of_sender {c : Session} (h : c.role = .sender) : countKept c := fun hr => by simp [h] at hr

/-- Outside `Init` an exchange in hand owes an attempt left. -/
theorem budgetKept_of_lt {c : Session} (hp : c.phase ≠ .init) (h : c.attempts < c.params.retryLimit) : budgetKept c := by
  unfold budgetKept
  cases hc : c.phase with
  | init => exact absurd hc hp
  | ended => trivial
  | awaitHandshake | awaitAck | awaitEotAck | awaitBlock => exact h

/-- Only a receiver that waits for a block has part of one. -/
theorem Session.kept.partialBlock_eq_nil {c : Session} (h : c.kept) (hp : c.phase ≠ .awaitBlock) : c.partialBlock = [] :=
  by_contra fun hne => hp (h.reading hne).1

/-- An ended session owes only its count. -/
theorem inv_finish {s : State} {c : Session} (hb : blockInv s) (hc : countKept c) (e : SessionEnd) :
    Inv (finish c e s) :=
  inv_setSession hb ⟨trivial, trivial, readingKept_of_nil rfl, hc⟩

/-! ### Sender -/

/-- A sender's session, of which no phase reads a block. -/
structure Session.sends (c : Session) : Prop where
  role : c.role = .sender
  partialBlock : c.partialBlock = []

/-- A sender in one of its three waits owes only an attempt left. -/
theorem Session.sends.kept {c : Session} (h : c.sends)
    (hp : c.phase = .awaitHandshake ∨ c.phase = .awaitAck ∨ c.phase = .awaitEotAck)
    (ha : c.attempts < c.params.retryLimit) : c.kept :=
  ⟨by obtain hp | hp | hp := hp <;> rw [hp] <;> exact h.role,
    budgetKept_of_lt (by obtain hp | hp | hp := hp <;> simp [hp]) ha, readingKept_of_nil h.partialBlock,
    countKept_of_sender h.role⟩

section
variable {s : State} {c : Session} (hb : blockInv s) (hc : c.sends)
include hb hc

theorem inv_finish_sender (e : SessionEnd) : Inv (finish c e s) := inv_finish hb (countKept_of_sender hc.role) e

theorem inv_sendEot : Inv (sendEot c s) := by
  unfold sendEot
  split
  · exact inv_finish_sender hb hc _
  next hlim =>
    exact inv_transmit (inv_setSession hb (Session.sends.kept ⟨hc.role, hc.partialBlock⟩
      (.inr (.inr rfl)) (Nat.pos_of_ne_zero hlim)))

theorem inv_sendBlock : Inv (sendBlock c s) := by
  unfold sendBlock
  split
  · exact inv_finish_sender hb hc _
  next hlim =>
    have h := inv_setSession (c := { c with phase := .awaitAck, attempts := 0, lastResponse := none }) hb
      (Session.sends.kept ⟨hc.role, hc.partialBlock⟩ (.inr (.inl rfl)) (Nat.pos_of_ne_zero hlim))
    exact inv_sendFrame (h.of_session_eq (blockInv_hostEncode h.1 ..) (hostEncode_session ..))

theorem inv_nextBlock : Inv (nextBlock c s) := by
  unfold nextBlock
  split
  · exact inv_finish_sender hb hc _
  · split
    · exact inv_sendEot hb hc
    · exact inv_sendBlock hb hc

theorem inv_onHandshake (m : Mode) : Inv (onHandshake m c s) := by
  have hc' : Session.sends { c with mode := m, sequence := 0x01#8 } := ⟨hc.role, hc.partialBlock⟩
  unfold onHandshake
  dsimp only
  split
  · exact inv_sendBlock hb hc'
  · exact inv_nextBlock hb hc'

theorem inv_onAck : Inv (onAck c s) := inv_nextBlock hb ⟨hc.role, hc.partialBlock⟩

theorem inv_onNoAck (hp : c.phase = .awaitAck) (r : Option Byte) : Inv (onNoAck r c s) := by
  unfold onNoAck
  dsimp only
  split
  · exact inv_finish_sender hb hc _
  next hlt =>
    exact inv_sendFrame (inv_setSession hb (Session.sends.kept ⟨hc.role, hc.partialBlock⟩ (.inr (.inl hp))
      (Nat.lt_of_not_le hlt)))

theorem inv_onNoEotAck (hp : c.phase = .awaitEotAck) : Inv (onNoEotAck c s) := by
  unfold onNoEotAck
  split
  · exact inv_finish_sender hb hc _
  next hlt =>
    exact inv_transmit (inv_setSession hb (Session.sends.kept ⟨hc.role, hc.partialBlock⟩ (.inr (.inr hp))
      (Nat.lt_of_not_le hlt)))

theorem inv_onNoHandshake (hp : c.phase = .awaitHandshake) : Inv (onNoHandshake c s) := by
  unfold onNoHandshake
  split
  · exact inv_finish_sender hb hc _
  next hlt =>
    exact inv_setSession hb (Session.sends.kept ⟨hc.role, hc.partialBlock⟩ (.inl hp)
      (Nat.lt_of_not_le hlt))

end

section
variable {s : State} {c : Session} (h : Inv s) (hc : c.sends)
include h hc

theorem inv_handshakeByte (b : Byte) : Inv (handshakeByte b c s) := by
  unfold handshakeByte
  cases ctl b with
  | nak => exact inv_onHandshake h.1 hc _
  | crcreq => exact inv_onHandshake h.1 hc _
  | can => exact inv_finish_sender h.1 hc _
  | soh | stx | eot | ack | other => exact h

theorem inv_ackByte (hp : c.phase = .awaitAck) (b : Byte) : Inv (ackByte b c s) := by
  unfold ackByte
  cases ctl b with
  | ack => exact inv_onAck h.1 hc
  | can => exact inv_finish_sender h.1 hc _
  | nak | soh | stx | eot | crcreq | other => exact inv_onNoAck h.1 hc hp _

theorem inv_strayEotReply (hp : c.phase = .awaitEotAck) : Inv (strayEotReply c s) := by
  unfold strayEotReply
  split
  · exact inv_onNoEotAck h.1 hc hp
  · exact h

theorem inv_eotAckByte (hp : c.phase = .awaitEotAck) (b : Byte) : Inv (eotAckByte b c s) := by
  unfold eotAckByte
  cases ctl b with
  | ack => exact inv_finish_sender h.1 hc _
  | can => exact inv_finish_sender h.1 hc _
  | nak => exact inv_onNoEotAck h.1 hc hp
  | soh | stx | eot | crcreq | other => exact inv_strayEotReply h hc hp

end

/-! ### Receiver -/

/-- The first byte of a block is its marker, and no block is one byte long (30_encoding.md R35). -/
theorem kept_firstByte {c : Session} (hr : c.role = .receiver) (hb : budgetKept c) (hn : countKept c)
    (hp : c.phase = .awaitBlock) {b : Byte} (h : c.partialBlock = [b]) (hm : b = byteSoh ∨ b = byteStx) : c.kept :=
  ⟨by rw [hp]; exact hr, hb,
    fun _ => ⟨hp, by simpa [h] using hm, by rw [h, flen]; simp only [List.length_singleton]; omega⟩, hn⟩

section
variable {s : State} {c : Session} (hb : blockInv s) (hc : c.kept)
include hb hc

theorem inv_afterBlock : Inv (afterBlock c s) := by
  unfold afterBlock
  split
  · exact inv_finish hb hc.count _
  · exact inv_setSession hb hc

section
variable (hp : c.phase = .awaitBlock)
include hp

theorem inv_failAttempt (k : FailKind) : Inv (failAttempt k c s) := by
  unfold failAttempt
  split
  · exact inv_finish hb hc.count _
  next hlt =>
    exact inv_afterBlock hb ⟨hc.phase, budgetKept_of_lt (by simp [hp]) (Nat.lt_of_not_le hlt), hc.reading, hc.count⟩

theorem inv_refuseBlock (k : FailKind) : Inv (refuseBlock k c s) := inv_failAttempt (s := transmit _ s) hb hc hp k

/-- What is appended is counted, and the budget of the next block is whole. -/
theorem inv_acceptBlock (p : List Byte) : Inv (acceptBlock p c s) := by
  have hlim : c.attempts < c.params.retryLimit := by simpa [budgetKept, hp] using hc.budget
  exact inv_afterBlock (s := transmit _ s) hb
    ⟨hc.phase, budgetKept_of_lt (by simp [hp]) (Nat.zero_lt_of_lt hlim), hc.reading, fun hr => by simp [hc.count hr]⟩

theorem inv_judgeBlock : Inv (judgeBlock c s) := by
  unfold judgeBlock
  split_ifs
  · exact inv_acceptBlock (s := { s with draws := s.draws + s.outlen.toNat }) hb hc hp _
  · exact inv_afterBlock (s := transmit _ s) hb hc
  · exact inv_refuseBlock hb hc hp _
  · exact inv_refuseBlock hb hc hp _

theorem inv_blockRead (l : List Byte) : Inv (blockRead l c s) := by
  have hc' (z : BlockSize) : Session.kept { c with partialBlock := [], blockSize := z, sizeFixed := true } :=
    ⟨hc.phase, hc.budget, readingKept_of_nil rfl, hc.count⟩
  unfold blockRead
  dsimp only
  split
  · exact inv_refuseBlock (blockInv_hostDecode hb ..) (hc' _) hp _
  · exact inv_judgeBlock (blockInv_hostDecode hb ..) (hc' _) hp

/-- A block that one byte more does not make whole keeps its marker. -/
theorem inv_blockByte (hne : c.partialBlock ≠ []) (b : Byte) : Inv (blockByte b c s) := by
  unfold blockByte
  dsimp only
  split
  next hpart =>
    obtain ⟨-, hmarker, -⟩ := hc.reading hne
    have hhead : (c.partialBlock ++ [b]).head? = c.partialBlock.head? := List.head?_append_of_ne_nil _ hne
    exact inv_setSession hb ⟨hc.phase, hc.budget, fun _ => ⟨hp, hhead ▸ hmarker, hpart⟩, hc.count⟩
  · exact inv_blockRead hb hc hp _

theorem inv_blockTimeout : Inv (blockTimeout c s) := by
  have hc' : Session.kept { c with partialBlock := [] } := ⟨hc.phase, hc.budget, readingKept_of_nil rfl, hc.count⟩
  unfold blockTimeout
  dsimp only
  split
  · exact inv_refuseBlock hb hc' hp _
  · exact inv_failAttempt hb hc' hp _

end

end

section
variable {s : State} {c : Session} (h : Inv s) (hc : c.kept)
include h hc

theorem inv_firstByte (hp : c.phase = .awaitBlock) (b : Byte) : Inv (firstByte b c s) := by
  have hr : c.role = .receiver := by simpa [hp, phaseOfRole] using hc.phase
  unfold firstByte
  cases hb : ctl b with
  | soh => exact inv_setSession h.1 (kept_firstByte hr hc.budget hc.count hp rfl (.inl (eq_of_ctl_soh b hb)))
  | stx => exact inv_setSession h.1 (kept_firstByte hr hc.budget hc.count hp rfl (.inr (eq_of_ctl_stx b hb)))
  | eot => exact inv_finish (s := transmit _ s) h.1 hc.count _
  | can => exact inv_finish h.1 hc.count _
  | ack | nak | crcreq | other =>
    dsimp only
    split
    · exact inv_refuseBlock h.1 hc hp _
    · exact h

/-- The handshake has sent a byte, so its budget is not zero, and the first block's is the same. -/
theorem inv_initByte (hp : c.phase = .init) (b : Byte) : Inv (initByte b c s) := by
  have hr : c.role = .receiver := by simpa [hp, phaseOfRole] using hc.phase
  have hlim : 0 < c.params.retryLimit := by
    obtain ⟨hpos, hle⟩ : 0 < c.attempts ∧ c.attempts ≤ c.params.retryLimit := by
      simpa [budgetKept, hp] using hc.budget
    omega
  unfold initByte
  cases hb : ctl b with
  | soh => exact inv_setSession h.1 (kept_firstByte hr hlim hc.count rfl rfl (.inl (eq_of_ctl_soh b hb)))
  | stx => exact inv_setSession h.1 (kept_firstByte hr hlim hc.count rfl rfl (.inr (eq_of_ctl_stx b hb)))
  | eot => exact inv_finish (s := transmit _ s) h.1 hc.count _
  | can => exact inv_finish h.1 hc.count _
  | ack | nak | crcreq | other => exact h

end

/-- A handshake byte is an attempt (log entry 19), sent while one is left. -/
theorem inv_sendHandshake {s : State} {c : Session} (hb : blockInv s) (hr : c.role = .receiver) (hp : c.phase = .init)
    (hn : countKept c) (hl : c.partialBlock = []) : Inv (sendHandshake c s) := by
  unfold sendHandshake
  split
  · exact inv_finish hb hn _
  next hlt =>
    have hk (m : Mode) : Session.kept { c with mode := m, attempts := c.attempts + 1 } :=
      ⟨by simp [hp, hr, phaseOfRole], by simpa [budgetKept, hp] using hlt, readingKept_of_nil hl, hn⟩
    split
    · exact inv_transmit (inv_setSession hb (hk .crc))
    · exact inv_transmit (inv_setSession hb (hk .checksum))

end Sys2Proof.Machine
end

section
/-! PROOF. Every event of the session keeps the invariant, phase by phase; then every row, every input, every step. -/

namespace Sys2Proof.Machine

theorem Session.kept.sends {c : Session} (h : c.kept)
    (hp : c.phase = .awaitHandshake ∨ c.phase = .awaitAck ∨ c.phase = .awaitEotAck) : c.sends := by
  have hphase := h.phase
  obtain hp | hp | hp := hp <;> rw [hp] at hphase <;> exact ⟨hphase, h.partialBlock_eq_nil (by simp [hp])⟩

section
variable {s : State} (h : Inv s)
include h

theorem inv_receiveByte (b : Byte) : Inv (receiveByte b s) := by
  unfold receiveByte
  split
  · exact h
  next c hs =>
    have hc := h.kept hs
    split
    next hp => exact inv_handshakeByte h (hc.sends (.inl hp)) b
    next hp => exact inv_ackByte h (hc.sends (.inr (.inl hp))) hp b
    next hp => exact inv_eotAckByte h (hc.sends (.inr (.inr hp))) hp b
    next hp => exact inv_initByte h hc hp b
    next hp =>
      split
      · exact inv_firstByte h hc hp b
      next hne => exact inv_blockByte h.1 hc hp hne b
    next => exact h

theorem inv_onTimeout : Inv (onTimeout s) := by
  unfold onTimeout
  split
  · exact h
  next c hs =>
    have hc := h.kept hs
    split
    next hp => exact inv_onNoHandshake h.1 (hc.sends (.inl hp)) hp
    next hp => exact inv_onNoAck h.1 (hc.sends (.inr (.inl hp))) hp none
    next hp => exact inv_onNoEotAck h.1 (hc.sends (.inr (.inr hp))) hp
    next hp =>
      exact inv_sendHandshake h.1 (by simpa [hp, phaseOfRole] using hc.phase) hp hc.count
        (hc.partialBlock_eq_nil (by simp [hp]))
    next hp => exact inv_blockTimeout h.1 hc hp
    next => exact h

/-- A cancellation ends the session or is noted; no clause of the invariant speaks of the note. -/
theorem inv_onCancel : Inv (onCancel s) := by
  unfold onCancel
  split
  · exact h
  next c hs =>
    have hc := h.kept hs
    have hnoted : Inv (setSession { c with cancelPending := true } s) :=
      inv_setSession h.1 ⟨hc.phase, hc.budget, hc.reading, hc.count⟩
    split
    · exact inv_finish h.1 hc.count _
    · exact hnoted
    · exact inv_finish h.1 hc.count _
    · exact inv_finish h.1 hc.count _
    · split
      · exact inv_finish h.1 hc.count _
      · exact hnoted
    · exact h

theorem inv_openSender {p : Params} {z : BlockSize} {source : List Byte} {t : State}
    (e : openSender p z source s = .next t) : Inv t := by
  unfold openSender at e
  split_ifs at e with ha hl <;> cases e
  · exact inv_finish_sender h.1 ⟨rfl, rfl⟩ _
  · exact inv_setSession h.1 (Session.sends.kept ⟨rfl, rfl⟩ (.inl rfl) (Nat.pos_of_ne_zero hl))

theorem inv_openReceiver {p : Params} {z : Option BlockSize} {t : State} (e : openReceiver p z s = .next t) :
    Inv t := by
  unfold openReceiver at e
  split_ifs at e
  cases e
  exact inv_sendHandshake h.1 rfl rfl (fun _ => rfl) rfl

theorem inv_hostEncode (z : BlockSize) (m : Mode) (q : Byte) (p : List Byte) : Inv (hostEncode z m q p s) :=
  h.of_session_eq (blockInv_hostEncode h.1 ..) (hostEncode_session ..)

theorem inv_hostDecode (z : BlockSize) (m : Mode) (r : List Byte) : Inv (hostDecode z m r s) :=
  h.of_session_eq (blockInv_hostDecode h.1 ..) (hostDecode_session ..)

end

theorem inv_receive {s : State} (h : Inv s) (l : List Byte) : Inv (receive l s) := by
  induction l generalizing s with
  | nil => exact h
  | cons b t ih =>
    rw [receive_cons]
    split
    · exact ih h
    · exact ih (inv_receiveByte h b)

theorem inv_frameArrives {s : State} (h : Inv s) (z : BlockSize) (m : Mode) (l : List Byte) :
    Inv (frameArrives z m l s) := by
  unfold frameArrives
  split
  · exact inv_hostDecode h z m l
  · exact inv_receive h l

section
variable {s t : State} (h : Inv s)
include h

/-- Every row of the table: a command by its kind, a row of the wire as it is taken in. -/
theorem inv_exec {i : Instr} (e : exec i s = .next t) : Inv t := by
  cases hi : i.space with
  | command =>
    obtain ⟨m, rfl⟩ | ⟨z, m, rfl⟩ | ⟨z, m, rfl⟩ | hr := command_cases hi
    · cases (exec_detInstr m s).symm.trans e
      exact h.of_session_eq (blockInv_detect h.wf m) rfl
    · cases (exec_encInstr z m s).symm.trans e
      exact h.of_session_eq (blockInv_encodeCommand h.wf z m) rfl
    · cases (exec_decInstr z m s).symm.trans e
      exact h.of_session_eq (blockInv_decodeCommand h.wf z m) rfl
    · cases (hr s).symm.trans e
      exact h.of_session_eq (blockInv_raise h.wf _) rfl
  | wire =>
    obtain ⟨z, m, l, hf⟩ | ⟨b, hb⟩ := wire_cases hi
    · cases (hf s).symm.trans e
      exact inv_frameArrives h z m l
    · cases (hb s).symm.trans e
      exact inv_receiveByte h b

theorem inv_wireArrives {l : List Byte} (e : wireArrives l s = .next t) : Inv t := by
  unfold wireArrives at e
  split at e
  · exact inv_exec h e
  · cases e
    exact inv_receive h l

theorem inv_accessRdfb {a : Nat} (e : accessRdfb a s = .next t) : Inv t := by
  unfold accessRdfb at e
  split_ifs at e
  cases e
  exact h

theorem inv_accessWrfb {a : Nat} {b : Byte} (e : accessWrfb a b s = .next t) : Inv t := by
  unfold accessWrfb at e
  split_ifs at e with ha
  cases e
  exact h.of_session_eq (blockInv_load h.1 ha) rfl

theorem inv_accessRdreg {r : Nat} (e : accessRdreg r s = .next t) : Inv t := by
  unfold accessRdreg at e
  split at e <;> cases e
  exact h

theorem inv_accessWrreg {w : RegWrite} (e : accessWrreg w s = .next t) : Inv t := by
  cases w with
  | cmd v => exact inv_exec (s := { s with cmd := v }) h e
  | seq | len | status | rseq | det | outlen => cases e; exact h
  | reserved => cases e

theorem inv_accessLoad {a : Nat} {p : List Byte} (e : accessLoad a p s = .next t) : Inv t := by
  unfold accessLoad at e
  split_ifs at e with hp hfit <;> cases e
  · exact h
  · exact h.of_session_eq (blockInv_load h.1 hfit) rfl

theorem inv_hostDetect {m : Mode} {p : List Byte} (e : hostDetect m p s = .next t) : Inv t := by
  unfold hostDetect at e
  split_ifs at e with hfit
  cases e
  exact h.of_session_eq (blockInv_detect (writeRange_wf h.wf hfit) m) rfl

theorem inv_accessShorthand {x : Shorthand} (e : accessShorthand x s = .next t) : Inv t := by
  cases x with
  | load a p => exact inv_accessLoad h e
  | encode z m q p => cases e; exact inv_hostEncode h z m q p
  | decode z m r => cases e; exact inv_hostDecode h z m r
  | detect m p => exact inv_hostDetect h e
  | sendframe => cases e; exact inv_sendFrame h

theorem inv_act {i : Input} (e : act i s = .next t) : Inv t := by
  cases i with
  | rdfb => exact inv_accessRdfb h e
  | wrfb => exact inv_accessWrfb h e
  | rdreg => exact inv_accessRdreg h e
  | wrreg => exact inv_accessWrreg h e
  | shorthand => exact inv_accessShorthand h e
  | reset => cases e; exact h.of_session_eq (blockInv_resetBlock s) rfl
  | openSender => exact inv_openSender h e
  | openReceiver => exact inv_openReceiver h e
  | wire => exact inv_wireArrives h e
  | timeout => cases e; exact inv_onTimeout h
  | cancel => cases e; exact inv_onCancel h

end

/-- Settles O3: with no input pending nothing happens; else the oldest is acted on, and every act keeps the invariant. -/
theorem everyStepKeepsTheInvariant : Obligations.EveryStepKeepsTheInvariant := by
  intro s t h e
  cases hi : s.inputs with
  | nil =>
    simp only [step, hi] at e
    cases e
    exact h
  | cons i rest =>
    rw [step_of_inputs hi] at e
    exact inv_act (s := { s with inputs := rest }) h e

end Sys2Proof.Machine
end

section
/-! SUPPORT. The function `decode` over the layout of a frame (41_frame_decode.md R54, 30_encoding.md R34). -/

namespace Sys2Proof.Machine

/-- A trailer is the bytes of the code it holds (30_encoding.md R40). -/
theorem trailerBytes_trailerValue {m : Mode} {t : List Byte} (h : t.length = tl m) :
    trailerBytes m (trailerValue m t) = t := by
  cases m with
  | checksum =>
    obtain ⟨b, rfl⟩ := List.length_eq_one_iff.1 h
    simp [trailerBytes, trailerValue, zext_loByte]
  | crc =>
    obtain ⟨b, d, rfl⟩ := List.length_eq_two.1 h
    simp [trailerBytes, trailerValue, hiByte_half, loByte_half]

/-- The bytes of a frame's length are a header, a payload and a trailer. -/
theorem exists_layout {raw : List Byte} {m : Mode} {z : BlockSize} (h : raw.length = flen z m) :
    ∃ b q c pay t, pay.length = bs z ∧ t.length = tl m ∧ raw = [b, q, c] ++ pay ++ t := by
  rw [flen] at h
  match raw, h with
  | b :: q :: c :: rest, h =>
    simp only [List.length_cons] at h
    exact ⟨b, q, c, rest.take (bs z), rest.drop (bs z), by rw [List.length_take]; omega,
      by rw [List.length_drop]; omega, by simp⟩
  | [], h | [_], h | [_, _], h => simp at h; omega

/-- `decode` on bytes of the right length: marker, complement and code, in this order. -/
theorem decodeBlock_layout {m : Mode} {z : BlockSize} (b q c : Byte) {pay t : List Byte} (hp : pay.length = bs z)
    (ht : t.length = tl m) :
    decodeBlock ([b, q, c] ++ pay ++ t) m z =
      if b ≠ marker z then .error .frameError
      else if q.toNat + c.toNat ≠ 255 then .error .frameError
      else if det m pay ≠ trailerValue m t then .error (detectionErr m)
      else .ok (q, pay) := by
  have hlen : ([b, q, c] ++ pay ++ t).length = flen z m := by simp [flen, hp, ht]; omega
  have hpay : (([b, q, c] ++ pay ++ t).drop payloadBase).take (bs z) = pay := by simp [payloadBase, ← hp]
  have htrailer : ([b, q, c] ++ pay ++ t).drop (payloadBase + bs z) = t := by simp [payloadBase, ← hp, Nat.add_comm 3]
  rw [decodeBlock, if_neg (not_not.2 hlen), hpay, htrailer]
  rfl

/-- The complement of a sequence (30_encoding.md R38). -/
theorem add_complement_iff (q c : Byte) : q.toNat + c.toNat = 255 ↔ c = 255#8 - q := by
  have := q.isLt
  rw [← BitVec.toNat_inj, complement_toNat]
  omega

theorem decodeBlock_eq_ok_iff (raw : List Byte) (m : Mode) (z : BlockSize) (q : Byte) (pay : List Byte) :
    decodeBlock raw m z = .ok (q, pay) ↔
      pay.length = bs z ∧ raw = [marker z, q, 255#8 - q] ++ pay ++ trailerBytes m (det m pay) := by
  constructor
  · intro h
    have hlen : raw.length = flen z m := by
      by_contra hne
      simp [decodeBlock, hne] at h
    obtain ⟨b, q', c, pay', t, hp, ht, rfl⟩ := exists_layout hlen
    rw [decodeBlock_layout b q' c hp ht] at h
    split_ifs at h with hb hc hd
    cases h
    rw [not_not] at hb hc hd
    exact ⟨hp, by rw [hb, (add_complement_iff q c).1 hc, hd, trailerBytes_trailerValue ht]⟩
  · rintro ⟨hp, rfl⟩
    rw [decodeBlock_layout _ _ _ hp (trailerBytes_length m _), if_neg (not_not.2 rfl),
      if_neg (not_not.2 ((add_complement_iff _ _).2 rfl)), if_neg (not_not.2 (trailerValue_trailerBytes m pay).symm)]

end Sys2Proof.Machine
end

section
/-! PROOF. `decode` accepts exactly the bytes of valid Blocks (10_state.md R18): what it accepts, with the Block read off
it. -/

namespace Sys2Proof.Machine

theorem codeBytes_detectionCode (m : Mode) (p : List Byte) : codeBytes (detectionCode m p) = trailerBytes m (det m p) := by
  cases m with
  | checksum => simp [codeBytes, detectionCode, trailerBytes, det, zext_loByte]
  | crc => rfl

/-- Settles O50: the frame of `decodeBlock_eq_ok_iff` is the bytes of one Block, whose complement validity determines. -/
theorem decodeAcceptsExactlyTheValidBlocks : Obligations.DecodeAcceptsExactlyTheValidBlocks := by
  intro raw m z q pay
  rw [decodeBlock_eq_ok_iff]
  constructor
  · rintro ⟨hp, rfl⟩
    exact ⟨⟨z, q, 255#8 - q, pay, detectionCode m pay⟩, ⟨hp, (add_complement_iff _ _).2 rfl⟩, rfl, rfl, rfl, rfl,
      by rw [blockBytes, codeBytes_detectionCode]⟩
  · rintro ⟨b, ⟨hp, hc⟩, rfl, rfl, rfl, hd, rfl⟩
    exact ⟨hp, by rw [blockBytes, hd, codeBytes_detectionCode, (add_complement_iff _ _).1 hc]⟩

end Sys2Proof.Machine
end

section
/-! PROOF. A step runs what its input decodes to, and an access is a step of the block alone: `act` opened for the inputs
that are a `CMD` write, bytes of a row, or an access. -/

namespace Sys2Proof.Machine

/-- Settles O4: the input is acted on, and bytes of a row are acted on by their decoding. -/
theorem aStepRunsTheDecodedInstruction : Obligations.AStepRunsTheDecodedInstruction := by
  constructor
  · intro s v rest hs
    exact step_of_inputs hs
  · intro s l i rest hs hl
    have hw : decodeWire l = .ok i := hl
    rw [step_of_inputs hs, act, wireArrives, hw]

theorem decodeCmd_space (v : Byte) : (decodeCmd v).space = .command := by
  simp only [decodeCmd, apply_ite Instr.space]
  simp only [Instr.space, ite_self]

/-- The row a `CMD` write selects is the block's own command, run in its environment. -/
theorem exec_decodeCmd (v : Byte) (s : State) : exec (decodeCmd v) s = .next (onBlock (Xfc.command v) s) := by
  have hs := decodeCmd_space v
  unfold Xfc.command
  cases hv : decodeCmd v with
  | detCs | detCrc | enc128Cs | enc128Crc | enc1kCs | enc1kCrc | dec128Cs | dec128Crc | dec1kCs | dec1kCrc => rfl
  | illegalDet | illegalOp3 | illegalBit4 | illegalBit5 | illegalBit6 | illegalBit7 => rfl
  | _ => rw [hv] at hs; cases hs

/-- Settles O49: each access does to the machine what it does to the block's record, a `CMD` write by
`exec_decodeCmd`. -/
theorem anAccessIsAStepOfTheBlockAlone : Obligations.AnAccessIsAStepOfTheBlockAlone := by
  intro a s rest hs
  rw [step_of_inputs hs]
  cases a with
  | rdfb a =>
    simp only [Access.input, act, accessRdfb, Xfc.access]
    split <;> rfl
  | wrfb a b =>
    simp only [Access.input, act, accessWrfb, Xfc.access]
    split <;> rfl
  | rdreg r =>
    simp only [Access.input, act, accessRdreg, Xfc.access]
    cases s.toXfc.readReg r <;> rfl
  | wrreg w =>
    cases w with
    | cmd v => exact exec_decodeCmd v { s with inputs := rest, cmd := v }
    | seq | len | status | rseq | det | outlen | reserved => rfl
  | reset => rfl

end Sys2Proof.Machine
end

section
/-! SUPPORT. The host's reads by what they return: an FB byte that has been written, and each register by its number. -/

namespace Sys2Proof.Machine

/-- A byte that has been written is what a read gives (20_memory.md R30). -/
theorem some_read_of_isSome {m : Memory} {a : Nat} (h : (m.byteAt? a).isSome = true) (d : Nat) :
    some (m.read d a) = m.byteAt? a := by
  obtain ⟨b, hb⟩ := Option.isSome_iff_exists.1 h
  rw [hb, read_of_byteAt? hb]

theorem readRange_getElem?_of_written {m : Memory} {a n k : Nat} (h : m.written a n) (hk : k < n) (d : Nat) :
    (m.readRange d a n)[k]? = m.byteAt? (a + k) := by
  rw [readRange_getElem? m d a n k hk, some_read_of_isSome (h (a + k) (by omega) (by omega))]

theorem accessRdreg_of_readReg {s : State} {r : Nat} {v : BusValue} (h : s.toXfc.readReg r = some v) :
    accessRdreg r s = .next { s with returned := some v } := by
  rw [accessRdreg, h]

/-- A number of 7 and above names no register (20_memory.md R26). -/
theorem readReg_reserved (b : Xfc) (n : Nat) : b.readReg (7 + n) = none := by
  rw [Nat.add_comm]; rfl

end Sys2Proof.Machine
end

section
/-! SUPPORT. A sequence presented to the decoder: `DEC` over a sequence that stands at `FB[0 ..]` writes what the function
`decode` says of it (41_frame_decode.md R54, R55), and `DECODE.E.M` brings it there (30_encoding.md R47). -/

namespace Sys2Proof.Machine

/-- A sequence stands at `FB[0 ..]`. -/
def Memory.startsWith (m : Memory) (l : List Byte) : Prop := ∀ k < l.length, m.byteAt? k = l[k]?

theorem Memory.startsWith.read_eq {m : Memory} {l : List Byte} (h : m.startsWith l) {k : Nat} (hk : k < l.length)
    (d : Nat) : m.read d k = l.getD k 0x00#8 := by
  rw [Memory.read, h k hk, List.getD_eq_getElem?_getD, List.getElem?_eq_getElem hk]
  rfl

theorem Memory.startsWith.written {m : Memory} {l : List Byte} (h : m.startsWith l) : m.written 0 l.length := by
  intro k _ hk
  rw [Nat.zero_add] at hk
  rw [h k hk, List.getElem?_eq_getElem hk]
  rfl

theorem Memory.startsWith.readRange_eq {m : Memory} {l : List Byte} (h : m.startsWith l) {a n : Nat}
    (hn : a + n ≤ l.length) (d : Nat) : m.readRange d a n = (l.drop a).take n := by
  apply List.ext_getElem?
  intro k
  by_cases hk : k < n
  · rw [readRange_getElem?_of_written (fun i _ hi => h.written i (by omega) (by omega)) hk, h _ (by omega),
      List.getElem?_take_of_lt hk, List.getElem?_drop]
  · rw [List.getElem?_eq_none (by simpa using hk), List.getElem?_eq_none (by simp; omega)]

/-- The result registers written with what `decode` answers (41_frame_decode.md R55). -/
def verdict (z : BlockSize) (m : Mode) (r : Except Err (Byte × List Byte)) (s : State) : State :=
  match r with
  | .ok (q, pay) => complete q (det m pay) (BitVec.ofNat 16 (bs z)) s
  | .error e => raise e s

/-- A wrong length is refused before any read; else the checks are those of `decode` on the bytes as they stand. -/
theorem decodeCommand_eq_verdict (z : BlockSize) (m : Mode) {s : State} {raw : List Byte}
    (hlen : s.len.toNat = raw.length) (h : s.fb.startsWith raw) :
    ∃ n, decodeCommand z m s = verdict z m (decodeBlock raw m z) { s with draws := n } := by
  by_cases hf : raw.length = flen z m
  · have hb := (flen_bounds z m).1
    have h3 : payloadBase = 3 := rfl
    have hw := h.written
    have htrailer : (raw.drop (payloadBase + bs z)).take (tl m) = raw.drop (payloadBase + bs z) :=
      List.take_of_length_le (by rw [List.length_drop]; omega)
    rw [hf] at hlen hw
    refine ⟨s.draws + flen z m + 1, ?_⟩
    rw [decodeCommand_written z m s 0 hlen hw, h.read_eq (by omega), h.read_eq (by omega), h.read_eq (by omega),
      h.readRange_eq (by omega), h.readRange_eq (by omega), htrailer, decodeBlock, if_neg (not_not.2 hf)]
    split_ifs <;> rfl
  · refine ⟨s.draws, ?_⟩
    rw [decodeCommand_eq, if_pos (by rwa [hlen]), decodeBlock, if_pos hf]
    rfl

/-- A sequence that fits FB is presented, whatever its length, by the `DECODE` of any size and mode. -/
theorem presented_hostDecode (z : BlockSize) (m : Mode) {bytes : List Byte} (h : bytes.length ≤ Config.fbSize)
    (s : State) : presented z m bytes s (hostDecode z m bytes s) := by
  have hlen : (BitVec.ofNat 16 bytes.length).toNat = bytes.length :=
    Nat.mod_eq_of_lt (h.trans_lt (by decide))
  have hfb : ∀ k, (s.fb.writeRange 0 bytes).byteAt? k = if k < bytes.length then bytes[k]? else s.fb.byteAt? k := by
    intro k; simp [byteAt?_writeRange]
  obtain ⟨n, hn⟩ := decodeCommand_eq_verdict z m (raw := bytes)
    (s := { load 0 bytes s with len := BitVec.ofNat 16 bytes.length, cmd := cmdByte opDec z m }) hlen
    (fun k hk => (hfb k).trans (if_pos hk))
  rw [hostDecode_fits z m h, hn, presented]
  cases decodeBlock bytes m z with
  | ok r => exact ⟨hfb, rfl, rfl, rfl, rfl, rfl, rfl, rfl, rfl, rfl, rfl⟩
  | error e => exact ⟨hfb, rfl, rfl, rfl, rfl, rfl, rfl, rfl, rfl, rfl, rfl⟩

end Sys2Proof.Machine
end

section
/-! PROOF. What crosses between the frame buffer and the host (20_memory.md R21, R22, R26, R31): the accesses, the frame
sent, the frame stored and judged. -/

namespace Sys2Proof.Machine

/-- Settles O29: the bytes sent are `FB[0 +: OUTLEN]` as read, and a written byte reads as it stands. -/
theorem sendframeSendsTheFrameInOrder : Obligations.SendframeSendsTheFrameInOrder := by
  intro s rest hs hw
  refine ⟨s.fb.readRange s.draws 0 s.outlen.toNat, step_of_inputs hs, readRange_length _ _ _ _, fun k hk => ?_⟩
  rw [readRange_getElem?_of_written hw hk, Nat.zero_add]

/-- Settles O30: without a session the frame is presented by `DECODE`, and what `decode` accepts is the layout of its own
answer (`decodeBlock_eq_ok_iff`), so the fields agree. -/
theorem aFrameIsStoredAndJudged : Obligations.AFrameIsStoredAndJudged := by
  intro z m q c p e s hs hp
  have hlen := length_encode_frameInstr z m q c p e hp
  have hexec : exec (frameInstr z m q c p e) s = .next (hostDecode z m (encode (frameInstr z m q c p e)) s) := by
    rw [exec_frameInstr, frameArrives, hs]
  refine ⟨_, hexec, presented_hostDecode z m (hlen.trans_le (flen_bounds z m).2) s, by simp [hs], by simp, ?_⟩
  intro r pay hok
  obtain ⟨hpay, hlayout⟩ := (decodeBlock_eq_ok_iff _ m z r pay).1 hok
  rw [encode_frameInstr] at hlayout
  obtain ⟨hhead, -⟩ := List.append_inj hlayout (by simp [hp, hpay])
  obtain ⟨hheader, hpayload⟩ := List.append_inj hhead rfl
  simp only [List.cons.injEq] at hheader
  obtain ⟨-, rfl, -⟩ := hheader
  exact ⟨rfl, hpayload.symm⟩

/-- Settles O26: an address inside FB is read or written, and one past the end fails the bound both accesses check. -/
theorem frameBufferAccesses : Obligations.FrameBufferAccesses := by
  intro s rest a b
  have hsize : Config.fbSize = 1029 := rfl
  refine ⟨fun hs ha => ?_, fun hs ha => ?_, fun ha hs => ?_⟩
  · refine ⟨s.fb.read s.draws a, fun w hw => read_of_byteAt? hw _, ?_⟩
    rw [step_of_inputs hs, act, accessRdfb, if_pos (by omega)]
  · refine ⟨load a [b] { s with inputs := rest }, ?_, ?_, fun k hk => ?_, rfl⟩
    · rw [step_of_inputs hs, act, accessWrfb, if_pos (by omega)]
    · simp [byteAt?_writeRange]
    · rw [load_fb, byteAt?_writeRange, if_neg (by simp; omega)]
  · rcases hs with hs | hs
    · rw [step_of_inputs hs, act, accessRdfb, if_neg (by omega)]
    · rw [step_of_inputs hs, act, accessWrfb, if_neg (by omega)]

/-- Settles O27: each register by its number; `WRREG` by the register it names. -/
theorem registerAccesses : Obligations.RegisterAccesses := by
  intro s rest
  refine ⟨fun r v hrv hs => ?_, fun v => step_of_inputs, fun v => step_of_inputs, fun v => step_of_inputs,
    fun v h w hw hs => ?_, fun n h hs => ?_⟩
  · have hreg : s.toXfc.readReg r = some v := by
      simp only [List.mem_cons, Prod.mk.injEq, List.not_mem_nil, or_false] at hrv
      rcases hrv with ⟨rfl, rfl⟩ | ⟨rfl, rfl⟩ | ⟨rfl, rfl⟩ | ⟨rfl, rfl⟩ | ⟨rfl, rfl⟩ | ⟨rfl, rfl⟩ | ⟨rfl, rfl⟩ <;> rfl
    rw [step_of_inputs hs]
    exact accessRdreg_of_readReg (s := { s with inputs := rest }) hreg
  · rw [step_of_inputs hs]
    simp only [List.mem_cons, List.not_mem_nil, or_false] at hw
    rcases hw with rfl | rfl | rfl | rfl <;> rfl
  · rcases hs with hs | hs
    · rw [step_of_inputs hs, act, accessRdreg, readReg_reserved]
    · rw [step_of_inputs hs]
      rfl

end Sys2Proof.Machine
end

section
/-! SUPPORT. The rows of one byte: the control bytes and the pad byte on the wire (30_encoding.md R32, R33, R39), and
the commands (R43, R44). -/

namespace Sys2Proof.Machine

/-- The rows that are one byte on the wire, each with its byte (30_encoding.md R32, R39). -/
def loneRows : List (Instr × Byte) :=
  [(.soh, 0x01#8), (.stx, 0x02#8), (.eot, 0x04#8), (.ack, 0x06#8), (.nak, 0x15#8), (.can, 0x18#8), (.crcreq, 0x43#8),
    (.pad, 0x1A#8)]

theorem loneRows_encoding : ∀ x ∈ loneRows, x.1.wf = true ∧ x.1.space = .wire ∧ encode x.1 = [x.2] := by decide

theorem decodeLone_eq_ok_iff {b : Byte} {i : Instr} : decodeLone b = .ok i ↔ (i, b) ∈ loneRows := by
  constructor
  · intro h
    have hrows : ∀ b, ∀ i ∈ (decodeLone b).toOption, (i, b) ∈ loneRows := by decide
    exact hrows b i (by rw [h]; rfl)
  · exact (by decide : ∀ x ∈ loneRows, decodeLone x.2 = .ok x.1) (i, b)

theorem exec_loneRow {i : Instr} {b : Byte} (h : (i, b) ∈ loneRows) (s : State) :
    exec i s = .next (receiveByte b s) := by
  simp only [loneRows, List.mem_cons, Prod.mk.injEq, List.not_mem_nil, or_false] at h
  rcases h with ⟨rfl, rfl⟩ | ⟨rfl, rfl⟩ | ⟨rfl, rfl⟩ | ⟨rfl, rfl⟩ | ⟨rfl, rfl⟩ | ⟨rfl, rfl⟩ | ⟨rfl, rfl⟩ | ⟨rfl, rfl⟩
  all_goals rfl

theorem decodeCmd_wf (v : Byte) : (decodeCmd v).wf = true := by
  simp only [decodeCmd, apply_ite Instr.wf]
  simp only [Instr.wf, ite_self]

/-- The match and mask of each row leave exactly its operand bits free (30_encoding.md R43, R44). -/
theorem encode_decodeCmd : ∀ v : Byte, encode (decodeCmd v) = [v] := by decide

/-- The command of a layout `0000 OP SIZE MODE` (30_encoding.md R42, R43). -/
theorem decodeCmd_cmdByte_enc (z : BlockSize) (m : Mode) : decodeCmd (cmdByte opEnc z m) = encInstr z m := by
  cases z <;> cases m <;> rfl

theorem decodeCmd_cmdByte_dec (z : BlockSize) (m : Mode) : decodeCmd (cmdByte opDec z m) = decInstr z m := by
  cases z <;> cases m <;> rfl

theorem decodeCmd_cmdByte_det (m : Mode) : decodeCmd (cmdByte opDet .b128 m) = detInstr m := by
  cases m <;> rfl

/-- A command is one byte, which decodes to it whatever its don't-care bits (30_encoding.md R43, R44). -/
theorem decode_encode_command {i : Instr} (h : i.space = .command) : decode .command (encode i) = .ok i := by
  cases i with
  | detCs | detCrc | enc128Cs | enc128Crc | enc1kCs | enc1kCrc | dec128Cs | dec128Crc | dec1kCs | dec1kCrc => rfl
  | illegalDet x | illegalOp3 x | illegalBit4 x | illegalBit5 x | illegalBit6 x | illegalBit7 x =>
    revert x; decide
  | _ => cases h

end Sys2Proof.Machine
end

section
/-! SUPPORT. A whole frame on the wire: its length names its format, its fields are the row's operands
(30_encoding.md R34, R35, R45). -/

namespace Sys2Proof.Machine

theorem frameInstr_wf (z : BlockSize) (m : Mode) (q c : Byte) {p : List Byte} (h : p.length = bs z) (d : Half) :
    (frameInstr z m q c p d).wf = true := by
  cases z <;> cases m <;> exact beq_iff_eq.2 h

theorem frameInstr_space (z : BlockSize) (m : Mode) (q c : Byte) (p : List Byte) (d : Half) :
    (frameInstr z m q c p d).space = .wire := by
  cases z <;> cases m <;> rfl

/-- A frame's row depends on its code only through the trailer. -/
theorem frameInstr_trailer (z : BlockSize) (m : Mode) (q c : Byte) (p : List Byte) (d : Half) :
    frameInstr z m q c p (trailerValue m (trailerBytes m d)) = frameInstr z m q c p d := by
  cases z <;> cases m <;> simp [frameInstr, trailerValue, trailerBytes, zext_loByte, half_hiByte_loByte]

/-- A well-formed row of the wire is a whole frame or a lone byte. -/
theorem wire_rows {i : Instr} (hs : i.space = .wire) (hw : i.wf = true) :
    (∃ z m q c p d, p.length = bs z ∧ i = frameInstr z m q c p d) ∨ ∃ b, (i, b) ∈ loneRows := by
  cases i with
  | f128Cs q c p d =>
    exact .inl ⟨.b128, .checksum, q, c, p, 0x00#8 ++ d, beq_iff_eq.1 hw, by rw [frameInstr, zext_loByte]⟩
  | f128Crc q c p d => exact .inl ⟨.b128, .crc, q, c, p, d, beq_iff_eq.1 hw, rfl⟩
  | f1kCs q c p d =>
    exact .inl ⟨.b1k, .checksum, q, c, p, 0x00#8 ++ d, beq_iff_eq.1 hw, by rw [frameInstr, zext_loByte]⟩
  | f1kCrc q c p d => exact .inl ⟨.b1k, .crc, q, c, p, d, beq_iff_eq.1 hw, rfl⟩
  | soh | stx | eot | ack | nak | can | crcreq | pad => exact .inr (by simp [loneRows])
  | _ => cases hs

/-- The fields at the offsets of the format a frame's length names (30_encoding.md R34, R35). -/
theorem decodeFrame_layout {z : BlockSize} {m : Mode} (b q c : Byte) {p t : List Byte} (hp : p.length = bs z)
    (ht : t.length = tl m) :
    decodeFrame b q c (p ++ t) =
      if b = marker z then .ok (frameInstr z m q c p (trailerValue m t)) else .error (.badMarker b) := by
  have hlen : (p ++ t).length = bs z + tl m := by simp [hp, ht]
  have htake : (p ++ t).take (bs z) = p := List.take_left' hp
  have hget (k : Nat) : (p ++ t).getD (bs z + k) 0x00#8 = t.getD k 0x00#8 := by
    rw [List.getD_append_right _ _ _ _ (by omega), hp, Nat.add_sub_cancel_left]
  have hget0 := hget 0
  have hget1 := hget 1
  -- the four lengths differ, so each takes the branch of its own format
  cases z <;> cases m
  all_goals
    simp only [bs, tl, Nat.reduceAdd] at hlen htake hget0 hget1
    simp only [decodeFrame, hlen, htake, hget0, hget1, frameInstr, trailerValue, zext_loByte, Nat.reduceEqDiff,
      if_true, if_false]
    rfl

/-- A length that no format has is refused (30_encoding.md R45). -/
theorem exists_format_of_decodeFrame {b q c : Byte} {rest : List Byte} {i : Instr}
    (h : decodeFrame b q c rest = .ok i) : ∃ z m, rest.length = bs z + tl m := by
  rw [decodeFrame] at h
  split_ifs at h with h129 _ h130 _ h1025 _ h1026
  · exact ⟨.b128, .checksum, h129⟩
  · exact ⟨.b128, .crc, h130⟩
  · exact ⟨.b1k, .checksum, h1025⟩
  · exact ⟨.b1k, .crc, h1026⟩

end Sys2Proof.Machine
end

section
/-! PROOF. Decoder and encoder are inverse to each other (30_encoding.md R32 to R45), row by row: a command, a lone
byte, a frame. -/

namespace Sys2Proof.Machine

theorem decode_encode_frameInstr (z : BlockSize) (m : Mode) (q c : Byte) {p : List Byte} (h : p.length = bs z)
    (d : Half) : decode .wire (encode (frameInstr z m q c p d)) = .ok (frameInstr z m q c p d) := by
  have hl := decodeFrame_layout (marker z) q c h (trailerBytes_length m d)
  rw [if_pos rfl, frameInstr_trailer] at hl
  rw [encode_frameInstr]
  exact hl

/-- Settles O8: a command by its byte; a frame by its layout; a lone byte by its row. -/
theorem decodeOfEncodeIsTheInstruction : Obligations.DecodeOfEncodeIsTheInstruction := by
  intro i hw
  cases hs : i.space with
  | command => exact decode_encode_command hs
  | wire =>
    obtain ⟨z, m, q, c, p, d, hp, rfl⟩ | ⟨b, hb⟩ := wire_rows hs hw
    · exact decode_encode_frameInstr z m q c hp d
    · obtain ⟨-, -, he⟩ := loneRows_encoding _ hb
      rw [he]
      exact decodeLone_eq_ok_iff.2 hb

/-- What is read as a frame is a frame, with the fields it was read from (30_encoding.md R34). -/
theorem decodeFrame_eq_ok {b q c : Byte} {rest : List Byte} {i : Instr} (h : decodeFrame b q c rest = .ok i) :
    i.wf = true ∧ i.space = .wire ∧ encode i = b :: q :: c :: rest := by
  obtain ⟨z, m, hlen⟩ := exists_format_of_decodeFrame h
  have hp : (rest.take (bs z)).length = bs z := by rw [List.length_take]; omega
  have ht : (rest.drop (bs z)).length = tl m := by rw [List.length_drop]; omega
  rw [← List.take_append_drop (bs z) rest, decodeFrame_layout b q c hp ht] at h
  split_ifs at h with hb
  cases h
  refine ⟨frameInstr_wf z m q c hp _, frameInstr_space z m q c _ _, ?_⟩
  rw [encode_frameInstr, trailerBytes_trailerValue ht, List.append_assoc, List.take_append_drop, hb]
  rfl

/-- Settles O9: by the position, and on the wire by the number of bytes. -/
theorem encodeOfDecodeIsTheBytes : Obligations.EncodeOfDecodeIsTheBytes := by
  intro sp l i h
  match sp, l, h with
  | .command, [v], h =>
    cases h
    exact ⟨decodeCmd_wf v, decodeCmd_space v, encode_decodeCmd v⟩
  | .wire, [b], h => exact loneRows_encoding _ (decodeLone_eq_ok_iff.1 h)
  | .wire, b :: q :: c :: rest, h => exact decodeFrame_eq_ok h

/-- Settles O10: each word is looked up in the table. -/
theorem wordsOfTheTableDecode : Obligations.WordsOfTheTableDecode := by
  unfold Obligations.WordsOfTheTableDecode
  decide

end Sys2Proof.Machine
end

section
/-! PROOF. The sequence and its complement (30_encoding.md R38), in a frame that is built and in one that is judged. -/

namespace Sys2Proof.Machine

/-- A wrong complement is a `FrameError`, as is every check before it (41_frame_decode.md R54). -/
theorem decodeBlock_of_complement_ne {raw : List Byte}
    (h : (raw.getD 1 0x00#8).toNat + (raw.getD 2 0x00#8).toNat ≠ 255) (m : Mode) (z : BlockSize) :
    decodeBlock raw m z = .error .frameError := by
  rw [decodeBlock, if_pos h, ite_self, ite_self]

/-- The complement is the bitwise one: no bit of `255 - seq` borrows. -/
theorem complement_eq_xor (q : Byte) : 255#8 - q = q ^^^ 0xFF#8 := by
  have hones : 255#8 = BitVec.allOnes 8 := rfl
  rw [hones, BitVec.allOnes_sub_eq_not, BitVec.xor_allOnes]

/-- Settles O18: `encode` writes the complement, and `decode` never accepts another. -/
theorem sequenceAndComplementSumTo255 : Obligations.SequenceAndComplementSumTo255 := by
  refine ⟨add_complement_iff, complement_eq_xor, fun q p m z f hf => ?_, fun raw m z r hr => ?_,
    fun raw m z h => decodeBlock_of_complement_ne h m z⟩
  · rw [encodeBlock] at hf
    split_ifs at hf
    cases hf
    exact ⟨rfl, rfl⟩
  · by_contra h
    rw [decodeBlock_of_complement_ne h] at hr
    cases hr

end Sys2Proof.Machine
end

section
/-! PROOF. A lone byte of the wire: data inside a block, nothing without a session (30_encoding.md R32, R33). -/

namespace Sys2Proof.Machine

/-- A byte that does not make the block whole is kept (43_session_environment.md R82). -/
theorem blockByte_of_lt {c : Session} (hne : c.partialBlock ≠ [])
    (hlt : c.partialBlock.length + 1 < flen (sizeOfMarker (c.partialBlock.getD 0 0x00#8)) c.mode) (b : Byte)
    (s : State) : blockByte b c s = setSession { c with partialBlock := c.partialBlock ++ [b] } s := by
  have hhead : (c.partialBlock ++ [b]).getD 0 0x00#8 = c.partialBlock.getD 0 0x00#8 :=
    List.getD_append _ _ _ 0 (List.length_pos_iff.2 hne)
  rw [blockByte, if_pos (by rwa [hhead, List.length_append])]

/-- Settles O35: the receiver keeps the byte, and each of the eight rows delivers its byte. -/
theorem bytesInsideABlockAreData : Obligations.BytesInsideABlockAreData := by
  intro s c hs hp hne hlt
  have hdata : ∀ b, receiveByte b s = { s with session := some { c with partialBlock := c.partialBlock ++ [b] } } := by
    intro b
    rw [receiveByte_awaitBlock hs hp, if_neg hne, blockByte_of_lt hne hlt]
    rfl
  exact ⟨hdata, fun i b hib => by rw [exec_loneRow hib, hdata]⟩

/-- Without a session nobody reads (30_encoding.md R32). -/
theorem receiveByte_noSession {s : State} (h : s.session = none) (b : Byte) : receiveByte b s = s := by
  rw [receiveByte, h]

/-- Settles O36: each of the eight rows delivers its byte, and nobody reads it. -/
theorem controlBytesDoNothingToTheBlockAlone : Obligations.ControlBytesDoNothingToTheBlockAlone := by
  intro s hs i hi
  obtain ⟨⟨i, b⟩, hib, rfl⟩ := List.exists_of_mem_map (f := Prod.fst) (l := loneRows) hi
  rw [exec_loneRow hib, receiveByte_noSession hs]

end Sys2Proof.Machine
end

section
/-! SUPPORT. What a shorthand comes to: what fits FB is loaded, and the host reports nothing but what it cannot present
(30_encoding.md R47). -/

namespace Sys2Proof.Machine

/-- A sequence that fits FB is loaded. -/
theorem accessLoad_fits {s : State} (h : s.fb.wf) {a : Nat} {p : List Byte} (hp : a + p.length ≤ Config.fbSize) :
    accessLoad a p s = .next (load a p s) := by
  by_cases hnil : p = []
  · subst hnil
    rw [accessLoad, if_pos rfl, load, writeRange_nil h]
  · rw [accessLoad, if_neg hnil, if_pos hp]

theorem accessLoad_overflow {a : Nat} {p : List Byte} (hne : p ≠ []) (hp : Config.fbSize < a + p.length) (s : State) :
    accessLoad a p s = .fault (.reservedFbAddress (max a Config.fbSize)) := by
  rw [accessLoad, if_neg hne, if_neg (by omega)]

/-- A `LOAD` writes its first byte and then loads the rest (30_encoding.md R47). -/
theorem accessLoad_cons (a : Nat) (b : Byte) (t : List Byte) (s : State) :
    accessLoad a (b :: t) s =
      if a < Config.fbSize then accessLoad (a + 1) t (load a [b] s) else .fault (.reservedFbAddress a) := by
  split
  · next ha =>
    by_cases hnil : t = []
    · subst hnil
      rw [accessLoad, if_neg (by simp), if_pos (by simpa using ha), accessLoad, if_pos rfl]
    · by_cases hfits : a + 1 + t.length ≤ Config.fbSize
      · rw [accessLoad, if_neg (by simp), if_pos (by rw [List.length_cons]; omega), accessLoad, if_neg hnil,
          if_pos hfits, load, load, load_fb, writeRange_cons]
        rfl
      · rw [accessLoad_overflow (by simp) (by rw [List.length_cons]; omega), accessLoad_overflow hnil (by omega),
          max_eq_right (Nat.succ_le_of_lt ha), max_eq_right ha.le]
  · next ha => rw [accessLoad_overflow (by simp) (by rw [List.length_cons]; omega), max_eq_left (by omega)]

/-- `DETECT.M P` that fits FB is the load, the two register writes and the command (30_encoding.md R47). -/
theorem hostDetect_fits (m : Mode) {p : List Byte} (h : payloadBase + p.length ≤ Config.fbSize) (s : State) :
    hostDetect m p s =
      .next (detect m
        { load payloadBase p s with len := BitVec.ofNat 16 p.length, cmd := cmdByte opDet .b128 m }) := by
  rw [hostDetect, if_pos h]

theorem accessLoad_reported {a : Nat} {p : List Byte} {s t : State} (h : accessLoad a p s = .next t) :
    t.reported = s.reported := by
  rw [accessLoad] at h
  split_ifs at h <;> cases h <;> rfl

theorem hostDetect_reported {m : Mode} {p : List Byte} {s t : State} (h : hostDetect m p s = .next t) :
    t.reported = s.reported := by
  rw [hostDetect] at h
  split_ifs at h
  cases h
  rfl

end Sys2Proof.Machine
end

section
/-! PROOF. What the host reports itself (30_encoding.md R47). -/

namespace Sys2Proof.Machine

/-- Settles O51: an `ENCODE` or a `DECODE` that can be presented is a load and a command, and neither reports. -/
theorem theHostReportsWhatItCannotPresent : Obligations.TheHostReportsWhatItCannotPresent := by
  intro s rest
  refine ⟨fun z m q p hp hs => ?_, fun z m r hr hs => ?_, fun h t henc hdec hs ht => ?_⟩
  · rw [step_of_inputs hs, act, accessShorthand, hostEncode, if_pos hp]
  · rw [step_of_inputs hs, act, accessShorthand, hostDecode, if_pos (show Config.fbSize < r.length from hr)]
  · rw [step_of_inputs hs] at ht
    cases h with
    | load a p => exact accessLoad_reported (s := { s with inputs := rest }) ht
    | encode z m q p =>
      rw [act, accessShorthand, hostEncode_fits z m q (henc z m q p rfl)] at ht
      cases ht
      rfl
    | decode z m r =>
      rw [act, accessShorthand, hostDecode_fits z m (hdec z m r rfl)] at ht
      cases ht
      rfl
    | detect m p => exact hostDetect_reported (s := { s with inputs := rest }) ht
    | sendframe => cases ht; rfl

end Sys2Proof.Machine
end

section
/-! SUPPORT. The machine run access by access (30_encoding.md R46): the writes of a `LOAD`, and the register writes that
follow it. -/

namespace Sys2Proof.Machine

/-- `k` steps of the machine. -/
def steps (k : Nat) (s : State) : Host.Outcome State Fault Refusal := Host.Core.run Sys2Proof.core k s

/-- `k` further steps from an outcome, if it is a state. -/
def andSteps (k : Nat) (o : Host.Outcome State Fault Refusal) : Host.Outcome State Fault Refusal :=
  match o with
  | .next s => steps k s
  | .fault f => .fault f
  | .refused r => .refused r

theorem steps_succ (k : Nat) (s : State) : steps (k + 1) s = andSteps k (step s) := by
  cases h : step s <;> simp [steps, andSteps, Host.Core.run, Sys2Proof.core, h]

theorem andSteps_zero (o : Host.Outcome State Fault Refusal) : andSteps 0 o = o := by
  cases o <;> rfl

@[simp] theorem length_loadAccesses (a : Nat) (p : List Byte) : (loadAccesses a p).length = p.length := by
  induction p generalizing a with
  | nil => rfl
  | cons b t ih => rw [loadAccesses, List.length_cons, ih, List.length_cons]

/-- The writes of a `LOAD` one by one come to what the `LOAD` comes to as one action, its fault included. -/
theorem steps_loadAccesses (k a : Nat) (p : List Byte) (s : State) (rest : List Input) :
    steps (p.length + k) { s with inputs := loadAccesses a p ++ rest } =
      andSteps k (accessLoad a p { s with inputs := rest }) := by
  induction p generalizing a s with
  | nil =>
    rw [List.length_nil, Nat.zero_add]
    rfl
  | cons b t ih =>
    have hstep : step { s with inputs := loadAccesses a (b :: t) ++ rest } =
        accessWrfb a b { s with inputs := loadAccesses (a + 1) t ++ rest } := rfl
    rw [List.length_cons, Nat.add_right_comm, steps_succ, hstep, accessWrfb, accessLoad_cons]
    split
    · exact ih (a + 1) (load a [b] s)
    · rfl

/-- A payload that fits FB is loaded, and the rest of an expansion follows. -/
theorem steps_load_fits {s : State} (h : s.fb.wf) {a : Nat} {p : List Byte} (hp : a + p.length ≤ Config.fbSize)
    (l rest : List Input) :
    steps (loadAccesses a p ++ l).length { s with inputs := (loadAccesses a p ++ l) ++ rest } =
      steps l.length { load a p s with inputs := l ++ rest } := by
  rw [List.length_append, length_loadAccesses, List.append_assoc, steps_loadAccesses,
    accessLoad_fits (s := { s with inputs := l ++ rest }) h hp]
  rfl

theorem steps_wrregSeq (k : Nat) (q : Byte) (s : State) (l : List Input) :
    steps (k + 1) { s with inputs := .wrreg (.seq q) :: l } = steps k { s with inputs := l, seq := q } := rfl

theorem steps_wrregLen (k : Nat) (n : Half) (s : State) (l : List Input) :
    steps (k + 1) { s with inputs := .wrreg (.len n) :: l } = steps k { s with inputs := l, len := n } := rfl

theorem steps_wrregCmd (v : Byte) (s : State) (l : List Input) :
    steps 1 { s with inputs := .wrreg (.cmd v) :: l } = exec (decodeCmd v) { s with inputs := l, cmd := v } := by
  rw [steps_succ, andSteps_zero]
  rfl

/-- The two accesses every expansion that runs a command ends with. -/
theorem steps_lenThenCmd (n : Half) (v : Byte) (s : State) (l : List Input) :
    steps 2 { s with inputs := .wrreg (.len n) :: .wrreg (.cmd v) :: l } =
      exec (decodeCmd v) { s with inputs := l, len := n, cmd := v } :=
  (steps_wrregLen 1 n s _).trans (steps_wrregCmd v { s with len := n } l)

end Sys2Proof.Machine
end

section
/-! PROOF. The shorthands against their expansions (30_encoding.md R46, R47). -/

namespace Sys2Proof.Machine

/-- Settles O28: the load by induction on its bytes, then the register writes and the command one by one. -/
theorem shorthandsAreTheirExpansions : Obligations.ShorthandsAreTheirExpansions := by
  intro h s rest hwf hsend henc hdec
  change steps (expandShorthand h).length { s with inputs := expandShorthand h ++ rest } =
    accessShorthand h { s with inputs := rest }
  have hsize : Config.fbSize = 1029 := rfl
  have hbase : payloadBase = 3 := rfl
  cases h with
  | load a p =>
    have hload := steps_loadAccesses 0 a p s rest
    rw [Nat.add_zero, andSteps_zero] at hload
    rwa [expandShorthand, length_loadAccesses]
  | encode z m q p =>
    have hp := henc z m q p rfl
    rw [expandShorthand, steps_load_fits hwf (by omega), accessShorthand, hostEncode_fits z m q hp, ← exec_encInstr,
      ← decodeCmd_cmdByte_enc]
    exact (steps_wrregSeq 2 q (load payloadBase p s) _).trans
      (steps_lenThenCmd _ _ { load payloadBase p s with seq := q } _)
  | decode z m r =>
    have hr := hdec z m r rfl
    rw [expandShorthand, steps_load_fits hwf (by omega), accessShorthand, hostDecode_fits z m hr, ← exec_decInstr,
      ← decodeCmd_cmdByte_dec]
    exact steps_lenThenCmd _ _ (load 0 r s) _
  | detect m p =>
    by_cases hp : payloadBase + p.length ≤ Config.fbSize
    · rw [expandShorthand, steps_load_fits hwf hp, accessShorthand, hostDetect_fits m hp, ← exec_detInstr,
        ← decodeCmd_cmdByte_det]
      exact steps_lenThenCmd _ _ (load payloadBase p s) _
    · have hne : p ≠ [] := by rintro rfl; exact hp (by decide)
      rw [expandShorthand, List.length_append, length_loadAccesses, List.append_assoc, steps_loadAccesses,
        accessLoad_overflow hne (by omega), accessShorthand, hostDetect, if_neg hp]
      rfl
  | sendframe => exact absurd rfl hsend

end Sys2Proof.Machine
end

section
/-! PROOF. The function `encode` gives the bytes of a valid Block (40_frame_encode.md R48, 10_state.md R18). -/

namespace Sys2Proof.Machine

/-- The Block of a payload that fits: padded, with its complement and its detection code (40_frame_encode.md R48). -/
def blockOf (q : Byte) (p : List Byte) (m : Mode) (z : BlockSize) : Block where
  startMarker := z
  sequence := q
  complement := 255#8 - q
  payload := padded z p
  detectionCode := detectionCode m (padded z p)

theorem length_padded {z : BlockSize} {p : List Byte} (h : p.length ≤ bs z) : (padded z p).length = bs z := by
  rw [padded, List.length_append, List.length_replicate]
  omega

theorem blockValid_blockOf (q : Byte) {p : List Byte} (m : Mode) {z : BlockSize} (h : p.length ≤ bs z) :
    blockValid (blockOf q p m z) :=
  ⟨length_padded h, (add_complement_iff _ _).2 rfl⟩

theorem blockBytes_blockOf (q : Byte) (p : List Byte) (m : Mode) (z : BlockSize) :
    blockBytes (blockOf q p m z) = [marker z, q, 255#8 - q] ++ padded z p ++ trailerBytes m (det m (padded z p)) := by
  rw [blockBytes, blockOf, codeBytes_detectionCode]

theorem length_blockBytes_blockOf (q : Byte) {p : List Byte} (m : Mode) {z : BlockSize} (h : p.length ≤ bs z) :
    (blockBytes (blockOf q p m z)).length = flen z m := by
  rw [blockBytes_blockOf, List.length_append, List.length_append, length_padded h, trailerBytes_length]
  rfl

theorem encodeBlock_of_lt (q : Byte) {p : List Byte} (m : Mode) {z : BlockSize} (h : bs z < p.length) :
    encodeBlock q p m z = .error .invalidPayload := by
  rw [encodeBlock, if_pos h]

theorem encodeBlock_of_le (q : Byte) {p : List Byte} (m : Mode) {z : BlockSize} (h : p.length ≤ bs z) :
    encodeBlock q p m z = .ok (blockBytes (blockOf q p m z)) := by
  rw [encodeBlock, if_neg (by omega), blockBytes_blockOf]

/-- Settles O17: a payload that fits is encoded as the bytes of its Block. -/
theorem encodeGivesAValidBlock : Obligations.EncodeGivesAValidBlock := fun q _ m z =>
  ⟨encodeBlock_of_lt q m, fun h => ⟨blockOf q _ m z, blockValid_blockOf q m h, rfl, rfl, rfl, rfl,
    encodeBlock_of_le q m h, length_blockBytes_blockOf q m h⟩⟩

end Sys2Proof.Machine
end

section
/-! SUPPORT. What an `ENC` that succeeds leaves, part by part: the header, the padding, the trailer, the bytes it does
not touch, the result registers (40_frame_encode.md R49). -/

namespace Sys2Proof.Machine

theorem sameBeside_encodeCommand (z : BlockSize) (m : Mode) (s : State) : sameBeside s (encodeCommand z m s) :=
  ⟨encodeCommand_cmd z m s, encodeCommand_seq z m s, encodeCommand_len z m s, rfl, rfl, rfl, rfl, rfl⟩

theorem encodeCommand_of_lt {z : BlockSize} {s : State} (h : bs z < s.len.toNat) (m : Mode) :
    encodeCommand z m s = raise .invalidPayload s := by
  rw [encodeCommand_eq, if_pos h]

section
variable {z : BlockSize} {s : State} (h : s.len.toNat ≤ bs z) (m : Mode)
include h

/-- The code is that of the data bytes as they stand, padded. -/
theorem results_encodeCommand :
    results (encodeCommand z m s) 0x80#8 0x00#8 (det m (padded z (s.fb.readRange s.draws payloadBase s.len.toNat)))
      (BitVec.ofNat 16 (flen z m)) := by
  obtain ⟨hlt, -⟩ | ⟨-, he⟩ := encodeCommand_cases z m s
  · omega
  · rw [he]
    exact ⟨rfl, rfl, rfl, rfl⟩

theorem encodeCommand_header {k : Nat} (hk : k < payloadBase) :
    (encodeCommand z m s).fb.byteAt? k = [marker z, s.seq, 255#8 - s.seq][k]? := by
  rw [byteAt?_encodeCommand h, if_neg (by omega), byteAt?_filledFb, if_neg (by omega), if_pos hk]

theorem encodeCommand_padding {k : Nat} (h1 : payloadBase + s.len.toNat ≤ k) (h2 : k < payloadBase + bs z) :
    (encodeCommand z m s).fb.byteAt? k = some bytePad := by
  rw [byteAt?_encodeCommand h, if_neg (by omega), byteAt?_filledFb, if_pos (by omega)]

theorem encodeCommand_trailer {k : Nat} (hk : k < tl m) :
    (encodeCommand z m s).fb.byteAt? (payloadBase + bs z + k) =
      (trailerBytes m (det m (padded z (s.fb.readRange s.draws payloadBase s.len.toNat))))[k]? := by
  have hf := (flen_bounds z m).1
  rw [byteAt?_encodeCommand h, if_pos (by omega), Nat.add_sub_cancel_left]

/-- The data bytes and all that lies beyond the frame stay as they were. -/
theorem encodeCommand_untouched {a : Nat}
    (ha : payloadBase ≤ a ∧ a < payloadBase + s.len.toNat ∨ flen z m ≤ a) :
    (encodeCommand z m s).fb.byteAt? a = s.fb.byteAt? a := by
  have hf := (flen_bounds z m).1
  rw [byteAt?_encodeCommand h, if_neg (by omega), byteAt?_filledFb, if_neg (by omega), if_neg (by omega)]

/-- A frame around written data bytes is all written: header, data, padding and trailer leave no gap. -/
theorem encodeCommand_written (hw : s.fb.written payloadBase s.len.toNat) :
    (encodeCommand z m s).fb.written 0 (flen z m) := by
  have hf := (flen_bounds z m).1
  intro k _ hk
  by_cases h1 : k < payloadBase
  · rw [encodeCommand_header h m h1, List.getElem?_eq_getElem h1]
    rfl
  by_cases h2 : k < payloadBase + s.len.toNat
  · rw [encodeCommand_untouched h m (.inl ⟨by omega, h2⟩)]
    exact hw k (by omega) h2
  by_cases h3 : k < payloadBase + bs z
  · rw [encodeCommand_padding h m (by omega) h3]
    rfl
  · obtain ⟨i, rfl⟩ := Nat.exists_eq_add_of_le (Nat.le_of_not_lt h3)
    have hi : i < tl m := by omega
    rw [encodeCommand_trailer h m hi, List.getElem?_eq_getElem (by rwa [trailerBytes_length])]
    rfl

/-- Which draws the data bytes are read with makes no difference when they are written. -/
theorem encodeCommand_frame (hw : s.fb.written payloadBase s.len.toNat) (d d' : Nat) :
    (encodeCommand z m s).fb.readRange d' 0 (flen z m) =
      blockBytes (blockOf s.seq (s.fb.readRange d payloadBase s.len.toNat) m z) := by
  rw [encodeCommand_readRange z m s h, blockBytes_blockOf, readRange_written hw (d' + 3) d,
    readRange_written hw s.draws d]

end

end Sys2Proof.Machine
end

section
/-! PROOF. The four `ENC` commands (40_frame_encode.md R49 to R53): the frame they build, that it is what `encode` gives,
and that building it again changes nothing. -/

namespace Sys2Proof.Machine

/-- Settles O19: the frame part by part, each at its own addresses. -/
theorem encoderCommandsBuildTheFrame : Obligations.EncoderCommandsBuildTheFrame := by
  intro z m s
  refine ⟨decodeCmd_cmdByte_enc z m, fun h => ?_, fun h => ?_⟩
  · rw [exec_encInstr, encodeCommand_of_lt h]
    rfl
  · have hpay : padded z (s.fb.readRange s.draws 3 s.len.toNat) =
        s.fb.readRange s.draws 3 s.len.toNat ++ List.replicate (bs z - s.len.toNat) 0x1A#8 := by
      rw [padded, readRange_length]
      rfl
    refine ⟨encodeCommand z m s, _, _, exec_encInstr z m s, hpay, rfl, results_encodeCommand h m,
      sameBeside_encodeCommand z m s, encodeCommand_header h m (by decide), encodeCommand_header h m (by decide),
      encodeCommand_header h m (by decide), fun _ => encodeCommand_padding h m, ?_, ?_,
      fun _ => encodeCommand_untouched h m⟩
    · rintro rfl
      exact (encodeCommand_trailer h .checksum (k := 0) (by decide)).trans (congrArg some (zext_loByte _))
    · rintro rfl
      exact ⟨encodeCommand_trailer h .crc (k := 0) (by decide), encodeCommand_trailer h .crc (k := 1) (by decide)⟩

/-- Settles O20: the frame read back is the one `encode` gives, since the data bytes read the same each time. -/
theorem encoderCommandsComputeEncode : Obligations.EncoderCommandsComputeEncode := by
  intro z m s d d' h hw
  have hlen : (s.fb.readRange d payloadBase s.len.toNat).length ≤ bs z := by rwa [readRange_length]
  obtain ⟨-, -, -, hout⟩ := results_encodeCommand h m
  refine ⟨encodeCommand z m s, _, exec_encInstr z m s, encodeBlock_of_le s.seq m hlen, ?_⟩
  rw [hout, flen_toNat]
  exact ⟨encodeCommand_frame h m hw d d', encodeCommand_written h m hw⟩

/-- An `ENC` leaves its own operand as it was: `LEN` and the data bytes. -/
theorem sharedOperand_encodeCommand {z : BlockSize} (m : Mode) {s : State} (h : s.len.toNat ≤ bs z)
    (hw : s.fb.written payloadBase s.len.toNat) : sharedOperand (encInstr z m) s (encodeCommand z m s) := by
  rw [sharedOperand, operandRange_encInstr h]
  exact ⟨hw, fun a h1 h2 => (encodeCommand_untouched h m (.inl ⟨h1, h2⟩)).symm⟩

/-- Settles O21: the second run has the operands of the first, so its frame and its results are the same; it does not
touch what lies beyond the frame. -/
theorem encodingAgainChangesNothing : Obligations.EncodingAgainChangesNothing := by
  intro z m s t u hw et eu
  cases (exec_encInstr z m s).symm.trans et
  cases (exec_encInstr z m _).symm.trans eu
  have hlen : s.len = (encodeCommand z m s).len := (encodeCommand_len z m s).symm
  by_cases h : s.len.toNat ≤ bs z
  · have hsame := sharedOperand_encodeCommand m h hw
    obtain ⟨h1, h2, h3, h4⟩ := encodeCommand_sameResults hlen hsame
    refine ⟨fun a => ?_, h1.symm, h2.symm, h3.symm, h4.symm⟩
    by_cases ha : a < flen z m
    · exact (encodeCommand_sameFrame hlen (encodeCommand_seq z m s).symm hsame h ha).symm
    · exact encodeCommand_untouched (hlen ▸ h) m (.inr (by omega))
  · rw [encodeCommand_of_lt (s := encodeCommand z m s) (by rw [← hlen]; omega), encodeCommand_of_lt (by omega)]
    exact ⟨fun _ => rfl, rfl, rfl, rfl, rfl⟩

end Sys2Proof.Machine
end

section
/-! SUPPORT. What `decode` says of any bytes: the defects that are a `FrameError`, and its three outcomes
(41_frame_decode.md R54). -/

namespace Sys2Proof.Machine

/-- The bytes are no frame of the format whatever their code: the length, the marker or the complement is wrong. -/
def malformed (raw : List Byte) (m : Mode) (z : BlockSize) : Prop :=
  raw.length ≠ flen z m ∨ raw.getD 0 0x00#8 ≠ marker z ∨ (raw.getD 1 0x00#8).toNat + (raw.getD 2 0x00#8).toNat ≠ 255

theorem decodeBlock_cases (raw : List Byte) (m : Mode) (z : BlockSize) :
    (malformed raw m z ∧ decodeBlock raw m z = .error .frameError) ∨
    (¬ malformed raw m z ∧ decodeBlock raw m z = .error (detectionErr m)) ∨
    (¬ malformed raw m z ∧ ∃ r, decodeBlock raw m z = .ok r) := by
  rw [decodeBlock, malformed]
  split_ifs with hlen hmarker hcomplement hcode
  · exact .inl ⟨.inl hlen, rfl⟩
  · exact .inl ⟨.inr (.inl hmarker), rfl⟩
  · exact .inl ⟨.inr (.inr hcomplement), rfl⟩
  · exact .inr (.inl ⟨by tauto, rfl⟩)
  · exact .inr (.inr ⟨by tauto, _, rfl⟩)

theorem detectionErr_ne_frameError (m : Mode) : detectionErr m ≠ .frameError := by cases m <;> decide

theorem malformed_iff_frameError (raw : List Byte) (m : Mode) (z : BlockSize) :
    malformed raw m z ↔ decodeBlock raw m z = .error .frameError := by
  obtain ⟨hm, h⟩ | ⟨hm, h⟩ | ⟨hm, r, h⟩ := decodeBlock_cases raw m z
  · exact iff_of_true hm h
  · exact iff_of_false hm (by rw [h]; exact fun e => detectionErr_ne_frameError m (Except.error.inj e))
  · exact iff_of_false hm (by rw [h]; nofun)

theorem length_of_decodeBlock_ok {raw : List Byte} {m : Mode} {z : BlockSize} {r : Byte × List Byte}
    (h : decodeBlock raw m z = .ok r) : raw.length = flen z m := by
  by_contra hne
  cases h.symm.trans ((malformed_iff_frameError raw m z).1 (.inl hne))

/-- The formats of one size differ in their length by the trailer's (30_encoding.md R35). -/
theorem mode_eq_of_flen_eq {z : BlockSize} {m m' : Mode} (h : flen z m = flen z m') : m = m' := by
  cases m <;> cases m' <;> simp [flen, tl] at h ⊢

theorem payload_of_decodeBlock_ok {raw : List Byte} {m : Mode} {z : BlockSize} {q : Byte} {pay : List Byte}
    (h : decodeBlock raw m z = .ok (q, pay)) : (raw.drop payloadBase).take (bs z) = pay := by
  obtain ⟨hp, rfl⟩ := (decodeBlock_eq_ok_iff raw m z q pay).1 h
  simp [payloadBase, ← hp]

/-- The bytes of the Block that `encode` builds decode to its sequence and its padded payload. -/
theorem decodeBlock_blockBytes (q : Byte) {p : List Byte} (m : Mode) {z : BlockSize} (h : p.length ≤ bs z) :
    decodeBlock (blockBytes (blockOf q p m z)) m z = .ok (q, padded z p) :=
  (decodeBlock_eq_ok_iff ..).2 ⟨length_padded h, blockBytes_blockOf q p m z⟩

end Sys2Proof.Machine
end

section
/-! SUPPORT. The `DEC` commands on the bytes that stand in FB (41_frame_decode.md R55). -/

namespace Sys2Proof.Machine

/-- Written bytes stand where they are read. -/
theorem Memory.written.startsWith {m : Memory} {n : Nat} (h : m.written 0 n) (d : Nat) :
    m.startsWith (m.readRange d 0 n) := by
  intro k hk
  rw [readRange_length] at hk
  rw [readRange_getElem?_of_written h hk, Nat.zero_add]

theorem sameBeside_decodeCommand (z : BlockSize) (m : Mode) (s : State) : sameBeside s (decodeCommand z m s) :=
  ⟨decodeCommand_cmd z m s, decodeCommand_seq z m s, decodeCommand_len z m s, rfl, rfl, rfl, rfl, rfl⟩

theorem decodeCommand_of_length_ne {z : BlockSize} {m : Mode} {s : State} (h : s.len.toNat ≠ flen z m) :
    decodeCommand z m s = raise .frameError s := by
  rw [decodeCommand_eq, if_pos h]

/-- A checksum frame's code is wrong when the sum differs from the one trailer byte (30_encoding.md R40). -/
theorem det_ne_trailer_checksum (fb : Memory) (d a : Nat) (p : List Byte) :
    det .checksum p ≠ trailerValue .checksum (fb.readRange d a (tl .checksum)) ↔ csum8 p ≠ fb.read d a := by
  have hinj : Function.Injective fun b : Byte => (0x00#8 ++ b : Half) :=
    Function.LeftInverse.injective (g := loByte) zext_loByte
  exact hinj.ne_iff

/-- A CRC frame's code is wrong when the CRC differs from the two trailer bytes, high byte first (30_encoding.md R40). -/
theorem det_ne_trailer_crc {fb : Memory} {a : Nat} (h : fb.written a (tl .crc)) (d : Nat) (p : List Byte) :
    det .crc p ≠ trailerValue .crc (fb.readRange d a (tl .crc)) ↔ crc16 p ≠ half (fb.read d a) (fb.read d (a + 1)) := by
  rw [← read_written (h (a + 1) (by omega) (by simp [tl])) (d + 1) d]
  rfl

end Sys2Proof.Machine
end

section
/-! PROOF. The function `decode` (41_frame_decode.md R54), the four `DEC` commands (R55 to R59) and the round trip
(R60). -/

namespace Sys2Proof.Machine

/-- Settles O25: the frame is the bytes of a Block, which `decode` reads back; the `DEC` finds that very frame in FB, so
its verdict is the verdict of `decode`. -/
theorem roundTrip : Obligations.RoundTrip := by
  refine ⟨fun q p m z hp => ⟨_, encodeBlock_of_le q m hp, decodeBlock_blockBytes q m hp⟩, fun m z s h hw => ?_⟩
  have hlen : (s.fb.readRange s.draws payloadBase s.len.toNat).length ≤ bs z := by rwa [readRange_length]
  obtain ⟨-, -, hdet, hout⟩ := results_encodeCommand h m
  have hstands := (encodeCommand_written h m hw).startsWith 0
  rw [encodeCommand_frame h m hw s.draws] at hstands
  obtain ⟨n, hn⟩ := decodeCommand_eq_verdict z m
    (s := { encodeCommand z m s with len := (encodeCommand z m s).outlen })
    (by rw [length_blockBytes_blockOf s.seq m hlen, hout, flen_toNat]) hstands
  rw [decodeBlock_blockBytes s.seq m hlen] at hn
  refine ⟨_, _, exec_encInstr z m s, exec_decInstr z m _, ?_, decodeCommand_fb z m _⟩
  rw [hn, hdet]
  exact ⟨rfl, rfl, rfl, rfl⟩

/-- Settles O22: a wrong length is refused before any read; else the checks stand in the order of the rule, the code's
written out for each mode. -/
theorem decoderCommandsJudgeTheFrame : Obligations.DecoderCommandsJudgeTheFrame := by
  intro z m s d
  refine ⟨decodeCmd_cmdByte_dec z m, fun h => ?_, fun h hw => ?_⟩
  · rw [exec_decInstr, decodeCommand_of_length_ne h]
    rfl
  · refine ⟨_, exec_decInstr z m s, decodeCommand_fb z m s, sameBeside_decodeCommand z m s, ?_⟩
    rw [decodeCommand_written z m s d h hw]
    cases m with
    | checksum =>
      simp only [det_ne_trailer_checksum, payloadBase, true_and, reduceCtorEq, false_and, if_false]
      split_ifs <;> exact ⟨rfl, rfl, rfl, rfl⟩
    | crc =>
      have htrailer : s.fb.written (3 + bs z) (tl .crc) := fun k _ hk => hw k (Nat.zero_le k) (by omega)
      simp only [det_ne_trailer_crc htrailer, payloadBase, true_and, reduceCtorEq, false_and, if_false]
      split_ifs <;> exact ⟨rfl, rfl, rfl, rfl⟩

/-- Settles O23: the bytes of `FB[0 +: LEN]` stand there, so the verdict of the `DEC` is that of `decode` on them. -/
theorem decoderCommandsComputeDecode : Obligations.DecoderCommandsComputeDecode := by
  intro z m s d d' hw
  have hstands := hw.startsWith d
  have hlen := readRange_length s.fb d 0 s.len.toNat
  obtain ⟨n, hn⟩ := decodeCommand_eq_verdict z m hlen.symm hstands
  refine ⟨_, exec_decInstr z m s, ?_⟩
  rw [hn]
  cases hdec : decodeBlock (s.fb.readRange d 0 s.len.toNat) m z with
  | ok r =>
    have hf := (flen_bounds z m).1
    have hfit : payloadBase + bs z ≤ (s.fb.readRange d 0 s.len.toNat).length := by
      rw [length_of_decodeBlock_ok hdec]; omega
    refine ⟨rfl, rfl, bs_toNat z, ?_⟩
    calc s.fb.readRange d' payloadBase (BitVec.ofNat 16 (bs z)).toNat
      _ = ((s.fb.readRange d 0 s.len.toNat).drop payloadBase).take (bs z) := by
        rw [bs_toNat, hstands.readRange_eq hfit]
      _ = r.2 := payload_of_decodeBlock_ok hdec
  | error e => exact ⟨rfl, rfl, rfl, rfl⟩

/-- Settles O24: what `decode` accepts is a frame's layout, a malformed string is its one `FrameError`, and the two modes
ask for different lengths. -/
theorem decodeAcceptsExactlyTheFrames : Obligations.DecodeAcceptsExactlyTheFrames := by
  intro m z raw
  refine ⟨decodeBlock_eq_ok_iff raw m z, malformed_iff_frameError raw m z, fun e he => ?_, fun r m' r' hr hne hr' => ?_⟩
  · obtain ⟨-, h⟩ | ⟨-, h⟩ | ⟨-, r, h⟩ := decodeBlock_cases raw m z
    · cases h.symm.trans he
      exact .inl rfl
    · cases h.symm.trans he
      cases m with
      | checksum => exact .inr (.inl ⟨rfl, rfl⟩)
      | crc => exact .inr (.inr ⟨rfl, rfl⟩)
    · cases h.symm.trans he
  · exact hne (mode_eq_of_flen_eq ((length_of_decodeBlock_ok hr').symm.trans (length_of_decodeBlock_ok hr)))

end Sys2Proof.Machine
end

section
/-! SUPPORT. The checksum as a function of the bytes (42_error_detector.md R63): one byte more, a concatenation, and its
value. -/

namespace Sys2Proof.Machine

theorem csum8_cons (b : Byte) (t : List Byte) : csum8 (b :: t) = b + csum8 t := by
  rw [csum8, csumFrom_cons, csumFrom_eq_add, BitVec.zero_add]

theorem csum8_append (p q : List Byte) : csum8 (p ++ q) = csum8 p + csum8 q := by
  rw [csum8, csumFrom_append, csumFrom_eq_add]
  rfl

/-- Each addition discards the carry out of bit 7, and the reductions modulo 256 come to one. -/
theorem toNat_csum8 (p : List Byte) : (csum8 p).toNat = (p.map BitVec.toNat).sum % 256 := by
  induction p with
  | nil => rfl
  | cons b t ih => rw [csum8_cons, BitVec.toNat_add, ih, List.map_cons, List.sum_cons, Nat.add_mod_mod]

theorem toNat_csum8_replicate (b : Byte) (n : Nat) : (csum8 (List.replicate n b)).toNat = (n * b.toNat) % 256 := by
  rw [toNat_csum8, List.map_replicate, List.sum_replicate, smul_eq_mul]

theorem csum8_perm {p q : List Byte} (h : p.Perm q) : csum8 p = csum8 q :=
  BitVec.eq_of_toNat_eq (by rw [toNat_csum8, toNat_csum8, (h.map BitVec.toNat).sum_eq])

/-- A payload of padding alone has checksum zero in both block sizes. -/
theorem csum8_padding (z : BlockSize) : csum8 (List.replicate (bs z) 0x1A#8) = 0x00#8 :=
  BitVec.eq_of_toNat_eq (by rw [toNat_csum8_replicate]; cases z <;> rfl)

end Sys2Proof.Machine
end

section
/-! SUPPORT. The CRC register (42_error_detector.md R65): it is linear over GF(2), a zero register stays zero under zero
bytes, and its own two bytes clear it. -/

namespace Sys2Proof.Machine

/-- Each byte enters the high byte of the register by an xor. -/
theorem crcByte_xor (c d : Half) (a b : Byte) : crcByte (c ^^^ d) (a ^^^ b) = crcByte c a ^^^ crcByte d b := by
  have hentry : c ^^^ d ^^^ ((a ^^^ b) ++ 0x00#8) = (c ^^^ (a ++ 0x00#8)) ^^^ (d ^^^ (b ++ 0x00#8)) := by
    have happend : ((a ^^^ b) ++ 0x00#8 : Half) = (a ++ 0x00#8) ^^^ (b ++ 0x00#8) := by
      rw [BitVec.xor_append, BitVec.xor_zero]
    rw [happend]
    ac_rfl
  simp only [crcByte_eq, hentry, crcShifts_xor]

theorem crcFrom_xor {p q : List Byte} (h : p.length = q.length) (c d : Half) :
    crcFrom (c ^^^ d) (List.zipWith (· ^^^ ·) p q) = crcFrom c p ^^^ crcFrom d q := by
  induction p generalizing q c d with
  | nil =>
    obtain rfl := List.length_eq_zero_iff.1 h.symm
    rfl
  | cons a p ih =>
    cases q with
    | nil => cases h
    | cons b q =>
      rw [List.zipWith_cons_cons, crcFrom_cons, crcFrom_cons, crcFrom_cons, crcByte_xor, ih (Nat.succ.inj h)]

theorem crc16_zeros (n : Nat) : crc16 (List.replicate n 0x00#8) = 0x0000#16 := by
  have hstays : crcByte 0x0000#16 0x00#8 = 0x0000#16 := by decide
  rw [crc16]
  induction n with
  | zero => rfl
  | succ n ih => rw [List.replicate_succ, crcFrom_cons, hstays, ih]

/-- Shifts that push no one out of bit 15 never meet the generator. -/
theorem crcShifts_of_lt {n : Nat} {c : Half} (h : c.toNat * 2 ^ n < 2 ^ 16) : crcShifts id n c = c <<< n := by
  induction n generalizing c with
  | zero => exact (BitVec.shiftLeft_zero c).symm
  | succ n ih =>
    have hpow : c.toNat * 2 * 2 ^ n < 2 ^ 16 := by rwa [Nat.pow_succ', ← Nat.mul_assoc] at h
    have hlt : c.toNat * 2 < 2 ^ 16 := (Nat.le_mul_of_pos_right _ (Nat.two_pow_pos n)).trans_lt hpow
    have hmsb : c.msb = false := BitVec.msb_eq_false_iff_two_mul_lt.2 (by omega)
    have hshift : (c <<< 1).toNat = c.toNat * 2 := by
      rw [BitVec.toNat_shiftLeft, Nat.shiftLeft_eq, Nat.pow_one, Nat.mod_eq_of_lt hlt]
    rw [crcShifts_succ, crcShift, hmsb, if_neg Bool.false_ne_true, ih (by rwa [hshift]), ← BitVec.shiftLeft_add,
      Nat.add_comm]

/-- The register's own high byte cancels there, and eight shifts move the low byte up. -/
theorem crcByte_own_high (h l : Byte) : crcByte (half h l) h = half l 0x00#8 := by
  have hcancel : half h l ^^^ (h ++ 0x00#8) = 0x00#8 ++ l := by
    rw [half, BitVec.xor_append, BitVec.xor_self, BitVec.xor_zero]
  have hlow : (0x00#8 ++ l : Half).toNat * 2 ^ 8 < 2 ^ 16 := by
    rw [zext_append, BitVec.toNat_setWidth]
    omega
  calc crcByte (half h l) h
    _ = (0x00#8 ++ l : Half) <<< 8 := by rw [crcByte_eq, hcancel, crcShifts_of_lt hlow]
    _ = loByte (0x00#8 ++ l) ++ 0x00#8 := BitVec.shiftLeft_eq_concat_of_lt (by decide)
    _ = half l 0x00#8 := by rw [zext_loByte, half]

/-- A register followed by its own two bytes, high byte first, is cleared (30_encoding.md R40). -/
theorem crcFrom_own_trailer (c : Half) : crcFrom c [hiByte c, loByte c] = 0x0000#16 := by
  have hfirst : crcByte c (hiByte c) = half (loByte c) 0x00#8 := by
    simpa only [half_hiByte_loByte] using crcByte_own_high (hiByte c) (loByte c)
  rw [crcFrom_cons, crcFrom_cons, crcFrom_nil, hfirst, crcByte_own_high]
  rfl

end Sys2Proof.Machine
end

section
/-! SUPPORT. Words as polynomials over GF(2), and what one shift, eight shifts and a sequence do to the register's
residue modulo the generator (42_error_detector.md R64, R65). -/

open Polynomial

namespace Sys2Proof.Machine

theorem coeff_gf2Poly {w : Nat} (v : BitVec w) (i : Nat) : (gf2Poly v).coeff i = if v.getLsbD i then 1 else 0 := by
  have hterm (j : Nat) : (if v.getLsbD j then X ^ j else 0 : (ZMod 2)[X]).coeff i =
      if i = j then if v.getLsbD j then 1 else 0 else 0 := by
    split <;> simp [coeff_X_pow]
  rw [gf2Poly, finsetSum_coeff]
  simp only [hterm, Finset.sum_ite_eq, Finset.mem_range]
  split
  · rfl
  · rw [BitVec.getLsbD_of_ge v i (by omega), if_neg Bool.false_ne_true]

theorem gf2Poly_xor {w : Nat} (v u : BitVec w) : gf2Poly (v ^^^ u) = gf2Poly v + gf2Poly u := by
  ext i
  rw [coeff_add, coeff_gf2Poly, coeff_gf2Poly, coeff_gf2Poly, BitVec.getLsbD_xor]
  cases v.getLsbD i <;> cases u.getLsbD i <;> decide

/-- A byte that enters the register's high byte is multiplied by x^8. -/
theorem gf2Poly_high (b : Byte) : gf2Poly (b ++ 0x00#8 : Half) = gf2Poly b * X ^ 8 := by
  ext i
  rw [coeff_mul_X_pow', coeff_gf2Poly, coeff_gf2Poly, BitVec.getLsbD_append]
  by_cases h : i < 8 <;> simp [h]

theorem degree_gf2Poly_lt {w : Nat} (v : BitVec w) : (gf2Poly v).degree < w :=
  (degree_lt_iff_coeff_zero _ _).2 fun i hi => by
    rw [coeff_gf2Poly, BitVec.getLsbD_of_ge v i hi, if_neg Bool.false_ne_true]

theorem gf2Poly_crcPoly : gf2Poly crcPoly = X ^ 12 + X ^ 5 + 1 := by
  have hbits : gf2Poly crcPoly = 1 + X ^ 5 + X ^ 12 := by simp [gf2Poly, crcPoly, Finset.sum_range_succ]
  rw [hbits]
  ring

/-- Shifting left is multiplying by x, without the bit that leaves the register. -/
theorem X_mul_gf2Poly (c : Half) : X * gf2Poly c = gf2Poly (c <<< 1) + if c.msb then X ^ 16 else 0 := by
  have hout (i : Nat) : (if c.msb then X ^ 16 else 0 : (ZMod 2)[X]).coeff i = if i = 16 ∧ c.msb then 1 else 0 := by
    split <;> simp [coeff_X_pow, *]
  ext i
  rw [coeff_add, hout, coeff_gf2Poly, BitVec.getLsbD_shiftLeft]
  cases i with
  | zero => simp
  | succ i =>
    rw [coeff_X_mul, coeff_gf2Poly, BitVec.msb_eq_getLsbD_last]
    obtain h | rfl | h := Nat.lt_trichotomy i 15
    · simp [show i + 1 < 16 by omega, show i ≠ 15 by omega]
    · simp
    · simp [show ¬ i + 1 < 16 by omega, show i ≠ 15 by omega, BitVec.getLsbD_of_ge c i (by omega)]

theorem generatorPoly_degree : generatorPoly.degree = 16 := by
  unfold generatorPoly; compute_degree!

theorem generatorPoly_monic : generatorPoly.Monic := by
  unfold generatorPoly; monicity!

/-- A polynomial's residue modulo the generator. -/
noncomputable abbrev residue : (ZMod 2)[X] →+* AdjoinRoot generatorPoly := AdjoinRoot.mk generatorPoly

/-- One shift multiplies the residue by x: the bit that leaves stands for x^16, which the generator makes
x^12 + x^5 + 1. -/
theorem residue_crcShift (c : Half) : residue (gf2Poly (crcShift c)) = residue (X * gf2Poly c) := by
  rw [X_mul_gf2Poly, crcShift]
  split
  · have hwrap : gf2Poly crcPoly - X ^ 16 = generatorPoly := by
      rw [gf2Poly_crcPoly, CharTwo.sub_eq_add, generatorPoly]
      ring
    rw [gf2Poly_xor, AdjoinRoot.mk_eq_mk, add_sub_add_left_eq_sub, hwrap]
  · rw [add_zero]

theorem residue_crcShifts (n : Nat) (c : Half) :
    residue (gf2Poly (crcShifts id n c)) = residue (X ^ n * gf2Poly c) := by
  induction n generalizing c with
  | zero => simp [crcShifts_zero]
  | succ n ih => rw [crcShifts_succ, ih, map_mul, residue_crcShift, ← map_mul, pow_succ, mul_assoc]

/-- A byte that enters, and eight shifts. -/
theorem residue_crcByte (c : Half) (b : Byte) :
    residue (gf2Poly (crcByte c b)) = residue (X ^ 8 * (gf2Poly c + gf2Poly b * X ^ 8)) := by
  rw [crcByte_eq, residue_crcShifts, gf2Poly_xor, gf2Poly_high]

/-- The bytes already in the register move up by x^8 for each byte that follows. -/
theorem residue_crcFrom (c : Half) (p : List Byte) :
    residue (gf2Poly (crcFrom c p)) =
      residue (gf2Poly c * X ^ (8 * p.length) + messagePoly p * X ^ 16) := by
  induction p generalizing c with
  | nil => simp [messagePoly]
  | cons b t ih =>
    rw [crcFrom_cons, ih, map_add, map_mul, residue_crcByte, ← map_mul, ← map_add, messagePoly, List.length_cons]
    exact congrArg residue (by ring)

/-- A register is a polynomial of degree below the generator's, so it is its own remainder. -/
theorem gf2Poly_modByMonic (c : Half) : gf2Poly c %ₘ generatorPoly = gf2Poly c := by
  rw [modByMonic_eq_self_iff generatorPoly_monic, generatorPoly_degree]
  exact degree_gf2Poly_lt c

end Sys2Proof.Machine
end

section
/-! SUPPORT. The two `DET` commands at a length the detector takes (42_error_detector.md R67, R68). -/

namespace Sys2Proof.Machine

theorem exec_detInstr_of_le {s : State} (h : s.len.toNat ≤ 1024) (m : Mode) :
    exec (detInstr m) s = .next { s with
      status := 0x80#8, rseq := 0x00#8, outlen := 0x0000#16, draws := s.draws + s.len.toNat
      det := det m (s.fb.readRange s.draws payloadBase s.len.toNat) } := by
  rw [exec_detInstr, detect_eq, if_neg (Nat.not_lt.2 h)]
  rfl

end Sys2Proof.Machine
end

section
/-! PROOF. The Error Detector: the checksum (42_error_detector.md R63), the CRC (R64, R65, R71) and the two commands
that run it alone (R67, R68). -/

open Polynomial

namespace Sys2Proof.Machine

/-- Settles O12, from the checksum's value and what it makes of a concatenation. -/
theorem checksumIsTheSumModulo256 : Obligations.ChecksumIsTheSumModulo256 :=
  ⟨toNat_csum8, fun _ _ => csum8_perm, rfl, csum8_append, toNat_csum8_replicate,
    csum8_padding .b128, csum8_padding .b1k, by decide, by decide, by decide +kernel⟩

/-- Settles O13: the residue of the register is that of the message times x^16, and a register is its own remainder. -/
theorem crcIsThePolynomialRemainder : Obligations.CrcIsThePolynomialRemainder := by
  intro p
  have hres : residue (gf2Poly (crc16 p)) = residue (messagePoly p * X ^ 16) := by
    rw [crc16, residue_crcFrom, show gf2Poly 0x0000#16 = 0 by simp [gf2Poly], zero_mul, zero_add]
  calc gf2Poly (crc16 p)
    _ = gf2Poly (crc16 p) %ₘ generatorPoly := (gf2Poly_modByMonic _).symm
    _ = (messagePoly p * X ^ 16) %ₘ generatorPoly :=
      modByMonic_eq_of_dvd_sub generatorPoly_monic (AdjoinRoot.mk_eq_mk.1 hres)

/-- Settles O14: the register is linear and stays zero under zero bytes; its own trailer clears it. -/
theorem crcLaws : Obligations.CrcLaws := by
  refine ⟨crc16_zeros, fun n p => ?_, fun p q h => crcFrom_xor h 0x0000#16 0x0000#16, fun p => ?_⟩
  · rw [crc16, crcFrom_append]
    exact congrArg (crcFrom · p) (crc16_zeros n)
  · rw [crc16, crcFrom_append]
    exact crcFrom_own_trailer (crc16 p)

/-- Settles O15: the register run over the five sequences. -/
theorem crcKnownAnswers : Obligations.CrcKnownAnswers := by
  unfold Obligations.CrcKnownAnswers
  decide +kernel

/-- Settles O16: the code of the `LEN` bytes, the checksum zero-extended, or `InvalidPayload` before any byte is
read. -/
theorem detectorCommandsGiveTheCode : Obligations.DetectorCommandsGiveTheCode := by
  refine ⟨decodeCmd_cmdByte_det .checksum, decodeCmd_cmdByte_det .crc, fun s => ⟨fun h => ⟨?_, ?_⟩, fun h m => ?_⟩⟩
  · rw [← zext_append]
    exact exec_detInstr_of_le h .checksum
  · exact exec_detInstr_of_le h .crc
  · rw [exec_detInstr, detect_eq, if_pos h]
    rfl

end Sys2Proof.Machine
end

section
/-! SUPPORT. What a session reads next, by its phase, and how it ends (43_session_environment.md R76, R85, R88, R99). -/

namespace Sys2Proof.Machine

section
variable {s : State} {c : Session} (h : s.session = some c)
include h

theorem receiveByte_awaitHandshake (hp : c.phase = .awaitHandshake) (b : Byte) :
    receiveByte b s = handshakeByte b c s := by
  simp [receiveByte, h, hp]

theorem receiveByte_awaitAck (hp : c.phase = .awaitAck) (b : Byte) : receiveByte b s = ackByte b c s := by
  simp [receiveByte, h, hp]

theorem receiveByte_awaitEotAck (hp : c.phase = .awaitEotAck) (b : Byte) : receiveByte b s = eotAckByte b c s := by
  simp [receiveByte, h, hp]

theorem receiveByte_init (hp : c.phase = .init) (b : Byte) : receiveByte b s = initByte b c s := by
  simp [receiveByte, h, hp]

/-- Between blocks a receiver reads the first byte of the next (43_session_environment.md R82). -/
theorem receiveByte_betweenBlocks (hp : c.phase = .awaitBlock) (hn : c.partialBlock = []) (b : Byte) :
    receiveByte b s = firstByte b c s := by
  rw [receiveByte_awaitBlock h hp, if_pos hn]

/-- Inside a block it reads a byte of it. -/
theorem receiveByte_insideBlock (hp : c.phase = .awaitBlock) (hn : c.partialBlock ≠ []) (b : Byte) :
    receiveByte b s = blockByte b c s := by
  rw [receiveByte_awaitBlock h hp, if_neg hn]

theorem onTimeout_awaitHandshake (hp : c.phase = .awaitHandshake) : onTimeout s = onNoHandshake c s := by
  simp [onTimeout, h, hp]

theorem onTimeout_awaitAck (hp : c.phase = .awaitAck) : onTimeout s = onNoAck none c s := by
  simp [onTimeout, h, hp]

theorem onTimeout_awaitEotAck (hp : c.phase = .awaitEotAck) : onTimeout s = onNoEotAck c s := by
  simp [onTimeout, h, hp]

theorem onTimeout_init (hp : c.phase = .init) : onTimeout s = sendHandshake c s := by
  simp [onTimeout, h, hp]

theorem onTimeout_awaitBlock (hp : c.phase = .awaitBlock) : onTimeout s = blockTimeout c s := by
  simp [onTimeout, h, hp]

end

/-- A session with no block in hand and no cancellation noted keeps all but its phase when it ends. -/
theorem finish_of_idle {c : Session} (hn : c.partialBlock = []) (hk : c.cancelPending = false) (e : SessionEnd)
    (s : State) : finish c e s = setSession { c with phase := .ended e } s := by
  rw [finish, ← hn, ← hk]

/-- A session with no block in hand drops none when it ends. -/
theorem finish_of_nil {c : Session} (hn : c.partialBlock = []) (e : SessionEnd) (s : State) :
    finish c e s = setSession { c with phase := .ended e, cancelPending := false } s := by
  rw [finish, ← hn]

theorem eq_of_ctl_ack : ∀ b, ctl b = .ack → b = byteAck := by decide +kernel
theorem eq_of_ctl_can : ∀ b, ctl b = .can → b = byteCan := by decide +kernel

/-- In `AwaitAck` any byte but ACK and CAN is a refusal (43_session_environment.md R79). -/
theorem ackByte_of_ne {b : Byte} (ha : b ≠ byteAck) (hk : b ≠ byteCan) (c : Session) (s : State) :
    ackByte b c s = onNoAck (some b) c s := by
  unfold ackByte
  cases hb : ctl b with
  | ack => exact absurd (eq_of_ctl_ack b hb) ha
  | can => exact absurd (eq_of_ctl_can b hb) hk
  | nak | soh | stx | eot | crcreq | other => rfl

/-- A refused attempt under the budget: the frame as it stands in FB goes out again (43_session_environment.md R79). -/
theorem onNoAck_of_lt {c : Session} (h : c.attempts + 1 < c.params.retryLimit) (r : Option Byte) (s : State) :
    onNoAck r c s =
      sendFrame (setSession { c with attempts := c.attempts + 1, lastResponse := r.or c.lastResponse } s) := by
  rw [onNoAck, if_neg (Nat.not_le.2 h)]

theorem onNoAck_of_le {c : Session} (h : c.params.retryLimit ≤ c.attempts + 1) (r : Option Byte) (s : State) :
    onNoAck r c s = finish c (.retriesExhausted c.sequence (r.or c.lastResponse)) s := by
  rw [onNoAck, if_pos h]

theorem onNoEotAck_of_lt {c : Session} (h : c.attempts + 1 < c.params.retryLimit) (s : State) :
    onNoEotAck c s = transmit [byteEot] (setSession { c with attempts := c.attempts + 1 } s) := by
  rw [onNoEotAck, if_neg (Nat.not_le.2 h)]

theorem onNoEotAck_of_le {c : Session} (h : c.params.retryLimit ≤ c.attempts + 1) (s : State) :
    onNoEotAck c s = finish c .eotNotAcked s := by
  rw [onNoEotAck, if_pos h]

theorem onNoHandshake_of_lt {c : Session} (h : c.attempts + 1 < c.params.retryLimit) (s : State) :
    onNoHandshake c s = setSession { c with attempts := c.attempts + 1 } s := by
  rw [onNoHandshake, if_neg (Nat.not_le.2 h)]

theorem onNoHandshake_of_le {c : Session} (h : c.params.retryLimit ≤ c.attempts + 1) (s : State) :
    onNoHandshake c s = finish c .noHandshake s := by
  rw [onNoHandshake, if_pos h]

theorem afterBlock_of_not_pending {c : Session} (h : c.cancelPending = false) (s : State) :
    afterBlock c s = setSession c s := by
  rw [afterBlock, h, if_neg Bool.false_ne_true]

/-- A refusal under the budget: NAK, and one attempt is spent (43_session_environment.md R83). -/
theorem refuseBlock_of_lt {c : Session} (hk : c.cancelPending = false) (h : c.attempts + 1 < c.params.retryLimit)
    (k : FailKind) (s : State) :
    refuseBlock k c s = setSession { c with attempts := c.attempts + 1 } (transmit [byteNak] s) := by
  rw [refuseBlock, failAttempt, if_neg (Nat.not_le.2 h)]
  exact afterBlock_of_not_pending (c := { c with attempts := c.attempts + 1 }) hk _

/-- The refusal that spends the last attempt: NAK, and the session ends (log entry 19). -/
theorem refuseBlock_of_le {c : Session} (h : c.params.retryLimit ≤ c.attempts + 1) (k : FailKind) (s : State) :
    refuseBlock k c s = finish c (.tooManyErrors c.sequence k) (transmit [byteNak] s) := by
  rw [refuseBlock, failAttempt, if_pos h]

end Sys2Proof.Machine
end

section
/-! PROOF. Control bytes, timeouts and cancellation where they arrive between blocks (43_session_environment.md R77 to
R85, R88). -/

namespace Sys2Proof.Machine

/-- Settles O37: either row delivers its marker, which the receiver keeps. -/
theorem aMarkerStartsABlock : Obligations.AMarkerStartsABlock := by
  intro s c i b hib hs hn
  simp only [List.mem_cons, Prod.mk.injEq, List.not_mem_nil, or_false] at hib
  obtain ⟨rfl, rfl⟩ | ⟨rfl, rfl⟩ := hib
  · exact ⟨fun hp => congrArg _ (receiveByte_betweenBlocks hs hp hn byteSoh),
      fun hp => congrArg _ (receiveByte_init hs hp byteSoh)⟩
  · exact ⟨fun hp => congrArg _ (receiveByte_betweenBlocks hs hp hn byteStx),
      fun hp => congrArg _ (receiveByte_init hs hp byteStx)⟩

/-- Settles O38: EOT is acknowledged and the session ends. -/
theorem eotEndsTheTransfer : Obligations.EotEndsTheTransfer := by
  intro s c hs hp hn
  have hread : receiveByte byteEot s = finish c .done (transmit [byteAck] s) := receiveByte_betweenBlocks hs hp hn _
  rw [finish_of_nil hn] at hread
  exact congrArg _ hread

/-- CAN in any phase where a control byte is expected (43_session_environment.md R85). -/
theorem receiveByte_can {s : State} {c : Session} (hs : s.session = some c) (hl : ∀ e, c.phase ≠ .ended e)
    (hn : c.partialBlock = []) : receiveByte byteCan s = finish c .peerCancelled s := by
  cases hp : c.phase with
  | awaitHandshake => exact receiveByte_awaitHandshake hs hp _
  | awaitAck => exact receiveByte_awaitAck hs hp _
  | awaitEotAck => exact receiveByte_awaitEotAck hs hp _
  | init => exact receiveByte_init hs hp _
  | awaitBlock => exact receiveByte_betweenBlocks hs hp hn _
  | ended e => exact absurd hp (hl e)

/-- A row of the wire in a session is read by the session's machine (43_session_environment.md R73). -/
theorem exec_wire_session {i : Instr} (hi : i.space = .wire) {s : State} {c : Session} (hs : s.session = some c) :
    ∃ l, exec i s = .next (receive l s) := by
  obtain ⟨z, m, l, hf⟩ | ⟨b, hb⟩ := wire_cases hi
  · exact ⟨l, by rw [hf, frameArrives, hs]⟩
  · exact ⟨[b], by rw [hb, receive_singleton]⟩

/-- Settles O39: CAN phase by phase; an ended session has no phase that reads. -/
theorem canAbortsAtOnce : Obligations.CanAbortsAtOnce := by
  refine ⟨fun s c hs hl hn => ?_, fun s c e hs hp => ⟨receive_ended hs hp, ?_, ?_, fun i hi => ?_⟩⟩
  · have hread := receiveByte_can hs hl hn
    rw [finish_of_nil hn] at hread
    exact congrArg _ hread
  · simp [onTimeout, hs, hp]
  · simp [onCancel, hs, hp]
  · obtain ⟨l, hl⟩ := exec_wire_session hi hs
    rw [hl, receive_ended hs hp]

/-- Settles O43: every byte but ACK and CAN is a refusal, and each of the six rows delivers such a byte. -/
theorem nakResendsTheSameBlock : Obligations.NakResendsTheSameBlock := by
  intro s c hs hp
  have hbyte {b : Byte} (ha : b ≠ 0x06#8) (hk : b ≠ 0x18#8) : receiveByte b s = onNoAck (some b) c s := by
    rw [receiveByte_awaitAck hs hp, ackByte_of_ne ha hk]
  refine ⟨fun b ha hk => ?_, fun i b hib => ?_⟩
  · rw [hbyte ha hk]
    exact ⟨fun h => onNoAck_of_lt h _ s, fun h => onNoAck_of_le h _ s⟩
  · have hrow : (i, b) ∈ loneRows := (by decide : _ ⊆ loneRows) hib
    obtain ⟨ha, hk⟩ : b ≠ 0x06#8 ∧ b ≠ 0x18#8 :=
      (by decide : ∀ x ∈ [_, _, _, _, _, _], x.2 ≠ 0x06#8 ∧ x.2 ≠ 0x18#8) _ hib
    rw [exec_loneRow hrow, hbyte ha hk]
    exact ⟨fun h => congrArg _ (onNoAck_of_lt h _ s), fun h => congrArg _ (onNoAck_of_le h _ s)⟩

/-- Settles O45: NAK and a timeout are the same failed attempt. -/
theorem eotIsSentUntilAcknowledged : Obligations.EotIsSentUntilAcknowledged := by
  intro s c hs hp
  have hnak : exec .nak s = .next (onNoEotAck c s) := congrArg _ (receiveByte_awaitEotAck hs hp byteNak)
  refine ⟨congrArg _ (receiveByte_awaitEotAck hs hp byteAck), ?_⟩
  simp only [hnak, onTimeout_awaitEotAck hs hp, List.mem_cons, List.not_mem_nil, or_false, or_self, forall_eq]
  exact ⟨fun h => congrArg _ (onNoEotAck_of_lt h s), fun h => congrArg _ (onNoEotAck_of_le h s)⟩

/-- Settles O47: where a cancellation is honoured and where it is noted, phase by phase; a noted one is found by the
next ACK. -/
theorem cancellationWaitsForTheBlock : Obligations.CancellationWaitsForTheBlock := by
  intro s c hs hl
  refine ⟨?_, fun ha hb => ?_, fun hp hk => ?_⟩
  · rintro (hp | ⟨hn, hp⟩)
    · simp [onCancel, hs, hp, setSession]
    · simp [onCancel, hs, hp, hn, setSession]
  · cases hp : c.phase with
    | awaitAck => exact absurd hp ha
    | ended e => exact absurd hp (hl e)
    | awaitBlock =>
      have hn : c.partialBlock = [] := by_contra fun hn => hb ⟨hn, hp⟩
      simp [onCancel, hs, hp, hn, finish, setSession]
    | awaitHandshake | awaitEotAck | init => simp [onCancel, hs, hp, finish, setSession]
  · have hread : receiveByte byteAck s = onAck c s := receiveByte_awaitAck hs hp _
    rw [onAck, nextBlock, if_pos hk] at hread
    exact congrArg _ hread

/-- A stray byte where a receiver waits between blocks: ignored, or refused, as the parameter says (log entry 16). -/
theorem firstByte_stray {b : Byte} (hb : ctl b ∉ [Ctl.soh, .stx, .eot, .can]) (c : Session) (s : State) :
    firstByte b c s = if c.params.strayNaks then refuseBlock (.stray b) c s else s := by
  unfold firstByte
  cases h : ctl b with
  | soh | stx | eot | can => simp [h] at hb
  | ack | nak | crcreq | other => rfl

/-- Settles O41: phase by phase, what each state does with a byte that it has no use for. -/
theorem strayControlBytesAreIgnoredOrRefused : Obligations.StrayControlBytesAreIgnoredOrRefused := by
  intro s c hs hn
  refine ⟨fun hp i hi => ?_, fun hp i hi => ?_, fun hp hk i b hib => ?_, fun hp i hi => ?_⟩
  · simp only [List.mem_cons, List.not_mem_nil, or_false] at hi
    obtain rfl | rfl | rfl | rfl | rfl := hi <;> exact congrArg _ (receiveByte_awaitHandshake hs hp _)
  · simp only [List.mem_cons, List.not_mem_nil, or_false] at hi
    obtain rfl | rfl | rfl | rfl := hi <;> exact congrArg _ (receiveByte_init hs hp _)
  · have hrow : (i, b) ∈ loneRows := (by decide : _ ⊆ loneRows) hib
    have hstray : ctl b ∉ [Ctl.soh, .stx, .eot, .can] :=
      (by decide : ∀ x ∈ [_, _, _, _], ctl x.2 ∉ [Ctl.soh, .stx, .eot, .can]) _ hib
    rw [exec_loneRow hrow, receiveByte_betweenBlocks hs hp hn, firstByte_stray hstray]
    refine ⟨fun hi => ?_, fun hi h => ?_, fun hi h => ?_⟩
    · rw [hi, if_neg Bool.false_ne_true]
    · rw [if_pos hi, refuseBlock_of_lt hk h]
      rfl
    · rw [if_pos hi, refuseBlock_of_le h, finish_of_idle hn hk]
      rfl
  · have hnak : exec .nak s = .next (onNoEotAck c s) := congrArg _ (receiveByte_awaitEotAck hs hp byteNak)
    have hstray : exec i s = .next (strayEotReply c s) := by
      simp only [List.mem_cons, List.not_mem_nil, or_false] at hi
      obtain rfl | rfl | rfl | rfl | rfl := hi <;> exact congrArg _ (receiveByte_awaitEotAck hs hp _)
    rw [hstray, hnak, strayEotReply]
    exact ⟨fun h => by rw [h, if_neg Bool.false_ne_true], fun h => by rw [if_pos h]⟩

end Sys2Proof.Machine
end

section
/-! SUPPORT. What a row or a delivery is in a session: its bytes, read one after another (43_session_environment.md
R73). -/

namespace Sys2Proof.Machine

/-- A whole frame in a session is a delivery of its bytes (log entry 8). -/
theorem exec_frameInstr_session {s : State} {c : Session} (h : s.session = some c) (z : BlockSize) (m : Mode)
    (q x : Byte) (p : List Byte) (e : Half) :
    exec (frameInstr z m q x p e) s = .next (receive (encode (frameInstr z m q x p e)) s) := by
  rw [exec_frameInstr, frameArrives, h]

/-- In a session a delivery is read byte by byte, whether or not its bytes are a row. -/
theorem wireArrives_session {s : State} {c : Session} (h : s.session = some c) (l : List Byte) :
    wireArrives l s = .next (receive l s) := by
  unfold wireArrives
  split
  next i hi =>
    obtain ⟨hwf, hspace, henc⟩ := encodeOfDecodeIsTheBytes .wire l i hi
    obtain ⟨z, m, q, x, p, e, -, rfl⟩ | ⟨b, hb⟩ := wire_rows hspace hwf
    · rw [exec_frameInstr_session h, henc]
    · obtain ⟨-, -, he⟩ := loneRows_encoding _ hb
      rw [exec_loneRow hb, ← henc, he, receive_singleton]
  next => rfl

/-- A sender that waits for the handshake ignores what is neither a handshake byte nor CAN (43_session_environment.md
R77). -/
theorem handshakeByte_ignored {b : Byte} (hh : isHandshake b = false) (hk : b ≠ byteCan) (c : Session) (s : State) :
    handshakeByte b c s = s := by
  unfold handshakeByte
  cases hb : ctl b with
  | nak | crcreq => simp [isHandshake, hb] at hh
  | can => exact absurd (eq_of_ctl_can b hb) hk
  | soh | stx | eot | ack | other => rfl

/-- Of a delivery without CAN that ends in a handshake byte, only that byte is acted on: an earlier handshake byte is
passed over (log entry 27), any other byte ignored. -/
theorem receive_lastHandshake {s : State} {c : Session} (h : s.session = some c) (hp : c.phase = .awaitHandshake)
    {l : List Byte} (hk : byteCan ∉ l) {b : Byte} (hb : isHandshake b = true) :
    receive (l ++ [b]) s = receiveByte b s := by
  induction l with
  | nil => exact receive_singleton b s
  | cons x t ih =>
    rw [List.mem_cons, not_or] at hk
    have hwait : awaitsHandshake s = true := by simp [awaitsHandshake, h, hp]
    rw [List.cons_append, receive_cons, hwait]
    cases hx : isHandshake x with
    | true => simpa [hb] using ih hk.2
    | false =>
      have hskip : receiveByte x s = s := by
        rw [receiveByte_awaitHandshake h hp, handshakeByte_ignored hx (Ne.symm hk.1)]
      simpa [hskip] using ih hk.2

end Sys2Proof.Machine
end

section
/-! PROOF. Deliveries in a session: frames, and repeated handshake bytes (43_session_environment.md R73, R77). -/

namespace Sys2Proof.Machine

/-- Settles O31: a frame's row is the delivery of its bytes. -/
theorem aFrameInASessionIsReadByteByByte : Obligations.AFrameInASessionIsReadByteByByte := by
  intro z m q x p e s c hs
  exact exec_frameInstr_session hs z m q x p e

/-- Settles O56: the delivery is read as its bytes, of which the last alone is acted on; it is the row's own byte. -/
theorem repeatedHandshakeBytesAreTolerated : Obligations.RepeatedHandshakeBytesAreTolerated := by
  intro s c l rest i b hib hs hp hk hi
  have hrow : (i, b) ∈ loneRows := (by decide : _ ⊆ loneRows) hib
  have hb : isHandshake b = true := (by decide : ∀ x ∈ [_, _], isHandshake x.2 = true) _ hib
  have hs' : ({ s with inputs := rest } : State).session = some c := hs
  rw [step_of_inputs hi, act, wireArrives_session hs', exec_loneRow hrow, receive_lastHandshake hs' hp hk hb]

end Sys2Proof.Machine
end

section
/-! SUPPORT. The receiver's handshake: its requests one after another, and the mode each asks for
(43_session_environment.md R75, R81). -/

namespace Sys2Proof.Machine

/-- The mode that the request after `k` others asks for: CRC below the fallback threshold. -/
def requestMode (p : Params) (k : Nat) : Mode := if k < p.crcFallback then .crc else .checksum

/-- The handshake byte of a mode (43_session_environment.md R75). -/
def request : Mode → Byte
  | .crc => byteCrcreq
  | .checksum => byteNak

/-- The first `k` requests: 'C' up to the fallback threshold, then NAK. -/
def requests (p : Params) (k : Nat) : List Byte :=
  List.replicate (min k p.crcFallback) byteCrcreq ++ List.replicate (k - p.crcFallback) byteNak

theorem requests_succ (p : Params) (k : Nat) : requests p (k + 1) = requests p k ++ [request (requestMode p k)] := by
  by_cases h : k < p.crcFallback
  · simp [requests, requestMode, request, h, Nat.min_eq_left h.le,
      Nat.sub_eq_zero_of_le h.le, Nat.sub_eq_zero_of_le (Nat.succ_le_of_lt h), List.replicate_succ']
  · rw [Nat.not_lt] at h
    simp [requests, requestMode, request, Nat.not_lt.2 h, Nat.min_eq_right h, Nat.min_eq_right (Nat.le_succ_of_le h),
      Nat.succ_sub h, List.replicate_succ']

/-- A receiver that has sent `k + 1` requests and heard nothing. -/
def requesting (p : Params) (z : Option BlockSize) (k : Nat) : Session :=
  { newSession .receiver p (z.getD .b128) z.isSome [] .init with mode := requestMode p k, attempts := k + 1 }

theorem sendHandshake_of_lt {c : Session} (h : c.attempts < c.params.retryLimit) (s : State) :
    sendHandshake c s =
      transmit [request (requestMode c.params c.attempts)]
        (setSession { c with mode := requestMode c.params c.attempts, attempts := c.attempts + 1 } s) := by
  rw [sendHandshake, if_neg (Nat.not_le.2 h), requestMode]
  split <;> rfl

theorem sendHandshake_of_le {c : Session} (h : c.params.retryLimit ≤ c.attempts) (s : State) :
    sendHandshake c s = finish c .noSender s := by
  rw [sendHandshake, if_pos h]

theorem openReceiver_of_inactive {s : State} (h : sessionActive s = false) (p : Params) (z : Option BlockSize) :
    openReceiver p z s = .next (sendHandshake (newSession .receiver p (z.getD .b128) z.isSome [] .init) s) := by
  rw [openReceiver, h, if_neg Bool.false_ne_true]

/-- The requests go out one per interval while the budget lasts (43_session_environment.md R81). -/
theorem silence_requests {p : Params} {k : Nat} (hk : k < p.retryLimit) (z : Option BlockSize) (s : State) :
    silence k (sendHandshake (newSession .receiver p (z.getD .b128) z.isSome [] .init) s) =
      transmit (requests p (k + 1)) (setSession (requesting p z k) s) := by
  induction k with
  | zero =>
    have hone : requests p 1 = [request (requestMode p 0)] :=
      (requests_succ p 0).trans (by simp [requests])
    rw [hone]
    exact sendHandshake_of_lt hk s
  | succ k ih =>
    rw [silence_succ, ih (by omega), onTimeout_init (c := requesting p z k) rfl rfl,
      sendHandshake_of_lt (c := requesting p z k) hk, requests_succ p (k + 1)]
    simp [transmit, setSession, requesting, newSession]

end Sys2Proof.Machine
end

section
/-! PROOF. Budgets against a silent peer, by induction on the timeouts (43_session_environment.md R76, R77, R81). -/

namespace Sys2Proof.Machine

/-- Settles O46: the requests under the budget, and the timeout that finds it spent. -/
theorem theHandshakeFallsBackToNak : Obligations.TheHandshakeFallsBackToNak := by
  intro s p z ha hr
  refine ⟨_, openReceiver_of_inactive ha p z, fun k hk => ?_, ?_⟩
  · rw [silence_requests hk, List.append_assoc]
    rfl
  · obtain ⟨n, hn⟩ := Nat.exists_eq_add_of_le' hr
    have hlast := silence_requests (p := p) (k := n) (by omega) z s
    have hspent : p.retryLimit ≤ (requesting p z n).attempts := hn.le
    rw [hn, Nat.add_sub_cancel, silence_succ, hlast, onTimeout_init (c := requesting p z n) rfl rfl,
      sendHandshake_of_le hspent]
    exact ⟨rfl, _, rfl, rfl⟩

/-- Settles O55: the last request sent and the mode it asks for go together; a marker then ends the handshake (O37). -/
theorem theReceiversModeIsThatOfTheByteLastSent : Obligations.TheReceiversModeIsThatOfTheByteLastSent := by
  intro s p z ha
  refine ⟨_, openReceiver_of_inactive ha p z, fun k hk => ⟨requesting p z k, ?_⟩⟩
  have hlast : (transmit (requests p (k + 1)) (setSession (requesting p z k) s)).wireOut.getLast? =
      some (request (requestMode p k)) := by
    rw [transmit_wireOut, requests_succ, ← List.append_assoc, List.getLast?_concat]
  rw [silence_requests hk, hlast]
  refine ⟨rfl, rfl, fun h => ?_, fun h => ?_, fun i b hib => (aMarkerStartsABlock _ _ i b hib rfl rfl).2 rfl⟩
  · simp [requesting, requestMode, h, request, byteCrcreq]
  · simp [requesting, requestMode, Nat.not_lt.2 h, request, byteNak]

/-- Settles O54: each timeout under the budget counts one attempt, and the next one ends the session. -/
theorem theSendersHandshakeWaitsItsBudget : Obligations.TheSendersHandshakeWaitsItsBudget := by
  intro s p z source ha hr
  have hopen : openSender p z source s = .next (setSession (newSession .sender p z true source .awaitHandshake) s) := by
    rw [openSender, ha, if_neg Bool.false_ne_true, if_neg hr.ne']
  refine ⟨_, _, hopen, rfl, rfl, ?_⟩
  have hwait : ∀ k < p.retryLimit, silence k (setSession (newSession .sender p z true source .awaitHandshake) s) =
      setSession { newSession .sender p z true source .awaitHandshake with attempts := k } s := by
    intro k hk
    induction k with
    | zero => rfl
    | succ k ih =>
      rw [silence_succ, ih (by omega), onTimeout_awaitHandshake (setSession_session _ _) rfl, onNoHandshake_of_lt hk]
      rfl
  refine ⟨hwait, ?_⟩
  obtain ⟨n, hn⟩ := Nat.exists_eq_add_of_le' hr
  rw [hn, silence_succ, hwait n (by omega), onTimeout_awaitHandshake (setSession_session _ _) rfl,
    onNoHandshake_of_le hn.le]
  rfl

/-- A sender whose block has gone out `k` more times and that has heard nothing: the frame stands in FB as it was
(43_session_environment.md R79). -/
theorem silence_awaitAck {s : State} {c : Session} (hs : s.session = some c) (hp : c.phase = .awaitAck)
    (ha : c.attempts = 0) (hl : c.lastResponse = none) (hw : s.fb.written 0 s.outlen.toNat) {k : Nat}
    (hk : k < c.params.retryLimit) :
    silence k s = { s with
      session := some { c with attempts := k }
      wireOut := s.wireOut ++ (List.replicate k (s.fb.readRange 0 0 s.outlen.toNat)).flatten
      draws := s.draws + k * s.outlen.toNat } := by
  induction k with
  | zero => simp [silence, show ({ c with attempts := 0 } : Session) = c by rw [← ha], ← hs]
  | succ k ih =>
    rw [silence_succ, ih (by omega), onTimeout_awaitAck (c := { c with attempts := k }) rfl hp,
      onNoAck_of_lt (c := { c with attempts := k }) hk, List.replicate_succ', List.flatten_concat]
    simp [sendFrame, transmit, setSession, hl, Nat.succ_mul, Nat.add_assoc,
      readRange_written hw (s.draws + k * s.outlen.toNat) 0]

/-- Settles O44: the resends under the budget, and the timeout that exhausts it. -/
theorem aSilentPeerGetsExactlyTheBudget : Obligations.ASilentPeerGetsExactlyTheBudget := by
  intro s c n hs hp ha hr hl hw
  refine ⟨fun k hk => ⟨0, ?_⟩, _, rfl, ?_⟩
  · rw [silence_awaitAck hs hp ha hl hw (by omega)]
    exact ⟨rfl, rfl⟩
  · rw [silence_succ, silence_awaitAck hs hp ha hl hw (k := n) (by omega),
      onTimeout_awaitAck (c := { c with attempts := n }) rfl hp, onNoAck_of_le (c := { c with attempts := n }) hr.le]
    exact ⟨rfl, _, rfl, by simp [hl]⟩

end Sys2Proof.Machine
end

section
/-! SUPPORT. The reactions to a block are given their session and set the one they end in; which session the state held
before makes no difference (43_session_environment.md R82, R83). -/

namespace Sys2Proof.Machine

theorem afterBlock_setSession (c d : Session) (s : State) : afterBlock c (setSession d s) = afterBlock c s := by
  unfold afterBlock; split <;> rfl

theorem failAttempt_setSession (k : FailKind) (c d : Session) (s : State) :
    failAttempt k c (setSession d s) = failAttempt k c s := by
  unfold failAttempt
  split
  · rfl
  · exact afterBlock_setSession _ d s

theorem refuseBlock_setSession (k : FailKind) (c d : Session) (s : State) :
    refuseBlock k c (setSession d s) = refuseBlock k c s :=
  failAttempt_setSession k c d (transmit [byteNak] s)

theorem acceptBlock_setSession (p : List Byte) (c d : Session) (s : State) :
    acceptBlock p c (setSession d s) = acceptBlock p c s :=
  afterBlock_setSession _ d (transmit [byteAck] s)

theorem judgeBlock_setSession (c d : Session) (s : State) : judgeBlock c (setSession d s) = judgeBlock c s := by
  refine ite_congr rfl
    (fun _ => ite_congr rfl (fun _ => ?_) fun _ => ite_congr rfl (fun _ => ?_) fun _ => ?_) fun _ => ?_
  · exact acceptBlock_setSession _ c d { s with draws := s.draws + s.outlen.toNat }
  · exact afterBlock_setSession c d (transmit [byteAck] s)
  · exact refuseBlock_setSession _ c d s
  · exact refuseBlock_setSession _ c d s

theorem hostDecode_setSession (z : BlockSize) (m : Mode) (l : List Byte) (c : Session) (s : State) :
    hostDecode z m l (setSession c s) = setSession c (hostDecode z m l s) := by
  unfold hostDecode; split <;> rfl

theorem blockRead_setSession (l : List Byte) (c d : Session) (s : State) :
    blockRead l c (setSession d s) = blockRead l c s := by
  simp only [blockRead, hostDecode_setSession, refuseBlock_setSession, judgeBlock_setSession]

theorem blockTimeout_setSession (c d : Session) (s : State) : blockTimeout c (setSession d s) = blockTimeout c s := by
  simp only [blockTimeout, refuseBlock_setSession, failAttempt_setSession]

/-- The byte that makes a block whole brings it to be stored and judged (43_session_environment.md R82). -/
theorem blockByte_of_whole {c : Session} (hn : c.partialBlock ≠ [])
    (h : flen (sizeOfMarker (c.partialBlock.getD 0 0x00#8)) c.mode = c.partialBlock.length + 1) (b : Byte) (s : State) :
    blockByte b c s = blockRead (c.partialBlock ++ [b]) c s := by
  have hhead : (c.partialBlock ++ [b]).getD 0 0x00#8 = c.partialBlock.getD 0 0x00#8 :=
    List.getD_append _ _ _ 0 (List.length_pos_iff.2 hn)
  rw [blockByte, hhead, h, if_neg (by simp)]

end Sys2Proof.Machine
end

section
/-! PROOF. A cancellation that a receiver has noted inside a block (43_session_environment.md R88): each reaction to a
block, with the note and without it. -/

namespace Sys2Proof.Machine

/-- `u` is what `t` comes to where a noted cancellation is honoured: the session ends, unless it has ended by itself. -/
def cancelledAfter (t u : State) : Prop :=
  ∃ c, t.session = some c ∧
    (c.phase = .awaitBlock ∧ u = { t with session := some { c with phase := .ended .externallyCancelled } } ∨
      (∃ e, c.phase = .ended e) ∧ u = t)

/-- An end by the block itself drops the note. -/
theorem cancelledAfter_finish (c : Session) (e : SessionEnd) (s : State) :
    cancelledAfter (finish { c with cancelPending := false } e s) (finish c e s) :=
  ⟨_, rfl, .inr ⟨⟨e, rfl⟩, rfl⟩⟩

section
variable {c : Session} (hp : c.phase = .awaitBlock) (hk : c.cancelPending = true)
include hp hk

theorem cancelledAfter_afterBlock (hn : c.partialBlock = []) (s : State) :
    cancelledAfter (afterBlock { c with cancelPending := false } s) (afterBlock c s) := by
  rw [afterBlock_of_not_pending rfl, afterBlock, if_pos hk, finish, ← hn]
  exact ⟨_, rfl, .inl ⟨hp, rfl⟩⟩

theorem cancelledAfter_failAttempt (hn : c.partialBlock = []) (k : FailKind) (s : State) :
    cancelledAfter (failAttempt k { c with cancelPending := false } s) (failAttempt k c s) := by
  unfold failAttempt
  dsimp only
  split
  · exact cancelledAfter_finish c _ s
  · exact cancelledAfter_afterBlock (c := { c with attempts := c.attempts + 1 }) hp hk hn s

theorem cancelledAfter_refuseBlock (hn : c.partialBlock = []) (k : FailKind) (s : State) :
    cancelledAfter (refuseBlock k { c with cancelPending := false } s) (refuseBlock k c s) :=
  cancelledAfter_failAttempt hp hk hn k _

theorem cancelledAfter_acceptBlock (hn : c.partialBlock = []) (p : List Byte) (s : State) :
    cancelledAfter (acceptBlock p { c with cancelPending := false } s) (acceptBlock p c s) :=
  cancelledAfter_afterBlock
    (c := { c with
      sink := c.sink ++ delivered c p, bytesTransferred := c.bytesTransferred + (delivered c p).length
      sequence := c.sequence + 1#8, attempts := 0 }) hp hk hn _

theorem cancelledAfter_judgeBlock (hn : c.partialBlock = []) (s : State) :
    cancelledAfter (judgeBlock { c with cancelPending := false } s) (judgeBlock c s) := by
  unfold judgeBlock
  dsimp only
  split_ifs
  · exact cancelledAfter_acceptBlock hp hk hn _ _
  · exact cancelledAfter_afterBlock hp hk hn _
  · exact cancelledAfter_refuseBlock hp hk hn _ s
  · exact cancelledAfter_refuseBlock hp hk hn _ s

theorem cancelledAfter_blockRead (l : List Byte) (s : State) :
    cancelledAfter (blockRead l { c with cancelPending := false } s) (blockRead l c s) := by
  unfold blockRead
  dsimp only
  split
  · exact cancelledAfter_refuseBlock (c := { c with partialBlock := [], blockSize := _, sizeFixed := true }) hp hk
      rfl _ _
  · exact cancelledAfter_judgeBlock (c := { c with partialBlock := [], blockSize := _, sizeFixed := true }) hp hk
      rfl _

theorem cancelledAfter_blockTimeout (s : State) :
    cancelledAfter (blockTimeout { c with cancelPending := false } s) (blockTimeout c s) := by
  unfold blockTimeout
  dsimp only
  split
  · exact cancelledAfter_refuseBlock (c := { c with partialBlock := [] }) hp hk rfl _ s
  · exact cancelledAfter_failAttempt (c := { c with partialBlock := [] }) hp hk rfl _ s

end

/-- Settles O53: the last byte brings the block to be judged and a timeout drops it, with the note and without it. -/
theorem aNotedCancellationEndsTheReceiver : Obligations.ANotedCancellationEndsTheReceiver := by
  intro s c hs hp hn hk
  have hs' : (setSession { c with cancelPending := false } s).session = some { c with cancelPending := false } := rfl
  refine ⟨fun b hwhole => ?_, ?_⟩
  · obtain ⟨c', hc'⟩ := cancelledAfter_blockRead hp hk (c.partialBlock ++ [b]) s
    refine ⟨blockRead (c.partialBlock ++ [b]) { c with cancelPending := false } s, c',
      (?_ : _ = receiveByte b (setSession { c with cancelPending := false } s)), ?_⟩
    · rw [receiveByte_insideBlock hs' hp hn, blockByte_of_whole (c := { c with cancelPending := false }) hn hwhole,
        blockRead_setSession]
    · rw [receiveByte_insideBlock hs hp hn, blockByte_of_whole hn hwhole]
      exact hc'
  · obtain ⟨c', hc'⟩ := cancelledAfter_blockTimeout hp hk s
    refine ⟨blockTimeout { c with cancelPending := false } s, c',
      (?_ : _ = onTimeout (setSession { c with cancelPending := false } s)), ?_⟩
    · rw [onTimeout_awaitBlock hs' hp, blockTimeout_setSession]
    · rw [onTimeout_awaitBlock hs hp]
      exact hc'

end Sys2Proof.Machine
end

section
/-! PROOF. The terms of a session are fixed after its handshake (43_session_environment.md R75, R89): no reaction
changes its mode, role or parameters, nor leads back to the handshake. -/

namespace Sys2Proof.Machine

/-- The handshake is over: the phase is neither of the two it is made in. -/
def Session.pastHandshake (c : Session) : Prop := c.phase ≠ .awaitHandshake ∧ c.phase ≠ .init

/-- The state holds a session of the same mode, role and parameters, past its handshake. -/
def keepsTerms (c : Session) (s : State) : Prop :=
  ∃ c', s.session = some c' ∧ c'.mode = c.mode ∧ c'.role = c.role ∧ c'.params = c.params ∧ c'.pastHandshake

theorem keepsTerms_setSession {c : Session} (h : c.pastHandshake) (s : State) : keepsTerms c (setSession c s) :=
  ⟨c, rfl, rfl, rfl, rfl, h⟩

theorem keepsTerms_of_session_eq {c : Session} {s t : State} (h : keepsTerms c s) (e : t.session = s.session) :
    keepsTerms c t := by
  rwa [keepsTerms, e]

theorem keepsTerms_finish (c : Session) (e : SessionEnd) (s : State) : keepsTerms c (finish c e s) :=
  keepsTerms_setSession (c := { c with phase := .ended e, partialBlock := [], cancelPending := false }) ⟨nofun, nofun⟩ s

theorem keepsTerms_sendEot (c : Session) (s : State) : keepsTerms c (sendEot c s) := by
  unfold sendEot
  split
  · exact keepsTerms_finish c _ s
  · exact ⟨_, rfl, rfl, rfl, rfl, nofun, nofun⟩

theorem keepsTerms_sendBlock (c : Session) (s : State) : keepsTerms c (sendBlock c s) := by
  unfold sendBlock
  split
  · exact keepsTerms_finish c _ s
  · have hset := keepsTerms_setSession (c := { c with phase := .awaitAck, attempts := 0, lastResponse := none })
      ⟨nofun, nofun⟩ s
    exact keepsTerms_of_session_eq hset (hostEncode_session ..)

theorem keepsTerms_nextBlock (c : Session) (s : State) : keepsTerms c (nextBlock c s) := by
  unfold nextBlock
  split_ifs
  · exact keepsTerms_finish c _ s
  · exact keepsTerms_sendEot c s
  · exact keepsTerms_sendBlock c s

theorem keepsTerms_onAck (c : Session) (s : State) : keepsTerms c (onAck c s) :=
  keepsTerms_nextBlock
    { c with
      sequence := c.sequence + 1#8
      source := c.source.drop (bs c.blockSize)
      bytesTransferred := c.bytesTransferred + (c.source.take (bs c.blockSize)).length } s

section
variable {c : Session} (h : c.pastHandshake) (s : State)
include h

theorem keepsTerms_onNoAck (r : Option Byte) : keepsTerms c (onNoAck r c s) := by
  unfold onNoAck
  dsimp only
  split
  · exact keepsTerms_finish c _ s
  · exact ⟨_, rfl, rfl, rfl, rfl, h⟩

theorem keepsTerms_onNoEotAck : keepsTerms c (onNoEotAck c s) := by
  unfold onNoEotAck
  split
  · exact keepsTerms_finish c _ s
  · exact ⟨_, rfl, rfl, rfl, rfl, h⟩

theorem keepsTerms_ackByte (b : Byte) : keepsTerms c (ackByte b c s) := by
  unfold ackByte
  cases ctl b with
  | ack => exact keepsTerms_onAck c s
  | can => exact keepsTerms_finish c _ s
  | nak | soh | stx | eot | crcreq | other => exact keepsTerms_onNoAck h s _

theorem keepsTerms_afterBlock : keepsTerms c (afterBlock c s) := by
  unfold afterBlock
  split
  · exact keepsTerms_finish c _ s
  · exact keepsTerms_setSession h s

theorem keepsTerms_failAttempt (k : FailKind) : keepsTerms c (failAttempt k c s) := by
  unfold failAttempt
  split
  · exact keepsTerms_finish c _ s
  · exact keepsTerms_afterBlock (c := { c with attempts := c.attempts + 1 }) h s

theorem keepsTerms_refuseBlock (k : FailKind) : keepsTerms c (refuseBlock k c s) := keepsTerms_failAttempt h _ k

theorem keepsTerms_judgeBlock : keepsTerms c (judgeBlock c s) := by
  unfold judgeBlock
  split_ifs
  · exact keepsTerms_afterBlock (c := { c with
      sink := c.sink ++ delivered c _, bytesTransferred := c.bytesTransferred + (delivered c _).length
      sequence := c.sequence + 1#8, attempts := 0 }) h _
  · exact keepsTerms_afterBlock h _
  · exact keepsTerms_refuseBlock h s _
  · exact keepsTerms_refuseBlock h s _

theorem keepsTerms_blockRead (l : List Byte) : keepsTerms c (blockRead l c s) := by
  unfold blockRead
  dsimp only
  split
  · exact keepsTerms_refuseBlock (c := { c with partialBlock := [], blockSize := _, sizeFixed := true }) h _ _
  · exact keepsTerms_judgeBlock (c := { c with partialBlock := [], blockSize := _, sizeFixed := true }) h _

theorem keepsTerms_blockByte (b : Byte) : keepsTerms c (blockByte b c s) := by
  unfold blockByte
  dsimp only
  split
  · exact ⟨_, rfl, rfl, rfl, rfl, h⟩
  · exact keepsTerms_blockRead h s _

theorem keepsTerms_blockTimeout : keepsTerms c (blockTimeout c s) := by
  unfold blockTimeout
  dsimp only
  split
  · exact keepsTerms_refuseBlock (c := { c with partialBlock := [] }) h s _
  · exact keepsTerms_failAttempt (c := { c with partialBlock := [] }) h s _

end

section
variable {c : Session} {s : State} (hs : s.session = some c) (h : c.pastHandshake)
include hs h

/-- The session as it stands. -/
theorem keepsTerms_self : keepsTerms c s := ⟨c, hs, rfl, rfl, rfl, h⟩

theorem keepsTerms_eotAckByte (b : Byte) : keepsTerms c (eotAckByte b c s) := by
  have hstray : keepsTerms c (strayEotReply c s) := by
    unfold strayEotReply
    split
    · exact keepsTerms_onNoEotAck h s
    · exact keepsTerms_self hs h
  unfold eotAckByte
  cases ctl b with
  | ack | can => exact keepsTerms_finish c _ s
  | nak => exact keepsTerms_onNoEotAck h s
  | soh | stx | eot | crcreq | other => exact hstray

theorem keepsTerms_firstByte (b : Byte) : keepsTerms c (firstByte b c s) := by
  unfold firstByte
  cases ctl b with
  | soh | stx => exact ⟨_, rfl, rfl, rfl, rfl, h⟩
  | eot | can => exact keepsTerms_finish c _ _
  | ack | nak | crcreq | other =>
    dsimp only
    split
    · exact keepsTerms_refuseBlock h s _
    · exact keepsTerms_self hs h

theorem keepsTerms_receiveByte (b : Byte) : keepsTerms c (receiveByte b s) := by
  cases hp : c.phase with
  | awaitHandshake => exact absurd hp h.1
  | init => exact absurd hp h.2
  | awaitAck => rw [receiveByte_awaitAck hs hp]; exact keepsTerms_ackByte h s b
  | awaitEotAck => rw [receiveByte_awaitEotAck hs hp]; exact keepsTerms_eotAckByte hs h b
  | awaitBlock =>
    rw [receiveByte_awaitBlock hs hp]
    split
    · exact keepsTerms_firstByte hs h b
    · exact keepsTerms_blockByte h s b
  | ended e =>
    rw [← receive_singleton, receive_ended hs hp]
    exact keepsTerms_self hs h

theorem keepsTerms_onTimeout : keepsTerms c (onTimeout s) := by
  cases hp : c.phase with
  | awaitHandshake => exact absurd hp h.1
  | init => exact absurd hp h.2
  | awaitAck => rw [onTimeout_awaitAck hs hp]; exact keepsTerms_onNoAck h s none
  | awaitEotAck => rw [onTimeout_awaitEotAck hs hp]; exact keepsTerms_onNoEotAck h s
  | awaitBlock => rw [onTimeout_awaitBlock hs hp]; exact keepsTerms_blockTimeout h s
  | ended e =>
    rw [(canAbortsAtOnce.2 s c e hs hp).2.1]
    exact keepsTerms_self hs h

/-- A cancellation ends the session or is noted. -/
theorem keepsTerms_onCancel : keepsTerms c (onCancel s) := by
  have hnoted : keepsTerms c (setSession { c with cancelPending := true } s) := ⟨_, rfl, rfl, rfl, rfl, h⟩
  simp only [onCancel, hs]
  split
  · exact keepsTerms_finish c _ s
  · exact hnoted
  · exact keepsTerms_finish c _ s
  · exact keepsTerms_finish c _ s
  · split
    · exact keepsTerms_finish c _ s
    · exact hnoted
  · exact keepsTerms_self hs h

end

/-- The terms are kept over a delivery: they are kept by each byte, which leaves the handshake past. -/
theorem keepsTerms_receive {c : Session} {s : State} (h : keepsTerms c s) (l : List Byte) :
    keepsTerms c (receive l s) := by
  induction l generalizing s with
  | nil => exact h
  | cons b t ih =>
    obtain ⟨c', hs, hm, hr, hpar, hpast⟩ := h
    have hread := keepsTerms_receiveByte hs hpast b
    rw [keepsTerms, hm, hr, hpar] at hread
    rw [receive_cons]
    split
    · exact ih ⟨c', hs, hm, hr, hpar, hpast⟩
    · exact ih hread

/-- An access of the host to the block leaves the session as it is. -/
theorem accessShorthand_session {x : Shorthand} {s t : State} (e : accessShorthand x s = .next t) :
    t.session = s.session := by
  cases x with
  | load a p =>
    simp only [accessShorthand, accessLoad] at e
    split_ifs at e <;> cases e <;> rfl
  | encode z m q p => cases e; exact hostEncode_session z m q p s
  | decode z m r => cases e; exact hostDecode_session z m r s
  | detect m p =>
    simp only [accessShorthand, hostDetect] at e
    split_ifs at e
    cases e
    rfl
  | sendframe => cases e; rfl

/-- So does each of the four primitives and a reset (10_state.md R6). -/
theorem act_access_session {a : Access} {s t : State} (e : act a.input s = .next t) : t.session = s.session := by
  have hstep := anAccessIsAStepOfTheBlockAlone a { s with inputs := a.input :: s.inputs } s.inputs rfl
  rw [step_of_inputs rfl, e] at hstep
  split at hstep
  · cases hstep; rfl
  · cases hstep

theorem keepsTerms_act {c : Session} {s t : State} (hs : s.session = some c) (ha : sessionActive s = true)
    (h : c.pastHandshake) {i : Input} (e : act i s = .next t) : keepsTerms c t := by
  have hself := keepsTerms_self hs h
  cases i with
  | rdfb a => exact keepsTerms_of_session_eq hself (act_access_session (a := .rdfb a) e)
  | wrfb a b => exact keepsTerms_of_session_eq hself (act_access_session (a := .wrfb a b) e)
  | rdreg r => exact keepsTerms_of_session_eq hself (act_access_session (a := .rdreg r) e)
  | wrreg w => exact keepsTerms_of_session_eq hself (act_access_session (a := .wrreg w) e)
  | reset => exact keepsTerms_of_session_eq hself (act_access_session (a := .reset) e)
  | shorthand x => exact keepsTerms_of_session_eq hself (accessShorthand_session e)
  | openSender p z source => simp [act, openSender, ha] at e
  | openReceiver p z => simp [act, openReceiver, ha] at e
  | wire l =>
    rw [act, wireArrives_session hs] at e
    cases e
    exact keepsTerms_receive hself l
  | timeout => cases e; exact keepsTerms_onTimeout hs h
  | cancel => cases e; exact keepsTerms_onCancel hs h

/-- Settles O57: with no input pending nothing happens; else the oldest is acted on, and the terms are kept. -/
theorem theModeIsFixedAfterTheHandshake : Obligations.TheModeIsFixedAfterTheHandshake := by
  intro s t c hs ha hw hi e
  have hkept : keepsTerms c t := by
    cases hin : s.inputs with
    | nil =>
      simp only [step, hin] at e
      cases e
      exact keepsTerms_self hs ⟨hw, hi⟩
    | cons i rest =>
      rw [step_of_inputs hin] at e
      exact keepsTerms_act (s := { s with inputs := rest }) hs ha ⟨hw, hi⟩ e
  obtain ⟨c', hs', hm, hr, hpar, -⟩ := hkept
  exact ⟨c', hs', hm, hr, hpar⟩

end Sys2Proof.Machine
end

section
/-! SUPPORT. A whole frame read by a receiver that waits for a block: it is stored, presented and judged
(43_session_environment.md R82, R83). -/

namespace Sys2Proof.Machine

/-- A session whose block size is set. -/
def Session.sized (c : Session) (z : BlockSize) : Session := { c with blockSize := z, sizeFixed := true }

/-- Once the marker has been read, the rest of its frame brings the whole to be judged. -/
theorem receive_restOfFrame {s : State} {c : Session} (hs : s.session = some c) (hp : c.phase = .awaitBlock) {b : Byte}
    (hb : c.partialBlock = [b]) {rest : List Byte}
    (hlen : (b :: rest).length = flen (sizeOfMarker b) c.mode) : receive rest s = blockRead (b :: rest) c s := by
  have hne : rest ≠ [] := by
    rintro rfl
    rw [List.length_singleton, flen] at hlen
    omega
  have hwhole : c.partialBlock.length + rest.length = flen (sizeOfMarker (c.partialBlock.getD 0 0x00#8)) c.mode := by
    rw [hb, ← List.length_append]
    exact hlen
  obtain ⟨c', s', hread, rfl, rfl⟩ := receive_restOfBlock hne hs hp (by simp [hb]) hwhole
  rw [hread, hb]
  exact blockRead_setSession _ _ _ s

theorem firstByte_marker (z : BlockSize) (c : Session) (s : State) :
    firstByte (marker z) c s = setSession { c with partialBlock := [marker z] } s := by
  cases z <;> rfl

/-- A frame of the receiver's mode is read to its end, whatever its size (43_session_environment.md R82). -/
theorem receive_frame {s : State} {c : Session} (hs : s.session = some c) (hp : c.phase = .awaitBlock)
    (hn : c.partialBlock = []) {z : BlockSize} {rest : List Byte}
    (hlen : (marker z :: rest).length = flen z c.mode) :
    receive (marker z :: rest) s = blockRead (marker z :: rest) c s := by
  rw [receive_cons_of_not_awaits (by simp [awaitsHandshake, hs, hp]), receiveByte_betweenBlocks hs hp hn,
    firstByte_marker,
    receive_restOfFrame (c := { c with partialBlock := [marker z] }) rfl hp rfl (by rwa [sizeOfMarker_marker])]
  exact blockRead_setSession _ c _ s

/-- A block that fits FB is presented to the `DEC` of size `z'`, that of the session or, where none is set, of the
marker (92_eei_decisions.md D31), and judged. -/
theorem blockRead_of_fits {c : Session} (hn : c.partialBlock = []) {l : List Byte} (h : l.length ≤ Config.fbSize)
    {z' : BlockSize} (hz : (if c.sizeFixed then c.blockSize else sizeOfMarker (l.getD 0 0x00#8)) = z') (s : State) :
    blockRead l c s = judgeBlock (c.sized z') (hostDecode z' c.mode l s) := by
  rw [Session.sized, ← hz]
  simp only [blockRead, if_neg (Nat.not_lt.2 h), ← hn]

/-- The row of a frame of the receiver's mode is its block, read whole. -/
theorem exec_frame_read {s : State} {c : Session} (hs : s.session = some c) (hp : c.phase = .awaitBlock)
    (hn : c.partialBlock = []) {z z' : BlockSize} (hz : (if c.sizeFixed then c.blockSize else z) = z') (q x : Byte)
    {p : List Byte} (hlen : p.length = bs z) (e : Half) :
    exec (frameInstr z c.mode q x p e) s =
      .next (judgeBlock (c.sized z') (hostDecode z' c.mode (encode (frameInstr z c.mode q x p e)) s)) := by
  have hflen := length_encode_frameInstr z c.mode q x p e hlen
  have hfits := hflen.trans_le (flen_bounds z c.mode).2
  rw [exec_frameInstr_session hs]
  rw [encode_frameInstr] at hflen hfits ⊢
  have hsize : (if c.sizeFixed then c.blockSize else sizeOfMarker (marker z)) = z' := by rw [sizeOfMarker_marker, hz]
  exact congrArg _ ((receive_frame hs hp hn hflen).trans (blockRead_of_fits hn hfits hsize s))

end Sys2Proof.Machine
end

section
/-! SUPPORT. The judgement on a frame that has been presented, by what `decode` says of it (43_session_environment.md
R83, 41_frame_decode.md R54). -/

namespace Sys2Proof.Machine

section
variable {z : BlockSize} {m : Mode} {raw : List Byte} {s t : State} (h : presented z m raw s t)
include h

theorem presented_startsWith : t.fb.startsWith raw := by
  obtain ⟨hfb, -⟩ := h
  exact fun k hk => (hfb k).trans (if_pos hk)

theorem presented_results_ok {q : Byte} {pay : List Byte} (hd : decodeBlock raw m z = .ok (q, pay)) :
    results t (statusWord 0#3) q (det m pay) (BitVec.ofNat 16 (bs z)) := by
  obtain ⟨-, -, -, -, -, -, -, hres⟩ := h
  rwa [hd] at hres

theorem presented_results_error {e : Err} (hd : decodeBlock raw m z = .error e) :
    results t (statusWord (errCode e)) 0x00#8 0x0000#16 0x0000#16 := by
  obtain ⟨-, -, -, -, -, -, -, hres⟩ := h
  rwa [hd] at hres

/-- The payload that the host reads back is the one `decode` accepts. -/
theorem presented_payload {q : Byte} {pay : List Byte} (hd : decodeBlock raw m z = .ok (q, pay)) (d : Nat) :
    t.fb.readRange d payloadBase t.outlen.toNat = pay := by
  obtain ⟨-, -, -, hout⟩ := presented_results_ok h hd
  have hfit : payloadBase + bs z ≤ raw.length := by
    rw [length_of_decodeBlock_ok hd, ← (flen_bounds z m).1]
    omega
  rw [hout, bs_toNat, (presented_startsWith h).readRange_eq hfit, payload_of_decodeBlock_ok hd]

/-- The expected sequence: accepted. -/
theorem judgeBlock_expected {c : Session} {pay : List Byte} (hd : decodeBlock raw m z = .ok (c.sequence, pay)) :
    ∃ n, judgeBlock c t = acceptBlock pay c { t with draws := n } := by
  obtain ⟨hstatus, hrseq, -, -⟩ := presented_results_ok h hd
  exact ⟨_, by rw [judgeBlock, if_pos hstatus, if_pos hrseq, presented_payload h hd]⟩

/-- The sequence before: acknowledged. -/
theorem judgeBlock_duplicate {c : Session} {pay : List Byte}
    (hd : decodeBlock raw m z = .ok (c.sequence - 1#8, pay)) :
    judgeBlock c t = afterBlock c (transmit [byteAck] t) := by
  obtain ⟨hstatus, hrseq, -, -⟩ := presented_results_ok h hd
  have hne : t.rseq ≠ c.sequence := by rw [hrseq]; bv_omega
  rw [judgeBlock, if_pos hstatus, if_neg hne, if_pos hrseq]

/-- An error, or any other sequence: refused, for that reason. -/
theorem judgeBlock_refused {c : Session}
    (hd : ∀ pay, decodeBlock raw m z ≠ .ok (c.sequence, pay) ∧ decodeBlock raw m z ≠ .ok (c.sequence - 1#8, pay)) :
    judgeBlock c t = refuseBlock (refusalKind (decodeBlock raw m z)) c t := by
  cases hr : decodeBlock raw m z with
  | ok r =>
    obtain ⟨q, pay⟩ := r
    obtain ⟨hstatus, hrseq, -, -⟩ := presented_results_ok h hr
    have hexp : t.rseq ≠ c.sequence := by
      intro he
      exact (hd pay).1 (by rw [hr, ← hrseq, he])
    have hdup : t.rseq ≠ c.sequence - 1#8 := by
      intro he
      exact (hd pay).2 (by rw [hr, ← hrseq, he])
    rw [judgeBlock, if_pos hstatus, if_neg hexp, if_neg hdup, hrseq]
    rfl
  | error e =>
    obtain ⟨hstatus, -, -, -⟩ := presented_results_error h hr
    have he : e = .frameError ∨ e = detectionErr m := by
      obtain ⟨-, hc⟩ | ⟨-, hc⟩ | ⟨-, _, hc⟩ := decodeBlock_cases raw m z <;> cases hc.symm.trans hr
      · exact .inl rfl
      · exact .inr rfl
    have hcode : statusWord (errCode e) ≠ statusWord 0#3 ∧ decodeErrOf (statusWord (errCode e)) = e := by
      obtain rfl | rfl := he
      · decide
      · cases m <;> decide
    rw [judgeBlock, hstatus, if_neg hcode.1, hcode.2]
    rfl

end

/-- A session that has accepted a payload (43_session_environment.md R83). -/
def Session.accepted (c : Session) (p : List Byte) : Session :=
  { c with
    sink := c.sink ++ delivered c p
    bytesTransferred := c.bytesTransferred + (delivered c p).length
    sequence := c.sequence + 1#8
    attempts := 0 }

theorem acceptBlock_of_not_pending {c : Session} (hk : c.cancelPending = false) (p : List Byte) (s : State) :
    acceptBlock p c s = setSession (c.accepted p) (transmit [byteAck] s) :=
  afterBlock_of_not_pending (c := c.accepted p) hk _

end Sys2Proof.Machine
end

section
/-! PROOF. The receiver's four answers to a whole frame (43_session_environment.md R83, R87): each frame is presented by
the `DEC` of the session's size, and judged by what `decode` says of it. -/

namespace Sys2Proof.Machine

/-- A frame with its own complement and code decodes to its sequence and payload. -/
theorem decodeBlock_frameInstr (z : BlockSize) (m : Mode) (q : Byte) {p : List Byte} (h : p.length = bs z) :
    decodeBlock (encode (frameInstr z m q (255#8 - q) p (det m p))) m z = .ok (q, p) :=
  (decodeBlock_eq_ok_iff ..).2 ⟨h, encode_frameInstr ..⟩

/-- The size of a session that takes blocks of size `z`. -/
theorem size_of_session {c : Session} {z : BlockSize} (h : c.sizeFixed = true → c.blockSize = z) :
    (if c.sizeFixed then c.blockSize else z) = z := by
  split
  · exact h ‹_›
  · rfl

theorem presented_frameInstr (z' z : BlockSize) (m : Mode) (q x : Byte) {p : List Byte} (h : p.length = bs z) (e : Half)
    (s : State) :
    presented z' m (encode (frameInstr z m q x p e)) s (hostDecode z' m (encode (frameInstr z m q x p e)) s) :=
  presented_hostDecode z' m ((length_encode_frameInstr z m q x p e h).trans_le (flen_bounds z m).2) s

/-- Settles O32: the frame decodes to the expected sequence, so it is accepted. -/
theorem theExpectedBlockIsAccepted : Obligations.TheExpectedBlockIsAccepted := by
  rintro z m p s c hs hp hn rfl hz hk hlen
  have hdec := decodeBlock_frameInstr z c.mode c.sequence hlen
  have hpres := presented_frameInstr z z c.mode c.sequence (255#8 - c.sequence) hlen (det c.mode p) s
  obtain ⟨hstatus, hrseq, -, -⟩ := presented_results_ok hpres hdec
  obtain ⟨n, hjudge⟩ := judgeBlock_expected hpres (c := c.sized z) hdec
  refine ⟨_, exec_frame_read hs hp hn (size_of_session hz) _ _ hlen _, ?_⟩
  rw [hjudge, acceptBlock_of_not_pending (c := c.sized z) hk]
  exact ⟨hpres, hstatus, hrseq, by simp [byteAck], rfl⟩

/-- Settles O33: the frame decodes to the sequence before the expected one, so it is only acknowledged. -/
theorem aDuplicateIsAcknowledgedAndNotAppended : Obligations.ADuplicateIsAcknowledgedAndNotAppended := by
  rintro z m p s c q hs hp hn rfl hz hk hlen rfl
  have hdec := decodeBlock_frameInstr z c.mode (c.sequence - 1#8) hlen
  have hpres := presented_frameInstr z z c.mode (c.sequence - 1#8) (255#8 - (c.sequence - 1#8)) hlen (det c.mode p) s
  refine ⟨_, exec_frame_read hs hp hn (size_of_session hz) _ _ hlen _, ?_⟩
  rw [judgeBlock_duplicate hpres (c := c.sized z) hdec, afterBlock_of_not_pending (c := c.sized z) hk]
  exact ⟨hpres, rfl, by simp [byteAck]⟩

/-- What a refusal of a presented frame leaves, with an attempt left and with none (43_session_environment.md R83). -/
theorem refuseBlock_presented {z : BlockSize} {m : Mode} {raw : List Byte} {s t : State} (h : presented z m raw s t)
    {c : Session} (hn : c.partialBlock = []) (hk : c.cancelPending = false) (k : FailKind) :
    presented z m raw s (refuseBlock k c t) ∧ (refuseBlock k c t).wireOut = t.wireOut ++ [byteNak] ∧
      (c.attempts + 1 < c.params.retryLimit →
        (refuseBlock k c t).session = some { c with attempts := c.attempts + 1 }) ∧
      (c.params.retryLimit ≤ c.attempts + 1 →
        (refuseBlock k c t).session = some { c with phase := .ended (.tooManyErrors c.sequence k) }) := by
  by_cases hlt : c.attempts + 1 < c.params.retryLimit
  · rw [refuseBlock_of_lt hk hlt]
    exact ⟨h, rfl, fun _ => rfl, fun hle => absurd hlt (Nat.not_lt.2 hle)⟩
  · rw [refuseBlock_of_le (Nat.not_lt.1 hlt), finish_of_idle hn hk]
    exact ⟨h, rfl, fun hlt' => absurd hlt' hlt, fun _ => rfl⟩

/-- Settles O34: `decode` gives neither the expected sequence nor its predecessor, so the block is refused. -/
theorem aBadBlockIsRefused : Obligations.ABadBlockIsRefused := by
  rintro z m q x p e s c hs hp hn rfl hz hk hlen hbad
  have hpres := presented_frameInstr z z c.mode q x hlen e s
  refine ⟨_, exec_frame_read hs hp hn (size_of_session hz) q x hlen e, ?_⟩
  rw [judgeBlock_refused hpres (c := c.sized z) hbad]
  obtain ⟨hkept, hwire, hleft, hspent⟩ := refuseBlock_presented hpres (c := c.sized z) hn hk
    (refusalKind (decodeBlock (encode (frameInstr z c.mode q x p e)) c.mode z))
  exact ⟨hkept, by rw [hwire, hostDecode_wireOut]; rfl, hleft, hspent⟩

theorem bs_injective {z z' : BlockSize} (h : bs z = bs z') : z = z' := by
  cases z <;> cases z' <;> simp [bs] at h ⊢

/-- The bytes of a frame of one size have not the length of the other (41_frame_decode.md R54). -/
theorem decodeBlock_otherSize {z z' : BlockSize} (h : z' ≠ z) (m : Mode) {raw : List Byte}
    (hlen : raw.length = flen z m) : decodeBlock raw m z' = .error .frameError := by
  have hne : raw.length ≠ flen z' m := fun he => h (bs_injective (by rw [hlen, flen, flen] at he; omega))
  exact (malformed_iff_frameError raw m z').1 (.inl hne)

/-- Settles O52: `decode` at the session's size refuses the length, so the block is refused as a `FrameError`. -/
theorem aFrameOfTheOtherSizeIsRefused : Obligations.AFrameOfTheOtherSizeIsRefused := by
  rintro z m q x p e s c hs hp hn rfl hfix hz hk hlen
  have hdec := decodeBlock_otherSize hz c.mode (length_encode_frameInstr z c.mode q x p e hlen)
  have hpres := presented_frameInstr c.blockSize z c.mode q x hlen e s
  have hsized : c.sized c.blockSize = c := by rw [Session.sized, ← hfix]
  have hjudge := judgeBlock_refused hpres (c := c) (by simp [hdec])
  obtain ⟨hkept, hwire, hleft, hspent⟩ := refuseBlock_presented hpres hn hk (.block .frameError)
  refine ⟨_, exec_frame_read hs hp hn (if_pos hfix) q x hlen e, ?_⟩
  rw [hsized, hjudge, hdec]
  exact ⟨hkept, presented_results_error hkept hdec, by rw [refusalKind, hwire, hostDecode_wireOut]; rfl, hleft, hspent⟩

end Sys2Proof.Machine
end

section
/-! SUPPORT. A block sent: built by `ENCODE.E.M` at `FB[0 ..]` and passed to the transport (43_session_environment.md
R78, 30_encoding.md R47). -/

namespace Sys2Proof.Machine

/-- An `ENC` over written data bytes leaves the frame that `encode` gives, and FB beyond it as it was
(40_frame_encode.md R49). -/
theorem holds_encodeCommand {z : BlockSize} {s : State} (h : s.len.toNat ≤ bs z) (m : Mode)
    (hw : s.fb.written payloadBase s.len.toNat) :
    holds (blockBytes (blockOf s.seq (s.fb.readRange 0 payloadBase s.len.toNat) m z)) s (encodeCommand z m s) := by
  intro k
  rw [length_blockBytes_blockOf s.seq m (by rwa [readRange_length]), ← encodeCommand_frame h m hw 0 0]
  split
  next hk => rw [readRange_getElem?_of_written (encodeCommand_written h m hw) hk, Nat.zero_add]
  next hk => exact encodeCommand_untouched h m (.inr (Nat.not_lt.1 hk))

/-- The operands of `ENCODE.E.M q, P` are in place, its command written (30_encoding.md R47). -/
def offered (z : BlockSize) (m : Mode) (q : Byte) (p : List Byte) (s : State) : State :=
  { load payloadBase p s with seq := q, len := BitVec.ofNat 16 p.length, cmd := cmdByte opEnc z m }

/-- The frame of a payload that fits its block is built, and the rest of the machine is as it was. -/
theorem built_hostEncode {z : BlockSize} (m : Mode) (q : Byte) {p : List Byte} (h : p.length ≤ bs z) (s : State) :
    built z m q p (blockBytes (blockOf q p m z)) s (hostEncode z m q p s) := by
  have hbs : bs z ≤ 1024 := by cases z <;> decide
  have hhost : hostEncode z m q p s = encodeCommand z m (offered z m q p s) := hostEncode_fits z m q (by omega) s
  have hlen : (offered z m q p s).len.toNat = p.length := Nat.mod_eq_of_lt (by omega)
  have hfit : (offered z m q p s).len.toNat ≤ bs z := by rwa [hlen]
  have hdata (d : Nat) : (offered z m q p s).fb.readRange d payloadBase (offered z m q p s).len.toNat = p := by
    rw [hlen]
    exact readRange_writeRange_self s.fb d payloadBase p
  have hw : (offered z m q p s).fb.written payloadBase (offered z m q p s).len.toNat := by
    rw [hlen]
    exact writeRange_written_self s.fb payloadBase p
  have hfb := holds_encodeCommand hfit m hw
  have hres := results_encodeCommand hfit m
  rw [hdata] at hfb hres
  rw [hhost]
  refine ⟨fun k => (hfb k).trans (ite_congr rfl (fun _ => rfl) fun hk => ?_), encodeCommand_seq z m _,
    encodeCommand_len z m _, encodeCommand_cmd z m _, hres, rfl, rfl, rfl⟩
  -- the data bytes lie within the frame, so beyond it nothing has been loaded
  have hpay := (flen_bounds z m).1
  rw [length_blockBytes_blockOf _ m h] at hk
  exact byteAt?_writeRange_of_ge s.fb p (by omega)

/-- What `SENDFRAME` sends is the frame that has been built. -/
theorem sendFrame_of_built {z : BlockSize} {m : Mode} {q : Byte} {p f : List Byte} {s t : State}
    (h : built z m q p f s t) (hf : f.length = flen z m) : (sendFrame t).wireOut = t.wireOut ++ f := by
  obtain ⟨hfb, -, -, -, ⟨-, -, -, hout⟩, -⟩ := h
  have hstands : t.fb.startsWith f := fun k hk => (hfb k).trans (if_pos hk)
  rw [sendFrame_wireOut, hout, flen_toNat, hstands.readRange_eq (by omega), List.drop_zero, ← hf, List.take_length]

/-- The next chunk of a sender's source (43_session_environment.md R78). -/
def Session.chunk (c : Session) : List Byte := c.source.take (bs c.blockSize)

/-- The frame of the block a sender is to send. -/
def Session.frame (c : Session) : List Byte := blockBytes (blockOf c.sequence c.chunk c.mode c.blockSize)

/-- A sender that has chosen its mode and is to send its first block (43_session_environment.md R77, R75). -/
def Session.started (c : Session) (m : Mode) : Session := { c with mode := m, sequence := 0x01#8 }

/-- A sender that has sent its block. -/
def Session.sent (c : Session) : Session := { c with phase := .awaitAck, attempts := 0, lastResponse := none }

/-- A sender whose block has been acknowledged (43_session_environment.md R79). -/
def Session.advanced (c : Session) : Session :=
  { c with
    sequence := c.sequence + 1#8
    source := c.source.drop (bs c.blockSize)
    bytesTransferred := c.bytesTransferred + c.chunk.length }

theorem length_chunk_le (c : Session) : c.chunk.length ≤ bs c.blockSize := List.length_take_le _ _

theorem sendBlock_of_pos {c : Session} (h : 0 < c.params.retryLimit) (s : State) :
    sendBlock c s = sendFrame (hostEncode c.blockSize c.mode c.sequence c.chunk (setSession c.sent s)) := by
  rw [sendBlock, if_neg h.ne']
  rfl

section
variable {c : Session} (h : 0 < c.params.retryLimit) (s : State)
include h

@[simp] theorem sendBlock_session : (sendBlock c s).session = some c.sent := by
  rw [sendBlock_of_pos h, sendFrame_session, hostEncode_session, setSession_session]

theorem sendBlock_wireOut : (sendBlock c s).wireOut = s.wireOut ++ c.frame := by
  rw [sendBlock_of_pos h, sendFrame_of_built (built_hostEncode c.mode c.sequence (length_chunk_le c) _)
    (length_blockBytes_blockOf _ _ (length_chunk_le c)), hostEncode_wireOut, setSession_wireOut]
  rfl

theorem built_sendBlock : built c.blockSize c.mode c.sequence c.chunk c.frame s (sendBlock c s) := by
  rw [sendBlock_of_pos h]
  exact built_hostEncode c.mode c.sequence (length_chunk_le c) (setSession c.sent s)

end

/-- A sender that has sent EOT (43_session_environment.md R80). -/
def Session.eotSent (c : Session) : Session := { c with phase := .awaitEotAck, attempts := 0, lastResponse := none }

theorem sendEot_of_pos {c : Session} (h : 0 < c.params.retryLimit) (s : State) :
    sendEot c s = transmit [byteEot] (setSession c.eotSent s) := by
  rw [sendEot, if_neg h.ne']
  rfl

section
variable {c : Session} (hk : c.cancelPending = false) (s : State)
include hk

theorem nextBlock_of_source (h : c.source ≠ []) : nextBlock c s = sendBlock c s := by
  rw [nextBlock, hk, if_neg Bool.false_ne_true, if_neg h]

theorem nextBlock_of_exhausted (h : c.source = []) : nextBlock c s = sendEot c s := by
  rw [nextBlock, hk, if_neg Bool.false_ne_true, if_pos h]

end

/-- An empty source that is to be sent as one block of padding (43_session_environment.md R78; log entry 15). -/
theorem onHandshake_padding {c : Session} (h : c.source = [] ∧ c.params.emptyAsBlock = true) (m : Mode) (s : State) :
    onHandshake m c s = sendBlock (c.started m) s := if_pos h

/-- Any other source: its first block, or EOT where it is empty. -/
theorem onHandshake_next {c : Session} (h : ¬ (c.source = [] ∧ c.params.emptyAsBlock = true)) (m : Mode) (s : State) :
    onHandshake m c s = nextBlock (c.started m) s := if_neg h

end Sys2Proof.Machine
end

section
/-! PROOF. The sender moves on: at the handshake, and at each ACK (43_session_environment.md R77 to R80). -/

namespace Sys2Proof.Machine

/-- Settles O40: either handshake byte sends the first chunk in its mode. -/
theorem theHandshakeStartsTheTransfer : Obligations.TheHandshakeStartsTheTransfer := by
  intro s c i m him hs hp hsrc hr hk
  have hread : exec i s = .next (sendBlock (c.started m) s) := by
    rw [← nextBlock_of_source (c := c.started m) hk s hsrc, ← onHandshake_next (fun h => hsrc h.1)]
    simp only [List.mem_cons, Prod.mk.injEq, List.not_mem_nil, or_false] at him
    obtain ⟨rfl, rfl⟩ | ⟨rfl, rfl⟩ := him <;> exact congrArg _ (receiveByte_awaitHandshake hs hp _)
  have hr' : 0 < (c.started m).params.retryLimit := hr
  exact ⟨_, _, hread, encodeBlock_of_le _ _ (length_chunk_le c), sendBlock_wireOut hr' s, built_sendBlock hr' s,
    sendBlock_session hr' s⟩

/-- Settles O42: the acknowledged chunk leaves the source, and the next one or EOT goes out. -/
theorem ackAdvancesTheSender : Obligations.AckAdvancesTheSender := by
  intro s c hs hp hr hk
  have hread : exec .ack s = .next (nextBlock c.advanced s) := congrArg _ (receiveByte_awaitAck hs hp byteAck)
  have hr' : 0 < c.advanced.params.retryLimit := hr
  refine ⟨fun hsrc => ?_, fun hsrc => ?_⟩
  · rw [nextBlock_of_source (c := c.advanced) hk s hsrc] at hread
    have hsession : (sendBlock c.advanced s).session = some c.advanced.sent := sendBlock_session hr' s
    rw [Session.sent, ← hp] at hsession
    exact ⟨_, _, hread, encodeBlock_of_le _ _ (length_chunk_le c.advanced), sendBlock_wireOut hr' s,
      built_sendBlock hr' s, hsession⟩
  · rw [hread, nextBlock_of_exhausted (c := c.advanced) hk s hsrc, sendEot_of_pos hr', Session.advanced, hsrc]
    rfl

end Sys2Proof.Machine
end

section
/-! SUPPORT. A source cut into blocks (43_session_environment.md R78, R86): how many they are, and what of them a
receiver delivers. -/

namespace Sys2Proof.Machine

theorem source_of_blockCount_zero {z : BlockSize} {l : List Byte} (h : blockCount z l = 0) : l = [] := by
  rw [← List.length_eq_zero_iff]
  cases z <;> simp only [blockCount, bs] at h <;> omega

theorem source_of_blockCount_succ {z : BlockSize} {l : List Byte} {n : Nat} (h : blockCount z l = n + 1) :
    l ≠ [] ∧ blockCount z (l.drop (bs z)) = n := by
  rw [Ne, ← List.length_eq_zero_iff, blockCount, List.length_drop]
  cases z <;> simp only [blockCount, bs] at h ⊢ <;> omega

theorem length_le_blockCount (z : BlockSize) (l : List Byte) : l.length ≤ blockCount z l * bs z := by
  cases z <;> simp only [blockCount, bs] <;> omega

/-- A block that is full has no padding. -/
theorem padded_of_length {z : BlockSize} {p : List Byte} (h : p.length = bs z) : padded z p = p := by
  rw [padded, h, Nat.sub_self, List.replicate_zero, List.append_nil]

/-- The blocks of a source start with it: only the last one is padded. -/
theorem source_isPrefix_paddedBlocks {z : BlockSize} {n : Nat} {l : List Byte} (h : l.length ≤ n * bs z) :
    l <+: paddedBlocks z n l := by
  induction n generalizing l with
  | zero =>
    rw [Nat.zero_mul, Nat.le_zero, List.length_eq_zero_iff] at h
    exact h ▸ List.nil_prefix
  | succ n ih =>
    rw [Nat.succ_mul] at h
    by_cases hfull : bs z ≤ l.length
    · have hrest : l.drop (bs z) <+: paddedBlocks z n (l.drop (bs z)) := ih (by rw [List.length_drop]; omega)
      have hsplit := (List.prefix_append_right_inj (l.take (bs z))).2 hrest
      rwa [List.take_append_drop, ← padded_of_length (List.length_take_of_le hfull)] at hsplit
    · rw [paddedBlocks, List.take_of_length_le (by omega), padded, List.append_assoc]
      exact List.prefix_append _ _

/-- Trimmed to what the source still has, a padded chunk is the chunk (43_session_environment.md R86). -/
theorem take_padded_chunk (z : BlockSize) (l : List Byte) :
    (padded z (l.take (bs z))).take l.length = l.take (bs z) := by
  by_cases hfull : bs z ≤ l.length
  · rw [padded_of_length (List.length_take_of_le hfull), List.take_take, Nat.min_eq_right hfull]
  · rw [List.take_of_length_le (l := l) (by omega), padded, List.take_left]

/-- What a receiver is still to append of a source in `n` blocks: whole blocks, or the source where its length is
declared (43_session_environment.md R83, R86). -/
def toDeliver (declared : Option Nat) (z : BlockSize) (n : Nat) (source : List Byte) : List Byte :=
  match declared with
  | none => paddedBlocks z n source
  | some _ => source

theorem toDeliver_nothing (declared : Option Nat) (z : BlockSize) : toDeliver declared z 0 [] = [] := by
  cases declared <;> rfl

/-- No length is declared, or the one that the source will have come to. -/
def declares (d : Session) (source : List Byte) : Prop :=
  d.params.declaredSize = none ∨ d.params.declaredSize = some (d.bytesTransferred + source.length)

/-- The next block is the first part of what is to be delivered. -/
theorem delivered_append {d : Session} {source : List Byte} (h : declares d source) (z : BlockSize) (n : Nat) :
    delivered d (padded z (source.take (bs z))) ++ toDeliver d.params.declaredSize z n (source.drop (bs z)) =
      toDeliver d.params.declaredSize z (n + 1) source := by
  unfold delivered toDeliver
  obtain h | h := h <;> rw [h] <;> dsimp only
  · rw [paddedBlocks]
  · rw [Nat.add_sub_cancel_left, take_padded_chunk, List.take_append_drop]

/-- A block delivered leaves as much to deliver as the source has left. -/
theorem declares_delivered {d d' : Session} {source : List Byte} (h : declares d source) (z : BlockSize)
    (hp : d'.params = d.params)
    (hb : d'.bytesTransferred = d.bytesTransferred + (delivered d (padded z (source.take (bs z)))).length) :
    declares d' (source.drop (bs z)) := by
  rw [declares, hp, hb]
  refine h.imp_right fun h => ?_
  have hdel : delivered d (padded z (source.take (bs z))) = source.take (bs z) := by
    simp only [delivered, h, Nat.add_sub_cancel_left, take_padded_chunk]
  rw [h, hdel, Nat.add_assoc, ← List.length_append, List.take_append_drop]

end Sys2Proof.Machine
end

section
/-! SUPPORT. One exchange over a lossless link (43_session_environment.md R75 to R84): the sender's block is accepted
and acknowledged, its EOT ends both ends. -/

namespace Sys2Proof.Machine

/-- The receiver waits for the block that the sender is to send: the first, in its handshake, or a further one. -/
structure Session.awaits (d c : Session) : Prop where
  phase : d.phase = .init ∨ d.phase = .awaitBlock
  partialBlock : d.partialBlock = []
  mode : d.mode = c.mode
  size : d.sizeFixed = true → d.blockSize = c.blockSize
  sequence : d.sequence = c.sequence
  cancelPending : d.cancelPending = false

/-- The receiver once it has accepted the block that the sender is to send. -/
def Session.received (d c : Session) : Session :=
  { (d.sized c.blockSize).accepted (padded c.blockSize c.chunk) with phase := .awaitBlock }

/-- The marker that ends the handshake is read as one in `AwaitBlock` (43_session_environment.md R81, R82). -/
theorem receive_frame_init {s : State} {d : Session} (hs : s.session = some d) (hp : d.phase = .init)
    (hn : d.partialBlock = []) (z : BlockSize) (rest : List Byte) :
    receive (marker z :: rest) s =
      receive (marker z :: rest) (setSession { d with phase := .awaitBlock, attempts := 0 } s) := by
  have hfirst : receiveByte (marker z) s =
      receiveByte (marker z) (setSession { d with phase := .awaitBlock, attempts := 0 } s) := by
    rw [receiveByte_init hs hp,
      receiveByte_betweenBlocks (c := { d with phase := .awaitBlock, attempts := 0 }) rfl rfl hn, firstByte_marker]
    cases z <;> rfl
  rw [receive_cons_of_not_awaits (by simp [awaitsHandshake, hs, hp]),
    receive_cons_of_not_awaits (by simp [awaitsHandshake]), hfirst]

/-- The sender's frame is the row of its fields. -/
theorem frame_eq_encode (c : Session) :
    c.frame = encode (frameInstr c.blockSize c.mode c.sequence (255#8 - c.sequence) (padded c.blockSize c.chunk)
      (det c.mode (padded c.blockSize c.chunk))) := by
  rw [Session.frame, blockBytes_blockOf, encode_frameInstr]

/-- The frame of the block that a receiver in `AwaitBlock` waits for is accepted and acknowledged (O32). -/
theorem receive_sentFrame_awaitBlock {s : State} {c d : Session} (hs : s.session = some d) (hp : d.phase = .awaitBlock)
    (h : d.awaits c) :
    (receive c.frame s).session = some (d.received c) ∧ (receive c.frame s).wireOut = s.wireOut ++ [byteAck] := by
  obtain ⟨t, hexec, -, -, -, hwire, hsession⟩ := theExpectedBlockIsAccepted c.blockSize c.mode
    (padded c.blockSize c.chunk) s d hs hp h.partialBlock h.mode h.size h.cancelPending
    (length_padded (length_chunk_le c))
  rw [exec_frameInstr_session hs, h.sequence, ← frame_eq_encode] at hexec
  cases hexec
  refine ⟨hsession.trans ?_, hwire⟩
  rw [Session.received, ← hp]
  rfl

/-- In its handshake the receiver takes the frame as the same receiver would in `AwaitBlock`. -/
theorem receive_sentFrame {s : State} {c d : Session} (hs : s.session = some d) (h : d.awaits c) :
    (receive c.frame s).session = some (d.received c) ∧ (receive c.frame s).wireOut = s.wireOut ++ [byteAck] := by
  obtain hp | hp := h.phase
  · have hinit : receive c.frame s = receive c.frame (setSession { d with phase := .awaitBlock, attempts := 0 } s) := by
      rw [Session.frame, blockBytes_blockOf]
      exact receive_frame_init hs hp h.partialBlock c.blockSize _
    rw [hinit]
    exact receive_sentFrame_awaitBlock (d := { d with phase := .awaitBlock, attempts := 0 }) (setSession_session _ s)
      rfl ⟨.inr rfl, h.partialBlock, h.mode, h.size, h.sequence, h.cancelPending⟩
  · exact receive_sentFrame_awaitBlock hs hp h

/-- EOT where a block is awaited is acknowledged, and the session ends (43_session_environment.md R84; log entry 20). -/
theorem receiveByte_eot {s : State} {c d : Session} (hs : s.session = some d) (h : d.awaits c) :
    receiveByte byteEot s = finish d .done (transmit [byteAck] s) := by
  obtain hp | hp := h.phase
  · exact receiveByte_init hs hp _
  · exact receiveByte_betweenBlocks hs hp h.partialBlock _

/-- The peer has read all that was written. -/
def State.wireRead (s : State) : State := { s with wireOut := [] }

theorem exchange_eq (s r : State) :
    exchange (s, r) =
      (receive r.wireOut s.wireRead, receive (receive r.wireOut s.wireRead).wireOut r.wireRead) := rfl

/-- The two ends before an exchange: what the sender is about to read makes it send its next block or EOT, and the
receiver waits for it. -/
structure linked (s r : State) (c d : Session) : Prop where
  reads : receive r.wireOut s.wireRead = nextBlock c s.wireRead
  budget : 0 < c.params.retryLimit
  cancelPending : c.cancelPending = false
  session : r.session = some d
  awaits : d.awaits c

/-- An exchange in which the sender sends a block leads to the next (43_session_environment.md R79, R83). -/
theorem linked_exchange {s r : State} {c d : Session}
    (hsend : receive r.wireOut s.wireRead = sendBlock c s.wireRead)
    (hb : 0 < c.params.retryLimit) (hk : c.cancelPending = false) (hr : r.session = some d) (h : d.awaits c) :
    linked (exchange (s, r)).1 (exchange (s, r)).2 c.sent.advanced (d.received c) := by
  have hsent : (sendBlock c s.wireRead).wireRead.session = some c.sent := sendBlock_session hb _
  have hframe : (sendBlock c s.wireRead).wireOut = c.frame := by rw [sendBlock_wireOut hb]; rfl
  have hexchange : exchange (s, r) = (sendBlock c s.wireRead, receive c.frame r.wireRead) := by
    rw [exchange_eq, hsend, hframe]
  obtain ⟨hsession, hwire⟩ := receive_sentFrame (s := r.wireRead) hr h
  rw [hexchange]
  refine ⟨?_, hb, hk, hsession, .inr rfl, h.partialBlock, h.mode, fun _ => rfl, congrArg (· + 1#8) h.sequence,
    h.cancelPending⟩
  rw [hwire]
  exact (receive_singleton byteAck _).trans (receiveByte_awaitAck hsent rfl byteAck)

/-- Both ends are done; the sender has counted `n` bytes and the receiver's sink is `sink`. -/
def completed (p : State × State) (n : Nat) (sink : List Byte) : Prop :=
  ∃ c d, p.1.session = some c ∧ p.2.session = some d ∧ c.phase = .ended .done ∧ d.phase = .ended .done ∧
    c.bytesTransferred = n ∧ d.sink = sink

/-- With the source exhausted two exchanges end both sessions: EOT, and the ACK that answers it
(43_session_environment.md R80, R84). -/
theorem completed_of_exhausted {s r : State} {c d : Session} (h : linked s r c d) (hsrc : c.source = []) :
    completed (exchanges 2 (s, r)) c.bytesTransferred d.sink := by
  have heot : receive r.wireOut s.wireRead = transmit [byteEot] (setSession c.eotSent s.wireRead) := by
    rw [h.reads, nextBlock_of_exhausted h.cancelPending _ hsrc, sendEot_of_pos h.budget]
  have hack : receive [byteEot] r.wireRead = finish d .done (transmit [byteAck] r.wireRead) := by
    rw [receive_singleton, receiveByte_eot (s := r.wireRead) h.session h.awaits]
  have hfirst : exchange (s, r) =
      (transmit [byteEot] (setSession c.eotSent s.wireRead), finish d .done (transmit [byteAck] r.wireRead)) := by
    rw [exchange_eq, heot, ← hack]
    rfl
  rw [exchanges, hfirst]
  exact ⟨_, _, rfl, rfl, rfl, rfl, rfl, rfl⟩

/-- What is still to come after a block, with that block, is what was to come before it. -/
theorem completed_of_delivered {p : State × State} {c d : Session} (hd : declares d c.source) {n : Nat}
    (h : completed p (c.sent.advanced.bytesTransferred + c.sent.advanced.source.length)
      ((d.received c).sink ++ toDeliver (d.received c).params.declaredSize c.blockSize n c.sent.advanced.source)) :
    completed p (c.bytesTransferred + c.source.length)
      (d.sink ++ toDeliver d.params.declaredSize c.blockSize (n + 1) c.source) := by
  have hcount :
      c.sent.advanced.bytesTransferred + c.sent.advanced.source.length = c.bytesTransferred + c.source.length := by
    simp only [Session.sent, Session.advanced, Session.chunk, Nat.add_assoc]
    rw [← List.length_append, List.take_append_drop]
  rw [← hcount, ← delivered_append hd, ← List.append_assoc]
  exact h

/-- From linked ends the transfer completes in one exchange per block and two more. -/
theorem completed_of_linked {s r : State} {c d : Session} (h : linked s r c d) {n : Nat}
    (hn : blockCount c.blockSize c.source = n) (hd : declares d c.source) :
    completed (exchanges (n + 2) (s, r)) (c.bytesTransferred + c.source.length)
      (d.sink ++ toDeliver d.params.declaredSize c.blockSize n c.source) := by
  induction n generalizing s r c d with
  | zero =>
    have hsrc := source_of_blockCount_zero hn
    rw [hsrc, toDeliver_nothing, List.append_nil]
    exact completed_of_exhausted h hsrc
  | succ n ih =>
    obtain ⟨hsrc, hrest⟩ := source_of_blockCount_succ hn
    have hnext := linked_exchange (h.reads.trans (nextBlock_of_source h.cancelPending _ hsrc)) h.budget h.cancelPending
      h.session h.awaits
    exact completed_of_delivered hd (ih hnext hrest (declares_delivered hd c.blockSize rfl rfl))

end Sys2Proof.Machine
end

section
/-! PROOF. The end-to-end transfer (95_test_vectors.md S6): the two openings link the ends, and linked ends complete. -/

namespace Sys2Proof.Machine

theorem openSender_next {p : Params} {z : BlockSize} {source : List Byte} {s t : State} (hb : 0 < p.retryLimit)
    (h : openSender p z source s = .next t) :
    t = setSession (newSession .sender p z true source .awaitHandshake) s := by
  rw [openSender, if_neg hb.ne'] at h
  split at h <;> cases h
  rfl

theorem openReceiver_next {p : Params} {z : Option BlockSize} {s t : State} (hb : 0 < p.retryLimit)
    (h : openReceiver p z s = .next t) :
    t = transmit [request (requestMode p 0)] (setSession (requesting p z 0) s) := by
  rw [openReceiver] at h
  split at h <;> cases h
  exact sendHandshake_of_lt hb s

/-- The receiver's request starts the sender in the mode it asks for (43_session_environment.md R75, R77). -/
theorem receive_request {s : State} {c : Session} (hs : s.session = some c) (hp : c.phase = .awaitHandshake)
    (m : Mode) :
    receive [request m] s = onHandshake m c s := by
  rw [receive_singleton, receiveByte_awaitHandshake hs hp]
  cases m <;> rfl

/-- A receiver whose size is open, or the sender's, waits for the sender's first block in the mode it has asked for. -/
theorem requesting_awaits {p p' : Params} {z : BlockSize} {z' : Option BlockSize} (hz : z' = none ∨ z' = some z)
    (source : List Byte) (k : Nat) :
    (requesting p' z' k).awaits ((newSession .sender p z true source .awaitHandshake).started (requestMode p' k)) := by
  refine ⟨.inl rfl, rfl, rfl, fun hfix => ?_, rfl, rfl⟩
  obtain rfl | rfl := hz
  · cases hfix
  · rfl

/-- From the handshake on the transfer completes whatever the source: an empty one as one block of padding or as
none. -/
theorem completed_of_handshake {s r : State} {c d : Session} {m : Mode} (hs : s.session = some c)
    (hp : c.phase = .awaitHandshake) (hb : 0 < c.params.retryLimit) (hk : c.cancelPending = false)
    (hr : r.session = some d) (hw : r.wireOut = [request m]) (ha : d.awaits (c.started m)) (hd : declares d c.source)
    {n : Nat}
    (hn : n = if c.source = [] ∧ c.params.emptyAsBlock = true then 1 else blockCount c.blockSize c.source) :
    completed (exchanges (n + 2) (s, r)) (c.bytesTransferred + c.source.length)
      (d.sink ++ toDeliver d.params.declaredSize c.blockSize n c.source) := by
  have hread : receive r.wireOut s.wireRead = onHandshake m c s.wireRead := by
    rw [hw]
    exact receive_request (s := s.wireRead) hs hp m
  by_cases hpad : c.source = [] ∧ c.params.emptyAsBlock = true
  · rw [if_pos hpad] at hn
    subst hn
    have hnext := linked_exchange (hread.trans (onHandshake_padding hpad m _)) hb hk hr ha
    have hrest : blockCount c.blockSize (c.source.drop (bs c.blockSize)) = 0 := by
      rw [hpad.1, List.drop_nil]
      cases c.blockSize <;> rfl
    exact completed_of_delivered (c := c.started m) hd
      (completed_of_linked hnext hrest (declares_delivered hd c.blockSize rfl rfl))
  · rw [if_neg hpad] at hn
    exact completed_of_linked (c := c.started m) ⟨hread.trans (onHandshake_next hpad m _), hb, hk, hr, ha⟩ hn.symm hd

/-- Settles O48: the openings are undone into the states they lead to, from which the transfer completes; the source is
what is delivered, or starts it. -/
theorem aLosslessTransferDeliversTheSource : Obligations.ALosslessTransferDeliversTheSource := by
  intro z source p p' z' s r s₁ r₁ n hb hb' hz hr hd hn hs₁ hr₁
  obtain rfl := openSender_next hb hs₁
  obtain rfl := openReceiver_next hb' hr₁
  have hdeclares : declares (requesting p' z' 0) source := by
    rw [← Nat.zero_add source.length] at hd
    exact hd
  have hwire : (transmit [request (requestMode p' 0)] (setSession (requesting p' z' 0) r)).wireOut =
      [request (requestMode p' 0)] := by
    rw [transmit_wireOut, setSession_wireOut, hr, List.nil_append]
  obtain ⟨c, d, hc, hd', hcend, hdend, hcount, hsink⟩ := completed_of_handshake (setSession_session _ s) rfl hb rfl rfl
    hwire (requesting_awaits hz source 0) hdeclares hn
  replace hsink : d.sink = toDeliver p'.declaredSize z n source := hsink
  refine ⟨c, d, hc, hd', hcend, hdend, hcount.trans (Nat.zero_add _), fun h => ?_, fun h => ?_, ?_⟩
  · rw [hsink, h, toDeliver]
  · rw [hsink, h, toDeliver]
  · have hfits : source.length ≤ n * bs z := by
      rw [hn]
      split
      next h => simp [h.1]
      next => exact length_le_blockCount z source
    rw [hsink]
    obtain h | h := hd <;> rw [h, toDeliver]
    · exact (List.prefix_iff_eq_take.1 (source_isPrefix_paddedBlocks hfits)).symm
    · exact List.take_length

end Sys2Proof.Machine
end

section
/-! PROOF. Every command completes, and an error is precise (60_exceptions.md R96, R101). -/

namespace Sys2Proof.Machine

/-- How a command ends (60_exceptions.md R96): in `OK`, or in an error that zeroes the other results and leaves FB. -/
def endsPrecisely (s t : State) : Prop :=
  t.status = 0x80#8 ∨
    ∃ e : Err, results t (statusWord (errCode e)) 0x00#8 0x0000#16 0x0000#16 ∧ t.fb = s.fb

theorem endsPrecisely_complete (r : Byte) (d o : Half) (s u : State) : endsPrecisely s (complete r d o u) := .inl rfl

theorem endsPrecisely_raise (e : Err) {s u : State} (h : u.fb = s.fb) : endsPrecisely s (raise e u) :=
  .inr ⟨e, ⟨rfl, rfl, rfl, rfl⟩, h⟩

theorem endsPrecisely_detect (m : Mode) (s : State) : endsPrecisely s (detect m s) := by
  obtain ⟨-, he⟩ | ⟨-, he⟩ := detect_cases m s <;> rw [he]
  · exact endsPrecisely_raise _ rfl
  · exact endsPrecisely_complete ..

theorem endsPrecisely_encodeCommand (z : BlockSize) (m : Mode) (s : State) :
    endsPrecisely s (encodeCommand z m s) := by
  obtain ⟨-, he⟩ | ⟨-, he⟩ := encodeCommand_cases z m s <;> rw [he]
  · exact endsPrecisely_raise _ rfl
  · exact endsPrecisely_complete ..

theorem endsPrecisely_decodeCommand (z : BlockSize) (m : Mode) (s : State) :
    endsPrecisely s (decodeCommand z m s) := by
  obtain ⟨-, he⟩ | he | he | ⟨-, -, he⟩ := decodeCommand_cases z m s <;> rw [he]
  · exact endsPrecisely_raise _ rfl
  · exact endsPrecisely_raise _ rfl
  · exact endsPrecisely_raise _ rfl
  · exact endsPrecisely_complete ..

theorem sameBeside_detect (m : Mode) (s : State) : sameBeside s (detect m s) :=
  ⟨detect_cmd m s, detect_seq m s, detect_len m s, rfl, rfl, rfl, rfl, rfl⟩

theorem sameBeside_raise (e : Err) (s : State) : sameBeside s (raise e s) := ⟨rfl, rfl, rfl, rfl, rfl, rfl, rfl, rfl⟩

/-- Settles O6: each kind of command leaves what is beside the block and ends precisely, and only an `ENC` may write
FB. -/
theorem everyCommandCompletesAndErrorsArePrecise : Obligations.EveryCommandCompletesAndErrorsArePrecise := by
  intro i s hi
  obtain ⟨m, rfl⟩ | ⟨z, m, rfl⟩ | ⟨z, m, rfl⟩ | hr := command_cases hi
  · exact ⟨_, exec_detInstr m s, sameBeside_detect m s, fun _ => detect_fb m s, endsPrecisely_detect m s⟩
  · exact ⟨_, exec_encInstr z m s, sameBeside_encodeCommand z m s, fun hne => absurd rfl (hne z m),
      endsPrecisely_encodeCommand z m s⟩
  · exact ⟨_, exec_decInstr z m s, sameBeside_decodeCommand z m s, fun _ => decodeCommand_fb z m s,
      endsPrecisely_decodeCommand z m s⟩
  · exact ⟨_, hr s, sameBeside_raise .illegalCommand s, fun _ => rfl, endsPrecisely_raise .illegalCommand rfl⟩

end Sys2Proof.Machine
end

section
/-! PROOF. The reserved commands (30_encoding.md R44, 60_exceptions.md R94): a reserved value selects none of the
commands that have a meaning, since each of those is the one byte it encodes to, a legal one. -/

namespace Sys2Proof.Machine

theorem legal_of_mem_encode_detInstr (m : Mode) : ∀ v ∈ encode (detInstr m), v ∈ legalCommands := by
  cases m <;> decide

theorem legal_of_mem_encode_encInstr (z : BlockSize) (m : Mode) : ∀ v ∈ encode (encInstr z m), v ∈ legalCommands := by
  cases z <;> cases m <;> decide

theorem legal_of_mem_encode_decInstr (z : BlockSize) (m : Mode) : ∀ v ∈ encode (decInstr z m), v ∈ legalCommands := by
  cases z <;> cases m <;> decide

theorem exec_decodeCmd_reserved {v : Byte} (hv : v ∉ legalCommands) (s : State) :
    exec (decodeCmd v) s = .next (raise .illegalCommand s) := by
  have hmem : v ∈ encode (decodeCmd v) := by rw [encode_decodeCmd, List.mem_singleton]
  obtain ⟨m, h⟩ | ⟨z, m, h⟩ | ⟨z, m, h⟩ | hr := command_cases (decodeCmd_space v)
  · exact absurd (legal_of_mem_encode_detInstr m v (h ▸ hmem)) hv
  · exact absurd (legal_of_mem_encode_encInstr z m v (h ▸ hmem)) hv
  · exact absurd (legal_of_mem_encode_decInstr z m v (h ▸ hmem)) hv
  · exact hr s

/-- What taking `IllegalCommand` writes (60_exceptions.md R96). -/
theorem raise_illegalCommand (s : State) :
    raise .illegalCommand s =
      { s with status := 0x85#8, rseq := 0x00#8, det := 0x0000#16, outlen := 0x0000#16 } := rfl

/-- Settles O11: a reserved value is written and raises `IllegalCommand`, as each of the six rows does. -/
theorem reservedCommandsEndInIllegalCommand : Obligations.ReservedCommandsEndInIllegalCommand := by
  refine ⟨by decide +kernel, fun s v rest hv hs => ?_, fun s m sm a b c d i hi => ?_⟩
  · rw [aStepRunsTheDecodedInstruction.1 s v rest hs, exec_decodeCmd_reserved hv, raise_illegalCommand]
  · rw [← raise_illegalCommand]
    simp only [List.mem_cons, List.not_mem_nil, or_false] at hi
    obtain rfl | rfl | rfl | rfl | rfl | rfl := hi <;> rfl

end Sys2Proof.Machine
end

section
/-! PROOF. No command reads a result register (60_exceptions.md R97): the model's commands look at FB, `SEQ` and
`LEN` alone and overwrite all four result registers in every outcome, so each comes to the same state by computation. -/

namespace Sys2Proof.Machine

/-- The state with other values in the result registers. -/
def State.withResults (s : State) (v r : Byte) (d o : Half) : State :=
  { s with status := v, rseq := r, det := d, outlen := o }

section
variable (v r : Byte) (d o : Half) (s : State)

theorem raise_withResults (e : Err) : raise e (s.withResults v r d o) = raise e s := rfl

theorem detect_withResults (m : Mode) : detect m (s.withResults v r d o) = detect m s := rfl

theorem encodeCommand_withResults (z : BlockSize) (m : Mode) :
    encodeCommand z m (s.withResults v r d o) = encodeCommand z m s := rfl

theorem decodeCommand_withResults (z : BlockSize) (m : Mode) :
    decodeCommand z m (s.withResults v r d o) = decodeCommand z m s := rfl

end

/-- Settles O5: each kind of command comes to the same state whatever the result registers held. -/
theorem noCommandReadsTheResultRegisters : Obligations.NoCommandReadsTheResultRegisters := by
  intro i s v r d o hi
  change exec i (s.withResults v r d o) = exec i s
  obtain ⟨m, rfl⟩ | ⟨z, m, rfl⟩ | ⟨z, m, rfl⟩ | hr := command_cases hi
  · rw [exec_detInstr, exec_detInstr, detect_withResults]
  · rw [exec_encInstr, exec_encInstr, encodeCommand_withResults]
  · rw [exec_decInstr, exec_decInstr, decodeCommand_withResults]
  · rw [hr, hr, raise_withResults]

end Sys2Proof.Machine
end

section
/-! SUPPORT. The reactions of the two state machines that are no command of the block leave its whole record as it was:
waiting, resending, answering and ending touch the session and the wire alone (43_session_environment.md sections 4 and
5). -/

namespace Sys2Proof.Machine

section
variable (c : Session) (s : State)

/-! ### Sender -/

theorem sendEot_toXfc : (sendEot c s).toXfc = s.toXfc := by
  unfold sendEot; split <;> rfl

theorem onNoAck_toXfc (r : Option Byte) : (onNoAck r c s).toXfc = s.toXfc := by
  unfold onNoAck; dsimp only; split <;> rfl

theorem onNoEotAck_toXfc : (onNoEotAck c s).toXfc = s.toXfc := by
  unfold onNoEotAck; split <;> rfl

theorem onNoHandshake_toXfc : (onNoHandshake c s).toXfc = s.toXfc := by
  unfold onNoHandshake; split <;> rfl

theorem strayEotReply_toXfc : (strayEotReply c s).toXfc = s.toXfc := by
  unfold strayEotReply
  split
  · exact onNoEotAck_toXfc c s
  · rfl

theorem eotAckByte_toXfc (b : Byte) : (eotAckByte b c s).toXfc = s.toXfc := by
  unfold eotAckByte
  cases ctl b with
  | ack | can => rfl
  | nak => exact onNoEotAck_toXfc c s
  | soh | stx | eot | crcreq | other => exact strayEotReply_toXfc c s

/-! ### Receiver -/

theorem sendHandshake_toXfc : (sendHandshake c s).toXfc = s.toXfc := by
  unfold sendHandshake; split_ifs <;> rfl

theorem afterBlock_toXfc : (afterBlock c s).toXfc = s.toXfc := by
  unfold afterBlock; split <;> rfl

theorem failAttempt_toXfc (k : FailKind) : (failAttempt k c s).toXfc = s.toXfc := by
  unfold failAttempt
  split
  · rfl
  · exact afterBlock_toXfc _ s

theorem refuseBlock_toXfc (k : FailKind) : (refuseBlock k c s).toXfc = s.toXfc :=
  failAttempt_toXfc c (transmit [byteNak] s) k

theorem acceptBlock_toXfc (p : List Byte) : (acceptBlock p c s).toXfc = s.toXfc :=
  afterBlock_toXfc _ (transmit [byteAck] s)

/-- Reading the payload out of FB draws free values and leaves the block. -/
theorem judgeBlock_toXfc : (judgeBlock c s).toXfc = s.toXfc := by
  unfold judgeBlock
  split_ifs
  · exact acceptBlock_toXfc c { s with draws := s.draws + s.outlen.toNat } _
  · exact afterBlock_toXfc c (transmit [byteAck] s)
  · exact refuseBlock_toXfc c s _
  · exact refuseBlock_toXfc c s _

theorem blockTimeout_toXfc : (blockTimeout c s).toXfc = s.toXfc := by
  unfold blockTimeout
  dsimp only
  split
  · exact refuseBlock_toXfc _ s _
  · exact failAttempt_toXfc _ s _

theorem firstByte_toXfc (b : Byte) : (firstByte b c s).toXfc = s.toXfc := by
  unfold firstByte
  cases ctl b with
  | soh | stx | eot | can => rfl
  | ack | nak | crcreq | other =>
    dsimp only
    split
    · exact refuseBlock_toXfc c s _
    · rfl

theorem initByte_toXfc (b : Byte) : (initByte b c s).toXfc = s.toXfc := by
  unfold initByte; cases ctl b <;> rfl

end

/-! ### Events -/

theorem onTimeout_toXfc (s : State) : (onTimeout s).toXfc = s.toXfc := by
  unfold onTimeout
  split
  · rfl
  next c _ =>
    cases c.phase with
    | awaitHandshake => exact onNoHandshake_toXfc c s
    | awaitAck => exact onNoAck_toXfc c s none
    | awaitEotAck => exact onNoEotAck_toXfc c s
    | init => exact sendHandshake_toXfc c s
    | awaitBlock => exact blockTimeout_toXfc c s
    | ended => rfl

theorem onCancel_toXfc (s : State) : (onCancel s).toXfc = s.toXfc := by
  unfold onCancel
  split
  · rfl
  next c _ =>
    cases c.phase with
    | awaitHandshake | awaitAck | awaitEotAck | init | ended => rfl
    | awaitBlock => dsimp only; split <;> rfl

theorem openSender_toXfc {p : Params} {z : BlockSize} {source : List Byte} {s t : State}
    (e : openSender p z source s = .next t) : t.toXfc = s.toXfc := by
  unfold openSender at e
  split_ifs at e <;> cases e <;> rfl

theorem openReceiver_toXfc {p : Params} {z : Option BlockSize} {s t : State} (e : openReceiver p z s = .next t) :
    t.toXfc = s.toXfc := by
  unfold openReceiver at e
  split_ifs at e
  cases e
  exact sendHandshake_toXfc _ s

end Sys2Proof.Machine
end

section
/-! PROOF. Reset (70_reset_and_hazards.md R105): the state it gives, and that nothing else clears `STATUS.DONE`. A
command ends with `DONE` set whatever it was before, and what runs no command leaves `STATUS`. -/

namespace Sys2Proof.Machine

/-- `STATUS.DONE` is set: a command has been executed since reset (10_state.md R11). -/
def State.done (s : State) : Prop := statusDone s.status = true

theorem statusDone_statusWord : ∀ e : BitVec 3, statusDone (statusWord e) = true := by decide

/-- However a command ends, it sets `DONE`. -/
theorem done_of_endsPrecisely {s t : State} (h : endsPrecisely s t) : t.done := by
  obtain h | ⟨e, ⟨h, -⟩, -⟩ := h <;> rw [State.done, h]
  · exact statusDone_statusWord 0#3
  · exact statusDone_statusWord (errCode e)

section
variable {s : State} (h : s.done)
include h

theorem done_of_toXfc_eq {t : State} (e : t.toXfc = s.toXfc) : t.done := by
  rwa [State.done, e]

/-! ### The host's shorthands -/

theorem done_hostEncode (z : BlockSize) (m : Mode) (q : Byte) (p : List Byte) : (hostEncode z m q p s).done := by
  unfold hostEncode
  split
  · exact h
  · exact done_of_endsPrecisely (endsPrecisely_encodeCommand ..)

theorem done_hostDecode (z : BlockSize) (m : Mode) (r : List Byte) : (hostDecode z m r s).done := by
  unfold hostDecode
  split
  · exact h
  · exact done_of_endsPrecisely (endsPrecisely_decodeCommand ..)

theorem done_accessShorthand {x : Shorthand} {t : State} (e : accessShorthand x s = .next t) : t.done := by
  cases x with
  | load a p =>
    simp only [accessShorthand, accessLoad] at e
    split_ifs at e <;> cases e <;> exact h
  | encode z m q p => cases e; exact done_hostEncode h z m q p
  | decode z m r => cases e; exact done_hostDecode h z m r
  | detect m p =>
    simp only [accessShorthand, hostDetect] at e
    split_ifs at e
    cases e
    exact done_of_endsPrecisely (endsPrecisely_detect ..)
  | sendframe => cases e; exact h

/-! ### The session -/

theorem done_sendBlock (c : Session) : (sendBlock c s).done := by
  unfold sendBlock
  split
  · exact h
  · exact done_hostEncode (s := setSession _ s) h ..

theorem done_nextBlock (c : Session) : (nextBlock c s).done := by
  unfold nextBlock
  split_ifs
  · exact h
  · exact done_of_toXfc_eq h (sendEot_toXfc c s)
  · exact done_sendBlock h c

theorem done_onHandshake (m : Mode) (c : Session) : (onHandshake m c s).done := by
  unfold onHandshake
  dsimp only
  split
  · exact done_sendBlock h _
  · exact done_nextBlock h _

theorem done_handshakeByte (b : Byte) (c : Session) : (handshakeByte b c s).done := by
  unfold handshakeByte
  cases ctl b with
  | nak | crcreq => exact done_onHandshake h _ c
  | can | soh | stx | eot | ack | other => exact h

theorem done_ackByte (b : Byte) (c : Session) : (ackByte b c s).done := by
  unfold ackByte
  cases ctl b with
  | ack => exact done_nextBlock h _
  | can => exact h
  | nak | soh | stx | eot | crcreq | other => exact done_of_toXfc_eq h (onNoAck_toXfc c s _)

theorem done_blockRead (l : List Byte) (c : Session) : (blockRead l c s).done := by
  unfold blockRead
  dsimp only
  split
  · exact done_of_toXfc_eq (done_hostDecode h ..) (refuseBlock_toXfc ..)
  · exact done_of_toXfc_eq (done_hostDecode h ..) (judgeBlock_toXfc ..)

theorem done_blockByte (b : Byte) (c : Session) : (blockByte b c s).done := by
  unfold blockByte
  dsimp only
  split
  · exact h
  · exact done_blockRead h _ c

theorem done_receiveByte (b : Byte) : (receiveByte b s).done := by
  unfold receiveByte
  split
  · exact h
  next c _ =>
    cases c.phase with
    | awaitHandshake => exact done_handshakeByte h b c
    | awaitAck => exact done_ackByte h b c
    | awaitEotAck => exact done_of_toXfc_eq h (eotAckByte_toXfc c s b)
    | init => exact done_of_toXfc_eq h (initByte_toXfc c s b)
    | awaitBlock =>
      dsimp only
      split
      · exact done_of_toXfc_eq h (firstByte_toXfc c s b)
      · exact done_blockByte h b c
    | ended => exact h

end

theorem done_receive {s : State} (h : s.done) (l : List Byte) : (receive l s).done := by
  induction l generalizing s with
  | nil => exact h
  | cons b t ih =>
    rw [receive_cons]
    split
    · exact ih h
    · exact ih (done_receiveByte h b)

/-! ### Every row, every input -/

section
variable {s t : State} (h : s.done)
include h

theorem done_exec {i : Instr} (e : exec i s = .next t) : t.done := by
  cases hi : i.space with
  | command =>
    obtain ⟨u, hu, -, -, hends⟩ := everyCommandCompletesAndErrorsArePrecise i s hi
    cases hu.symm.trans e
    exact done_of_endsPrecisely hends
  | wire =>
    obtain ⟨z, m, l, hf⟩ | ⟨b, hb⟩ := wire_cases hi
    · cases (hf s).symm.trans e
      unfold frameArrives
      split
      · exact done_hostDecode h z m l
      · exact done_receive h l
    · cases (hb s).symm.trans e
      exact done_receiveByte h b

theorem done_wireArrives {l : List Byte} (e : wireArrives l s = .next t) : t.done := by
  unfold wireArrives at e
  split at e
  · exact done_exec h e
  · cases e
    exact done_receive h l

/-- A write to a result register is ignored, so a host cannot clear `STATUS` either (20_memory.md R22). -/
theorem done_accessWrreg {w : RegWrite} (e : accessWrreg w s = .next t) : t.done := by
  cases w with
  | cmd v => exact done_exec (s := { s with cmd := v }) h e
  | seq | len | status | rseq | det | outlen => cases e; exact h
  | reserved => cases e

theorem done_act {i : Input} (hi : i ≠ .reset) (e : act i s = .next t) : t.done := by
  cases i with
  | rdfb a =>
    simp only [act, accessRdfb] at e
    split_ifs at e
    cases e
    exact h
  | wrfb a b =>
    simp only [act, accessWrfb] at e
    split_ifs at e
    cases e
    exact h
  | rdreg r =>
    simp only [act, accessRdreg] at e
    split at e <;> cases e
    exact h
  | wrreg w => exact done_accessWrreg h e
  | shorthand x => exact done_accessShorthand h e
  | reset => exact absurd rfl hi
  | openSender => exact done_of_toXfc_eq h (openSender_toXfc e)
  | openReceiver => exact done_of_toXfc_eq h (openReceiver_toXfc e)
  | wire l => exact done_wireArrives h e
  | timeout => cases e; exact done_of_toXfc_eq h (onTimeout_toXfc s)
  | cancel => cases e; exact done_of_toXfc_eq h (onCancel_toXfc s)

end

/-- A step either takes a reset or keeps `DONE` set. -/
theorem done_step {s t : State} (h : s.done) (e : step s = .next t) : (∃ rest, s.inputs = .reset :: rest) ∨ t.done := by
  cases hin : s.inputs with
  | nil =>
    simp only [step, hin] at e
    cases e
    exact .inr h
  | cons i rest =>
    rw [step_of_inputs hin] at e
    by_cases hi : i = .reset
    · exact .inl ⟨rest, by rw [hi]⟩
    · exact .inr (done_act (s := { s with inputs := rest }) h hi e)

/-- Settles O1: the two reset states by their fields; and a step that took no reset would have kept `DONE`. -/
theorem resetClearsTheBlockAndNothingElseClearsDone : Obligations.ResetClearsTheBlockAndNothingElseClearsDone := by
  refine ⟨⟨⟨rfl, rfl, rfl, rfl⟩, rfl, rfl, rfl, byteAt?_nil⟩, fun s rest hs => ?_, fun s t e hset hclear => ?_⟩
  · exact ⟨resetBlock { s with inputs := rest }, step_of_inputs hs, ⟨rfl, rfl, rfl, rfl⟩, rfl, rfl, rfl, byteAt?_nil,
      rfl, rfl, rfl⟩
  · exact (done_step hset e).resolve_right fun hdone => Bool.false_ne_true (hclear.symm.trans hdone)

/-- Settles O2: the block is as every reset leaves it, and there is no session to speak of. -/
theorem theInvariantHoldsAtReset : Obligations.TheInvariantHoldsAtReset :=
  ⟨blockInv_resetBlock State.reset, fun _ h => nomatch h⟩

end Sys2Proof.Machine
end
